-- ==== Sys2Proof/Word.lean ====
section
/-! DEFINITION. The word types of the core: bytes, bus words and the 64-bit quantities of the register pairs. -/

namespace Sys2Proof

/-- A byte of a buffer (`20_memory.md` R61). -/
abbrev Byte := BitVec 8

/-- A bus word, a register and a command word (`20_memory.md` R60, `30_encoding.md` R90). -/
abbrev Word := BitVec 32

/-- A 64-bit quantity: a LO/HI register pair, an entry of the S table, an LCG value
(`10_state.md` R20, R48). -/
abbrev DWord := BitVec 64

/-- A byte offset of the core's 64 KiB offset space (`20_memory.md` R62). -/
abbrev Offset := BitVec 16

end Sys2Proof
end

