-- ==== Sys2Proof/Syntax.lean ====
section
/-! DEFINITION. The commands of the opcode map (`30_encoding.md` R91), one constructor a row, and the
fields of a raw command word (R90). -/

namespace Sys2Proof

/-- The F flag of LCG_PERIOD: where the sequence is (`30_encoding.md` R91). -/
inductive SeqSource where
  /-- F = 0: IN_BUF. -/
  | inBuf
  /-- F = 1: OUT_BUF. -/
  | outBuf
  deriving DecidableEq, Repr

/-- A command, one constructor for each row of the opcode map (`30_encoding.md` R91). The only operand
in a command word is F, of LCG_PERIOD and MD5 (R90). -/
inductive Instr where
  /-- LCG_GEN (`40_lcg.md` R122). -/
  | lcgGen
  /-- LCG_PERIOD, F selecting the source (`40_lcg.md` R124). -/
  | lcgPeriod (src : SeqSource)
  /-- MD5, F = TOKEY: copy the digest into KEYBUF (`41_md5.md` R144). -/
  | md5 (toKey : Bool)
  /-- KEYSCHED (`42_rc5_key_schedule.md` R167). -/
  | keysched
  /-- ENC_BLOCK (`43_rc5_block.md` R183). -/
  | encBlock
  /-- DEC_BLOCK (`43_rc5_block.md` R184). -/
  | decBlock
  /-- CBC_ENC (`44_cbc_pad.md` R204). -/
  | cbcEnc
  /-- CBC_DEC (`44_cbc_pad.md` R209). -/
  | cbcDec
  deriving DecidableEq, Repr

/-- The fields of a raw command word (`30_encoding.md` R90), legal or not. -/
structure CmdFields where
  op  : BitVec 8
  f   : BitVec 1
  rsv : BitVec 23
  deriving DecidableEq, Repr

end Sys2Proof
end

