-- ==== Sys2Proof/WellFormed.lean ====
section
/-! DEFINITION. The legality checks of a command word (`30_encoding.md` R93), as the rule's formula
states them, apart from the opcode table the decoder uses. A term of Instr is legal by its type; what
can be ill-formed is the raw word. -/

namespace Sys2Proof

/-- First conjunct of R93: OP is in 0x01..0x08. -/
def CmdFields.opAssigned (c : CmdFields) : Bool := decide (1 ≤ c.op.toNat ∧ c.op.toNat ≤ 8)

/-- Second conjunct of R93: RSV = 0. -/
def CmdFields.rsvZero (c : CmdFields) : Bool := decide (c.rsv = 0#23)

/-- Third conjunct of R93: F = 0 unless OP is 0x02 or 0x03. -/
def CmdFields.flagAllowed (c : CmdFields) : Bool :=
  decide (c.f = 0#1 ∨ c.op = 0x02#8 ∨ c.op = 0x03#8)

/-- `legal(v)` of `30_encoding.md` R93. -/
def CmdFields.wellFormed (c : CmdFields) : Bool := c.opAssigned && c.rsvZero && c.flagAllowed

end Sys2Proof
end

