-- ==== Sys2Proof/Decode.lean ====
section
/-! DEFINITION. The decoder of command words, from the mask and match table of `30_encoding.md` R91,
and the encoder after it. -/

namespace Sys2Proof

/-- The fields of a command word: OP = v[7:0], F = v[8], RSV = v[31:9] (`30_encoding.md` R90). -/
def CmdFields.ofWord (v : Word) : CmdFields :=
  ⟨v.extractLsb' 0 8, v.extractLsb' 8 1, v.extractLsb' 9 23⟩

/-- The word made of the three fields (`30_encoding.md` R90). -/
def CmdFields.toWord (c : CmdFields) : Word := c.rsv ++ c.f ++ c.op

/-- Why a command word is illegal (`30_encoding.md` R93). The hardware reports all three as
ILLEGAL_COMMAND; the names are the model's (log entry 26). -/
inductive DecodeError where
  /-- OP is not in 0x01..0x08. -/
  | unassignedOp
  /-- RSV is not 0. -/
  | reservedBits
  /-- F = 1 where the OP defines no flag. -/
  | flagUndefined
  deriving DecidableEq, Repr

/-- A row of the opcode map: its mask and match, and the command it stands for as a function of F. -/
structure OpcodeRow where
  mask  : Word
  value : Word
  build : Bool → Instr

/-- The source select of LCG_PERIOD from F. -/
def SeqSource.ofFlag : Bool → SeqSource
  | false => .inBuf
  | true => .outBuf

/-- F from the source select of LCG_PERIOD. -/
def SeqSource.flag : SeqSource → Bool
  | .inBuf => false
  | .outBuf => true

/-- The opcode map of `30_encoding.md` R91, in its order. -/
def opcodeMap : List OpcodeRow :=
  [ ⟨0xFFFFFFFF#32, 0x00000001#32, fun _ => .lcgGen⟩,
    ⟨0xFFFFFEFF#32, 0x00000002#32, fun f => .lcgPeriod (SeqSource.ofFlag f)⟩,
    ⟨0xFFFFFEFF#32, 0x00000003#32, fun f => .md5 f⟩,
    ⟨0xFFFFFFFF#32, 0x00000004#32, fun _ => .keysched⟩,
    ⟨0xFFFFFFFF#32, 0x00000005#32, fun _ => .encBlock⟩,
    ⟨0xFFFFFFFF#32, 0x00000006#32, fun _ => .decBlock⟩,
    ⟨0xFFFFFFFF#32, 0x00000007#32, fun _ => .cbcEnc⟩,
    ⟨0xFFFFFFFF#32, 0x00000008#32, fun _ => .cbcDec⟩ ]

/-- A word selects a row when `(v & mask) = match` (`30_encoding.md` R91). -/
def OpcodeRow.selects (r : OpcodeRow) (v : Word) : Bool := v &&& r.mask == r.value

/-- The name of the first check of R93 that an illegal word fails. -/
def decodeReason (v : Word) : DecodeError :=
  if !(CmdFields.ofWord v).opAssigned then .unassignedOp
  else if !(CmdFields.ofWord v).rsvZero then .reservedBits
  else .flagUndefined

/-- Decoding, total on words: the command of the row the word selects, or the reason no row does
(`30_encoding.md` R91, R93). -/
def decode (v : Word) : Except DecodeError Instr :=
  match opcodeMap.find? (fun r => r.selects v) with
  | some r => .ok (r.build (v.getLsbD 8))
  | none => .error (decodeReason v)

/-- The host's question: the instruction the decoder reads from the `nbits` low bits of `w`, the bits
above them being 0. A command is one 32-bit word written to CMD, so the table's bit numbering is the
word's own (`30_encoding.md` section 1). -/
def decodeTableWord (nbits w : Nat) : Option Instr :=
  match decode (BitVec.ofNat 32 (w % 2 ^ nbits)) with
  | .ok i => some i
  | .error _ => none

/-- The OP of a command (`30_encoding.md` R91). -/
def Instr.op : Instr → BitVec 8
  | .lcgGen => 0x01#8
  | .lcgPeriod _ => 0x02#8
  | .md5 _ => 0x03#8
  | .keysched => 0x04#8
  | .encBlock => 0x05#8
  | .decBlock => 0x06#8
  | .cbcEnc => 0x07#8
  | .cbcDec => 0x08#8

/-- The F flag of a command (`30_encoding.md` R91). -/
def Instr.flag : Instr → Bool
  | .lcgGen => false
  | .lcgPeriod src => src.flag
  | .md5 toKey => toKey
  | .keysched => false
  | .encBlock => false
  | .decBlock => false
  | .cbcEnc => false
  | .cbcDec => false

/-- The word of a command, written from the field layout of `30_encoding.md` R90 and the OP and F
columns of R91. -/
def encode (i : Instr) : Word := CmdFields.toWord ⟨i.op, BitVec.ofBool i.flag, 0#23⟩

end Sys2Proof
end

