-- ==== Sys2Proof/Config.lean ====
section
/-! DEFINITION. What an implementation fixes (N_IN) and the free values the spec leaves open. -/

namespace Sys2Proof

/-- The implementation parameter N_IN of `00_scope.md` section 4: a multiple of 16 from 16 to 16352,
kept as the number of 16-byte blocks less one, so that no illegal value exists (log entry 1). -/
structure Config where
  nInBlocks : Fin 1022
  deriving DecidableEq, Repr

/-- N_IN, the capacity of IN_BUF in bytes (`00_scope.md` section 4). -/
def Config.nIn (c : Config) : Nat := 16 * (c.nInBlocks.val + 1)

/-- N_OUT = N_IN + 32, the capacity of OUT_BUF in bytes (`00_scope.md` section 4). -/
def Config.nOut (c : Config) : Nat := c.nIn + 32

/-- The default of the parameter: N_IN = 4096 (`00_scope.md` section 4). -/
def Config.standard : Config := ⟨255⟩

/-- FREE VALUE. The byte a RAM location holds after the reset number `epoch` until it is written:
"one draw per byte, fixed until the byte is next written" (`70_reset_and_hazards.md` R282, U2; log
entry 2). -/
opaque Config.resetByte (epoch address : Nat) : Byte

/-- FREE VALUE. Byte `k` of the fresh draw number `draw`: what a read of the write set of the command
in flight returns (`70_reset_and_hazards.md` R285, U3), and what a CBC_DEC that raises PaddingError
leaves in OUT_BUF (`44_cbc_pad.md` R209, U4; log entries 8 and 12). -/
opaque Config.drawByte (draw k : Nat) : Byte

end Sys2Proof
end

