-- ==== Sys2Proof/Machine/State.lean ====
section
/-! DEFINITION. The state of the core: everything `10_state.md` gives it, the events the environment
lines up, the reasons a step can stop, and the state after reset. -/

namespace Sys2Proof.Machine

/-- The error codes of STATUS.ERRCODE (`60_exceptions.md` R240). Codes 5 to 15 are never produced, so
they do not exist here. -/
inductive ErrCode where
  /-- 0 NONE: success. -/
  | success
  /-- 1 INVALID_PARAMETER. -/
  | invalidParameter
  /-- 2 PADDING_ERROR. -/
  | paddingError
  /-- 3 DECODING_ERROR. -/
  | decodingError
  /-- 4 ILLEGAL_COMMAND. -/
  | illegalCommand
  deriving DecidableEq, Repr

/-- The parameters of an LCG: modulus, multiplier, increment and seed, 64 bits each
(`10_state.md` R42, R43). -/
structure LcgParams where
  m  : DWord
  a  : DWord
  c  : DWord
  x0 : DWord
  deriving DecidableEq, Repr

/-- Four 32-bit registers that hold a 16-byte string: IV0 to IV3 (`10_state.md` R45), DIGEST0 to
DIGEST3 (R46). -/
structure Quad where
  w0 : Word
  w1 : Word
  w2 : Word
  w3 : Word
  deriving DecidableEq, Repr

/-- The width of a host access (`20_memory.md` R63). -/
inductive Width where
  | bits8
  | bits16
  | bits32
  deriving DecidableEq, Repr

/-- One host access at a byte offset of the core's offset space (`20_memory.md` R60). -/
inductive Access where
  | read (width : Width) (off : Offset)
  | write (width : Width) (off : Offset) (value : Word)
  deriving DecidableEq, Repr

/-- The events that change the core's state (`20_memory.md` R71). The acceptance of a command is part
of the CMD write that submits it (`30_encoding.md` R92). -/
inductive Event where
  /-- (a) A host access, by whichever host. -/
  | access (a : Access)
  /-- (c) The engine's turn: the completion of the command in flight (`30_encoding.md` R94). -/
  | completion
  /-- (d) The reset input is asserted and released (`70_reset_and_hazards.md` R280; log entry 13). -/
  | hardReset
  deriving DecidableEq, Repr

/-- What the bus answered the latest host access. -/
inductive BusResponse where
  /-- No access has been made. -/
  | idle
  /-- The data of a read (`20_memory.md` R60). -/
  | data (value : Word)
  /-- A write was accepted: performed, ignored or dropped. -/
  | accepted
  /-- The error response, with no data (`20_memory.md` R64). -/
  | error
  deriving DecidableEq, Repr

/-- The RAM bytes written since the last reset, by core offset, in rising order. -/
abbrev Memory := List Host.Cell

/-- Why the machine would stop with a fault. The spec stops the core nowhere: a command always
completes (`00_scope.md` R8), and an access that gets an error response leaves the core as it was
(`20_memory.md` R64). So there is no constructor (log entry 6). -/
inductive Fault where
  deriving DecidableEq, Repr

/-- Why an instruction would have no meaning. -/
inductive Refusal where
  /-- Raised by an arm of `exec` whose instruction is not modelled yet; safe. No arm raises it. -/
  | notModelled (mnemonic : String)
  deriving DecidableEq, Repr

/-- The state of the core (`10_state.md` section 8), and after it the model's own four fields. -/
structure State where
  /-- The implementation parameter N_IN, which IN_CAP reads (`10_state.md` R41; log entry 1). -/
  cfg : Config
  /-- The latched command word while BUSY = 1, none while BUSY = 0 (`10_state.md` R22, R52; log
  entry 17). -/
  inFlight : Option Word
  /-- STATUS.DONE (`10_state.md` R23). -/
  done : Bool
  /-- STATUS.ERR (`10_state.md` R24). -/
  err : Bool
  /-- STATUS.SCHED_VALID (`10_state.md` R25). -/
  schedValid : Bool
  /-- STATUS.PERIOD_FOUND (`10_state.md` R26). -/
  periodFound : Bool
  /-- STATUS.OVR (`10_state.md` R27). -/
  ovr : Bool
  /-- STATUS.ERRCODE (`10_state.md` R28). -/
  errCode : ErrCode
  /-- STATUS.LAST_OP (`10_state.md` R29). -/
  lastOp : BitVec 8
  /-- CTRL.IE (`10_state.md` R31). -/
  ie : Bool
  /-- RC5_W (`10_state.md` R34). -/
  rc5W : Word
  /-- RC5_R (`10_state.md` R34). -/
  rc5R : Word
  /-- RC5_B (`10_state.md` R34). -/
  rc5B : Word
  /-- KEY_LEN bits 7:0 (`10_state.md` R35). -/
  keyLen : BitVec 8
  /-- IN_LEN (`10_state.md` R36). -/
  inLen : Word
  /-- OUT_LEN (`10_state.md` R37). -/
  outLen : Word
  /-- SCHED_W (`10_state.md` R38). -/
  schedW : Word
  /-- SCHED_R (`10_state.md` R38). -/
  schedR : Word
  /-- LCG_N (`10_state.md` R39). -/
  lcgN : Word
  /-- PERIOD (`10_state.md` R40). -/
  period : Word
  /-- LCG_M, LCG_A, LCG_C, LCG_X0 (`10_state.md` R42). -/
  lcg : LcgParams
  /-- IVP_M, IVP_A, IVP_C, IVP_X0 (`10_state.md` R43). -/
  ivp : LcgParams
  /-- BLK_A (`10_state.md` R44). -/
  blkA : DWord
  /-- BLK_B (`10_state.md` R44). -/
  blkB : DWord
  /-- IV0 to IV3 (`10_state.md` R45). -/
  iv : Quad
  /-- DIGEST0 to DIGEST3 (`10_state.md` R46). -/
  digest : Quad
  /-- The hidden array L as the last key expansion left it (`10_state.md` R49; log entry 3). -/
  keyWords : List DWord
  /-- KEYBUF, S, IN_BUF and OUT_BUF (`10_state.md` R47, R48, R50, R51): the bytes written since the
  last reset. -/
  mem : Memory
  /-- The model's own: how many resets there have been, the index of the RAM draw in force (log
  entry 2). -/
  epoch : Nat
  /-- The model's own: how many draws of fresh free values there have been (log entry 8). -/
  draws : Nat
  /-- The model's own: the events to come, the next first (log entry 4). -/
  script : List Event
  /-- The model's own: the bus's answer to the latest host access (log entry 7). -/
  resp : BusResponse
  deriving DecidableEq, Repr

/-- All four parameters 0. -/
def LcgParams.zero : LcgParams := ⟨0, 0, 0, 0⟩

/-- All sixteen bytes 0. -/
def Quad.zero : Quad := ⟨0, 0, 0, 0⟩

/-- The state after a hardware reset (`70_reset_and_hazards.md` R280, R281, R282; the reset column of
`10_state.md` R20): every register at its stated value, no command in flight, no RAM byte written. -/
def State.reset : State where
  cfg := Config.standard
  inFlight := none
  done := false
  err := false
  schedValid := false
  periodFound := false
  ovr := false
  errCode := .success
  lastOp := 0
  ie := false
  rc5W := 0
  rc5R := 0
  rc5B := 0
  keyLen := 0
  inLen := 0
  outLen := 0
  schedW := 0
  schedR := 0
  lcgN := 0
  period := 0
  lcg := LcgParams.zero
  ivp := LcgParams.zero
  blkA := 0
  blkB := 0
  iv := Quad.zero
  digest := Quad.zero
  keyWords := []
  mem := []
  epoch := 0
  draws := 0
  script := []
  resp := .idle

end Sys2Proof.Machine
end

