-- ==== Sys2Proof/Machine/Ops.lean ====
section
/-! DEFINITION. The named operations over memory, bytes and words, and the shared events of the core:
acceptance, completion (with success or with an error), acknowledgement and reset. -/

namespace Sys2Proof.Machine

/-! ### Offsets of the address map -/

/-- The first byte of the KEYBUF window (`20_memory.md` R62). -/
def keyBase : Nat := 0x0800

/-- The first byte of the S window (`20_memory.md` R62). -/
def sBase : Nat := 0x1000

/-- The first byte of the IN_BUF window (`20_memory.md` R62). -/
def inBase : Nat := 0x4000

/-- The first byte of the OUT_BUF window (`20_memory.md` R62). -/
def outBase : Nat := 0x8000

/-- The identity value of register ID (`10_state.md` R21). -/
def idValue : Word := 0x50445331#32

/-! ### Bytes and words -/

/-- `LE(X)` of `00_scope.md` R5: the number whose least significant byte is the first. -/
def leNat : List Byte → Nat
  | [] => 0
  | b :: bs => b.toNat + 256 * leNat bs

/-- `BYTES_n(v)` of `00_scope.md` R5: the `n` low bytes of `v`, the least significant first. -/
def leBytes : Nat → Nat → List Byte
  | 0, _ => []
  | n + 1, v => BitVec.ofNat 8 v :: leBytes n (v / 256)

/-- Element `k` of a byte string, 0 beyond its end. -/
def byteAt (bs : List Byte) (k : Nat) : Byte := bs.getD k 0

/-- Bytewise exclusive or of two strings of one length (`44_cbc_pad.md`, introduction). -/
def xorBytes (x y : List Byte) : List Byte := List.zipWith (fun a b => a ^^^ b) x y

/-- Bits 31:0 of a 64-bit quantity, its LO register (`10_state.md` R20). -/
def loHalf (x : DWord) : Word := x.extractLsb' 0 32

/-- Bits 63:32 of a 64-bit quantity, its HI register (`10_state.md` R20). -/
def hiHalf (x : DWord) : Word := x.extractLsb' 32 32

/-- A 64-bit quantity with its LO register written. -/
def setLo (x : DWord) (v : Word) : DWord := hiHalf x ++ v

/-- A 64-bit quantity with its HI register written. -/
def setHi (x : DWord) (v : Word) : DWord := v ++ loHalf x

/-- The word made of four bytes in address order (`20_memory.md` R61). -/
def wordOfBytes (b0 b1 b2 b3 : Byte) : Word := b3 ++ b2 ++ b1 ++ b0

/-- The four registers that hold a 16-byte string: byte `k` in bits 8(k mod 4)+7 : 8(k mod 4) of
register k div 4 (`10_state.md` R45, R46); 0 beyond the string's end. -/
def Quad.ofBytes (bs : List Byte) : Quad :=
  ⟨wordOfBytes (byteAt bs 0) (byteAt bs 1) (byteAt bs 2) (byteAt bs 3),
   wordOfBytes (byteAt bs 4) (byteAt bs 5) (byteAt bs 6) (byteAt bs 7),
   wordOfBytes (byteAt bs 8) (byteAt bs 9) (byteAt bs 10) (byteAt bs 11),
   wordOfBytes (byteAt bs 12) (byteAt bs 13) (byteAt bs 14) (byteAt bs 15)⟩

/-- `rotl_w(x, s)` of `00_scope.md` R3. -/
def rotl {w : Nat} (x : BitVec w) (s : Nat) : BitVec w :=
  if s % w = 0 then x else (x <<< (s % w)) ||| (x >>> (w - s % w))

/-- `rotr_w(x, s)` of `00_scope.md` R3. -/
def rotr {w : Nat} (x : BitVec w) (s : Nat) : BitVec w :=
  if s % w = 0 then x else (x >>> (s % w)) ||| (x <<< (w - s % w))

/-! ### RC5 word sizes -/

/-- The RC5 word sizes w (`00_scope.md` section 4). -/
inductive WordSize where
  | w16
  | w32
  | w64
  deriving DecidableEq, Repr

/-- w, in bits. -/
abbrev WordSize.bits : WordSize → Nat
  | .w16 => 16
  | .w32 => 32
  | .w64 => 64

/-- u = w/8, the word size in bytes (`00_scope.md` section 4). -/
def WordSize.bytes (ws : WordSize) : Nat := ws.bits / 8

/-- bs = 2u, the block size in bytes (`00_scope.md` R4). -/
def WordSize.blockBytes (ws : WordSize) : Nat := 2 * ws.bytes

/-- The word size register RC5_W asks for, if any: all 32 bits are compared
(`42_rc5_key_schedule.md` R161 (1)). -/
def WordSize.ofReg (v : Word) : Option WordSize :=
  if v = 16#32 then some .w16
  else if v = 32#32 then some .w32
  else if v = 64#32 then some .w64
  else none

/-! ### Memory -/

/-- The byte written at an address since the last reset, if any. -/
def Memory.get? : Memory → Nat → Option Byte
  | [], _ => none
  | c :: m, a => if c.1 = a then some c.2 else Memory.get? m a

/-- A byte string as cells from an address on. -/
def Memory.cells : Nat → List Byte → Memory
  | _, [] => []
  | base, b :: bs => (base, b) :: Memory.cells (base + 1) bs

/-- `MemWrite` of `00_scope.md` section 5: the memory with a byte string written from an address on. -/
def Memory.write (m : Memory) (base : Nat) (bs : List Byte) : Memory :=
  m.filter (fun c => decide (c.1 < base)) ++ Memory.cells base bs ++
    m.filter (fun c => decide (base + bs.length ≤ c.1))

/-- The canonical form: addresses strictly rising. An unlisted address has no value of its own in the
list, so no entry can repeat what an unlisted address reads as. -/
abbrev Memory.wf (m : Memory) : Prop := m.Pairwise (fun x y => x.1 < y.1)

/-- The byte a RAM location holds: what was last written there, or the draw of the last reset
(`70_reset_and_hazards.md` R282). -/
def State.ramByte (s : State) (a : Nat) : Byte :=
  match Memory.get? s.mem a with
  | some b => b
  | none => Config.resetByte s.epoch a

/-- The `n` bytes of RAM from an address on. -/
def State.ramBytes (s : State) (base n : Nat) : List Byte :=
  (List.range n).map (fun k => s.ramByte (base + k))

/-- `MemRead(addr, n)` of `00_scope.md` section 5. -/
def State.ramRead (s : State) (base n : Nat) : Nat := leNat (s.ramBytes base n)

/-- The state with a byte string written to RAM from an address on. -/
def State.store (s : State) (base : Nat) (bs : List Byte) : State :=
  { s with mem := Memory.write s.mem base bs }

/-- The `n` bytes of the fresh draw number `draw`. -/
def drawBytes (draw n : Nat) : List Byte := (List.range n).map (fun k => Config.drawByte draw k)

/-! ### Acceptance, completion, acknowledgement, reset -/

/-- The acceptance of a command word (`30_encoding.md` R92). -/
def accept (v : Word) (s : State) : State :=
  { s with inFlight := some v, done := false, err := false, errCode := .success,
           lastOp := v.extractLsb' 0 8 }

/-- The STATUS part of a completion (`30_encoding.md` R94): ERR and ERRCODE from the result, DONE set,
BUSY cleared. -/
def finish (code : ErrCode) (s : State) : State :=
  { s with err := decide (code ≠ .success), errCode := code, done := true, inFlight := none }

/-- The completion of a command that succeeded (`60_exceptions.md` R240, code 0). -/
def succeed (s : State) : State := finish .success s

/-- `raise` of `00_scope.md` section 5: the completion of a command that ends in an error, which
changes nothing but STATUS (`60_exceptions.md` R241, R242). -/
def raiseError (code : ErrCode) (s : State) : State := finish code s

/-- The host's acknowledgement, a write of `v` to STATUS: the W1C bits DONE (1), ERR with ERRCODE (2)
and OVR (5) (`10_state.md` R23, R24, R27, R30; `60_exceptions.md` R245). -/
def acknowledge (v : Word) (s : State) : State :=
  { s with done := s.done && !v.getLsbD 1
           err := s.err && !v.getLsbD 2
           errCode := if v.getLsbD 2 then .success else s.errCode
           ovr := s.ovr && !v.getLsbD 5 }

/-- The effect of a reset (`70_reset_and_hazards.md` R280, R282, R283): every register at its reset
value, the command in flight abandoned, the RAMs at a new draw. The implementation parameter, the
events to come and the bus's answer are not the core's to reset. -/
def resetCore (s : State) : State :=
  { State.reset with cfg := s.cfg, epoch := s.epoch + 1, draws := s.draws, script := s.script,
                     resp := s.resp }

end Sys2Proof.Machine
end

