-- ==== Sys2Proof/Machine/Flags.lean ====
section
/-! DEFINITION. The STATUS and CTRL words and the interrupt output. -/

namespace Sys2Proof.Machine

/-- The code of an error in STATUS.ERRCODE (`60_exceptions.md` R240). -/
def ErrCode.code : ErrCode → BitVec 4
  | .success => 0
  | .invalidParameter => 1
  | .paddingError => 2
  | .decodingError => 3
  | .illegalCommand => 4

/-- STATUS.BUSY: a command is in flight (`10_state.md` R22). -/
def State.busy (s : State) : Bool := s.inFlight.isSome

/-- A STATUS word from its fields (`10_state.md` section 3): LAST_OP at 23:16, ERRCODE at 11:8, OVR at
5, PERIOD_FOUND at 4, SCHED_VALID at 3, ERR at 2, DONE at 1, BUSY at 0, the reserved bits 0 (R30). -/
def packStatus (lastOp : BitVec 8) (errCode : BitVec 4)
    (ovr periodFound schedValid err done busy : Bool) : Word :=
  0#8 ++ lastOp ++ 0#4 ++ errCode ++ 0#2 ++ BitVec.ofBool ovr ++ BitVec.ofBool periodFound ++
    BitVec.ofBool schedValid ++ BitVec.ofBool err ++ BitVec.ofBool done ++ BitVec.ofBool busy

/-- What STATUS holds (`10_state.md` R22 to R30). -/
def State.statusWord (s : State) : Word :=
  packStatus s.lastOp s.errCode.code s.ovr s.periodFound s.schedValid s.err s.done s.busy

/-- What CTRL reads: IE at 0; SRST and the reserved bits read 0 (`10_state.md` R30, R31, R32). -/
def State.ctrlWord (s : State) : Word := 0#31 ++ BitVec.ofBool s.ie

/-- The interrupt output IRQ = STATUS.DONE and CTRL.IE (`60_exceptions.md` R244). -/
def State.irq (s : State) : Bool := s.done && s.ie

end Sys2Proof.Machine
end

