-- ==== Sys2Proof/Machine/Registers.lean ====
section
/-! DEFINITION. The host-visible registers of `10_state.md` R20: their names, offsets, reads and
writes. -/

namespace Sys2Proof.Machine

/-- The registers of `10_state.md` R20, in the order of their offsets. -/
inductive Reg where
  | id | status | ctrl | cmd
  | rc5W | rc5R | rc5B | keyLen
  | inLen | outLen | schedW | schedR
  | lcgN | period | inCap
  | lcgMLo | lcgMHi | lcgALo | lcgAHi | lcgCLo | lcgCHi | lcgX0Lo | lcgX0Hi
  | ivpMLo | ivpMHi | ivpALo | ivpAHi | ivpCLo | ivpCHi | ivpX0Lo | ivpX0Hi
  | blkALo | blkAHi | blkBLo | blkBHi
  | iv0 | iv1 | iv2 | iv3
  | digest0 | digest1 | digest2 | digest3
  deriving DecidableEq, Repr

/-- The register map of `10_state.md` R20: offset and register. 0x03C is reserved and not listed. -/
def regMap : List (Nat × Reg) :=
  [ (0x000, .id), (0x004, .status), (0x008, .ctrl), (0x00C, .cmd),
    (0x010, .rc5W), (0x014, .rc5R), (0x018, .rc5B), (0x01C, .keyLen),
    (0x020, .inLen), (0x024, .outLen), (0x028, .schedW), (0x02C, .schedR),
    (0x030, .lcgN), (0x034, .period), (0x038, .inCap) ] ++
  [ (0x040, .lcgMLo), (0x044, .lcgMHi), (0x048, .lcgALo), (0x04C, .lcgAHi),
    (0x050, .lcgCLo), (0x054, .lcgCHi), (0x058, .lcgX0Lo), (0x05C, .lcgX0Hi) ] ++
  [ (0x060, .ivpMLo), (0x064, .ivpMHi), (0x068, .ivpALo), (0x06C, .ivpAHi),
    (0x070, .ivpCLo), (0x074, .ivpCHi), (0x078, .ivpX0Lo), (0x07C, .ivpX0Hi) ] ++
  [ (0x080, .blkALo), (0x084, .blkAHi), (0x088, .blkBLo), (0x08C, .blkBHi),
    (0x090, .iv0), (0x094, .iv1), (0x098, .iv2), (0x09C, .iv3),
    (0x0A0, .digest0), (0x0A4, .digest1), (0x0A8, .digest2), (0x0AC, .digest3) ]

/-- The register at an offset, if there is one (`10_state.md` R20). -/
def Reg.ofOffset (a : Nat) : Option Reg := (regMap.find? (fun e => e.1 == a)).map (fun e => e.2)

/-- What a register holds, as a host read returns it while no command is in flight
(`10_state.md` R20 to R46). -/
def readReg (s : State) : Reg → Word
  | .id => idValue
  | .status => s.statusWord
  | .ctrl => s.ctrlWord
  | .cmd => 0
  | .rc5W => s.rc5W
  | .rc5R => s.rc5R
  | .rc5B => s.rc5B
  | .keyLen => 0#24 ++ s.keyLen
  | .inLen => s.inLen
  | .outLen => s.outLen
  | .schedW => s.schedW
  | .schedR => s.schedR
  | .lcgN => s.lcgN
  | .period => s.period
  | .inCap => BitVec.ofNat 32 s.cfg.nIn
  | .lcgMLo => loHalf s.lcg.m
  | .lcgMHi => hiHalf s.lcg.m
  | .lcgALo => loHalf s.lcg.a
  | .lcgAHi => hiHalf s.lcg.a
  | .lcgCLo => loHalf s.lcg.c
  | .lcgCHi => hiHalf s.lcg.c
  | .lcgX0Lo => loHalf s.lcg.x0
  | .lcgX0Hi => hiHalf s.lcg.x0
  | .ivpMLo => loHalf s.ivp.m
  | .ivpMHi => hiHalf s.ivp.m
  | .ivpALo => loHalf s.ivp.a
  | .ivpAHi => hiHalf s.ivp.a
  | .ivpCLo => loHalf s.ivp.c
  | .ivpCHi => hiHalf s.ivp.c
  | .ivpX0Lo => loHalf s.ivp.x0
  | .ivpX0Hi => hiHalf s.ivp.x0
  | .blkALo => loHalf s.blkA
  | .blkAHi => hiHalf s.blkA
  | .blkBLo => loHalf s.blkB
  | .blkBHi => hiHalf s.blkB
  | .iv0 => s.iv.w0
  | .iv1 => s.iv.w1
  | .iv2 => s.iv.w2
  | .iv3 => s.iv.w3
  | .digest0 => s.digest.w0
  | .digest1 => s.digest.w1
  | .digest2 => s.digest.w2
  | .digest3 => s.digest.w3

/-- A write of CTRL: bit 1 performs a soft reset, whatever bit 0 is; otherwise bit 0 is IE
(`10_state.md` R31, R32; `70_reset_and_hazards.md` R283). -/
def writeCtrl (v : Word) (s : State) : State :=
  if v.getLsbD 1 then resetCore s else { s with ie := v.getLsbD 0 }

/-- A host write of a register while no command is in flight (`20_memory.md` R65, R70): CMD submits a
command, STATUS clears W1C bits, CTRL as `writeCtrl`; a RO register ignores it. -/
def writeReg (s : State) (r : Reg) (v : Word) : State :=
  match r with
  | .id => s
  | .status => acknowledge v s
  | .ctrl => writeCtrl v s
  | .cmd => accept v s
  | .rc5W => { s with rc5W := v }
  | .rc5R => { s with rc5R := v }
  | .rc5B => { s with rc5B := v }
  | .keyLen => { s with keyLen := v.extractLsb' 0 8 }
  | .inLen => { s with inLen := v }
  | .outLen => s
  | .schedW => s
  | .schedR => s
  | .lcgN => { s with lcgN := v }
  | .period => s
  | .inCap => s
  | .lcgMLo => { s with lcg := { s.lcg with m := setLo s.lcg.m v } }
  | .lcgMHi => { s with lcg := { s.lcg with m := setHi s.lcg.m v } }
  | .lcgALo => { s with lcg := { s.lcg with a := setLo s.lcg.a v } }
  | .lcgAHi => { s with lcg := { s.lcg with a := setHi s.lcg.a v } }
  | .lcgCLo => { s with lcg := { s.lcg with c := setLo s.lcg.c v } }
  | .lcgCHi => { s with lcg := { s.lcg with c := setHi s.lcg.c v } }
  | .lcgX0Lo => { s with lcg := { s.lcg with x0 := setLo s.lcg.x0 v } }
  | .lcgX0Hi => { s with lcg := { s.lcg with x0 := setHi s.lcg.x0 v } }
  | .ivpMLo => { s with ivp := { s.ivp with m := setLo s.ivp.m v } }
  | .ivpMHi => { s with ivp := { s.ivp with m := setHi s.ivp.m v } }
  | .ivpALo => { s with ivp := { s.ivp with a := setLo s.ivp.a v } }
  | .ivpAHi => { s with ivp := { s.ivp with a := setHi s.ivp.a v } }
  | .ivpCLo => { s with ivp := { s.ivp with c := setLo s.ivp.c v } }
  | .ivpCHi => { s with ivp := { s.ivp with c := setHi s.ivp.c v } }
  | .ivpX0Lo => { s with ivp := { s.ivp with x0 := setLo s.ivp.x0 v } }
  | .ivpX0Hi => { s with ivp := { s.ivp with x0 := setHi s.ivp.x0 v } }
  | .blkALo => { s with blkA := setLo s.blkA v }
  | .blkAHi => { s with blkA := setHi s.blkA v }
  | .blkBLo => { s with blkB := setLo s.blkB v }
  | .blkBHi => { s with blkB := setHi s.blkB v }
  | .iv0 => s
  | .iv1 => s
  | .iv2 => s
  | .iv3 => s
  | .digest0 => s
  | .digest1 => s
  | .digest2 => s
  | .digest3 => s

end Sys2Proof.Machine
end

