-- ==== Sys2Proof/Machine/Operands.lean ====
section
/-! DEFINITION. What a command reads (`30_encoding.md` R97) and where it may write (R96). -/

namespace Sys2Proof.Machine

/-! ### Operand sources -/

/-- IN[0..IN_LEN), the input of MD5, CBC_ENC and CBC_DEC (`10_state.md` R36, R50). -/
def State.inBytes (s : State) : List Byte := s.ramBytes inBase s.inLen.toNat

/-- IN_LEN > N_IN, for which a command that reads IN_BUF raises InvalidParameter
(`10_state.md` R36). -/
def State.inTooLong (s : State) : Bool := decide (s.cfg.nIn < s.inLen.toNat)

/-- Where the sequence of LCG_PERIOD starts (`40_lcg.md` R124). -/
def seqBase : SeqSource → Nat
  | .inBuf => inBase
  | .outBuf => outBase

/-- How many bytes the sequence of LCG_PERIOD has: IN_LEN or OUT_LEN (`40_lcg.md` R124). -/
def State.seqLen (s : State) : SeqSource → Nat
  | .inBuf => s.inLen.toNat
  | .outBuf => s.outLen.toNat

/-- The sequence of LCG_PERIOD, len/8 values of 64 bits (`40_lcg.md` R124). -/
def State.seqValues (s : State) (src : SeqSource) : List DWord :=
  (List.range (s.seqLen src / 8)).map (fun i => BitVec.ofNat 64 (s.ramRead (seqBase src + 8 * i) 8))

/-- The RC5 parameters that passed the check: word size, rounds r, key bytes b. -/
structure Rc5Params where
  ws : WordSize
  r  : Nat
  b  : Nat
  deriving DecidableEq, Repr

/-- `Rc5Check()` of `42_rc5_key_schedule.md` R161, its four conditions in its order; none where it
raises InvalidParameter. -/
def State.rc5Check (s : State) : Option Rc5Params :=
  match WordSize.ofReg s.rc5W with
  | none => none
  | some ws =>
    if 255 < s.rc5R.toNat then none
    else if 255 < s.rc5B.toNat then none
    else if s.rc5B.toNat < s.keyLen.toNat then none
    else some ⟨ws, s.rc5R.toNat, s.rc5B.toNat⟩

/-- The key byte string K[0..b): KEYBUF bytes below KEY_LEN, 0 from there on
(`42_rc5_key_schedule.md` R162). -/
def State.keyBytes (s : State) (b : Nat) : List Byte :=
  (List.range b).map (fun k => if k < s.keyLen.toNat then s.ramByte (keyBase + k) else 0)

/-! ### Write sets -/

/-- The commands that run the key expansion (`42_rc5_key_schedule.md`, introduction). -/
def expandsKey : Instr → Bool
  | .lcgGen => false
  | .lcgPeriod _ => false
  | .md5 _ => false
  | .keysched => true
  | .encBlock => true
  | .decBlock => true
  | .cbcEnc => true
  | .cbcDec => true

/-- bs = 2·(RC5_W/8) as R96 computes it, for any value of RC5_W. -/
def State.regBlockBytes (s : State) : Nat := 2 * (s.rc5W.toNat / 8)

/-- How many OUT_BUF bytes, from byte 0, are in the write set (`30_encoding.md` R96). Where bs is 0,
IN_LEN mod bs is taken as IN_LEN (DESIGN CHOICE, log entry 11). -/
def outWriteLen (s : State) : Instr → Nat
  | .lcgGen => 8 * s.lcgN.toNat
  | .lcgPeriod _ => 0
  | .md5 _ => 0
  | .keysched => 0
  | .encBlock => 0
  | .decBlock => 0
  | .cbcEnc => s.inLen.toNat - s.inLen.toNat % s.regBlockBytes + 2 * s.regBlockBytes
  | .cbcDec => s.inLen.toNat - s.regBlockBytes

/-- How many S bytes, from entry 0, are in the write set: t = 2·(RC5_R+1) entries of 8 bytes
(`30_encoding.md` R96). -/
def sWriteLen (s : State) (i : Instr) : Nat :=
  if expandsKey i then 8 * (2 * (s.rc5R.toNat + 1)) else 0

/-- How many KEYBUF bytes, from byte 0, are in the write set (`30_encoding.md` R96). -/
def keyWriteLen : Instr → Nat
  | .lcgGen => 0
  | .lcgPeriod _ => 0
  | .md5 toKey => if toKey then 16 else 0
  | .keysched => 0
  | .encBlock => 0
  | .decBlock => 0
  | .cbcEnc => 0
  | .cbcDec => 0

/-- The RAM bytes in the write set of a command, cut at the ends of the windows (`30_encoding.md` R96;
log entry 11). -/
def writesByte (s : State) (i : Instr) (a : Nat) : Bool :=
  (decide (keyBase ≤ a) && decide (a < keyBase + min (keyWriteLen i) 255)) ||
  (decide (sBase ≤ a) && decide (a < sBase + min (sWriteLen s i) 4096)) ||
  (decide (outBase ≤ a) && decide (a < outBase + min (outWriteLen s i) s.cfg.nOut))

/-- The registers in the write set of a command, besides STATUS (`30_encoding.md` R96). -/
def writesReg (i : Instr) (r : Reg) : Bool :=
  match i with
  | .lcgGen => r ∈ [Reg.outLen]
  | .lcgPeriod _ => r ∈ [Reg.period]
  | .md5 toKey =>
    r ∈ [Reg.digest0, Reg.digest1, Reg.digest2, Reg.digest3] || (toKey && r ∈ [Reg.keyLen])
  | .keysched => r ∈ [Reg.schedW, Reg.schedR]
  | .encBlock =>
    r ∈ [Reg.schedW, Reg.schedR, Reg.blkALo, Reg.blkAHi, Reg.blkBLo, Reg.blkBHi]
  | .decBlock =>
    r ∈ [Reg.schedW, Reg.schedR, Reg.blkALo, Reg.blkAHi, Reg.blkBLo, Reg.blkBHi]
  | .cbcEnc => r ∈ [Reg.schedW, Reg.schedR, Reg.iv0, Reg.iv1, Reg.iv2, Reg.iv3, Reg.outLen]
  | .cbcDec => r ∈ [Reg.schedW, Reg.schedR, Reg.iv0, Reg.iv1, Reg.iv2, Reg.iv3, Reg.outLen]

/-- STATUS.SCHED_VALID is in the write set (`30_encoding.md` R96). -/
def writesSchedValid (i : Instr) : Bool := expandsKey i

/-- STATUS.PERIOD_FOUND is in the write set (`30_encoding.md` R96). -/
def writesPeriodFound : Instr → Bool
  | .lcgGen => false
  | .lcgPeriod _ => true
  | .md5 _ => false
  | .keysched => false
  | .encBlock => false
  | .decBlock => false
  | .cbcEnc => false
  | .cbcDec => false

end Sys2Proof.Machine
end

