-- ==== Sys2Proof/Machine/Bus.lean ====
section
/-! DEFINITION. Host accesses: the address map, what is accepted, and what reads and writes do
(`20_memory.md`, `70_reset_and_hazards.md` section 2). -/

namespace Sys2Proof.Machine

/-- What stands at an offset (`20_memory.md` R62). -/
inductive Region where
  | register (r : Reg)
  | keybuf
  | sTable
  | inBuf
  | outBuf
  | reserved
  deriving DecidableEq, Repr

/-- The address map of `20_memory.md` R62 for an offset that is a multiple of 4. -/
def regionOf (cfg : Config) (a : Nat) : Region :=
  if a < 0x0B0 then
    match Reg.ofOffset a with
    | some r => .register r
    | none => .reserved
  else if keyBase ≤ a ∧ a < keyBase + 256 then .keybuf
  else if sBase ≤ a ∧ a < sBase + 4096 then .sTable
  else if inBase ≤ a ∧ a < inBase + cfg.nIn then .inBuf
  else if outBase ≤ a ∧ a < outBase + cfg.nOut then .outBuf
  else .reserved

/-- An access is accepted: 32 bits wide, aligned, and not in a reserved region
(`20_memory.md` R63, R64). -/
def accepts (cfg : Config) (width : Width) (off : Offset) : Bool :=
  decide (width = .bits32) && decide (off.toNat % 4 = 0) &&
    decide (regionOf cfg off.toNat ≠ .reserved)

/-- A byte of a RAM window: byte 255 of the KEYBUF window does not exist and reads 0
(`20_memory.md` R68). -/
def windowByte (s : State) (a : Nat) : Byte := if a = keyBase + 255 then 0 else s.ramByte a

/-- A word of a RAM window (`20_memory.md` R61, R66, R67, R68). -/
def windowWord (s : State) (a : Nat) : Word :=
  wordOfBytes (windowByte s a) (windowByte s (a + 1)) (windowByte s (a + 2)) (windowByte s (a + 3))

/-- The data of an accepted read while no command is in flight. -/
def readWord (s : State) (a : Nat) : Word :=
  match regionOf s.cfg a with
  | .register r => readReg s r
  | .keybuf => windowWord s a
  | .sTable => windowWord s a
  | .inBuf => windowWord s a
  | .outBuf => windowWord s a
  | .reserved => 0

/-! ### Reads while a command is in flight -/

/-- The word made of the fresh draw in force. -/
def drawWord (s : State) : Word :=
  wordOfBytes (Config.drawByte s.draws 0) (Config.drawByte s.draws 1) (Config.drawByte s.draws 2)
    (Config.drawByte s.draws 3)

/-- STATUS while a command is in flight: exact but for SCHED_VALID and PERIOD_FOUND of a command that
writes them, which are drawn (`70_reset_and_hazards.md` R285; log entry 21). -/
def statusBusy (s : State) (i : Instr) : Word :=
  packStatus s.lastOp s.errCode.code s.ovr
    (if writesPeriodFound i then (Config.drawByte s.draws 0).getLsbD 0 else s.periodFound)
    (if writesSchedValid i then (Config.drawByte s.draws 1).getLsbD 0 else s.schedValid)
    s.err s.done s.busy

/-- A register while a command is in flight: drawn if the command writes it, KEY_LEN only in the bits
it has (`70_reset_and_hazards.md` R285; log entry 9). -/
def readRegBusy (s : State) (i : Instr) (r : Reg) : Word :=
  if r = .status then statusBusy s i
  else if writesReg i r then
    if r = .keyLen then 0#24 ++ Config.drawByte s.draws 0 else drawWord s
  else readReg s r

/-- Byte `k` of the word at `a` while a command is in flight: drawn if the command writes it
(`70_reset_and_hazards.md` R285). -/
def windowByteBusy (s : State) (i : Instr) (a k : Nat) : Byte :=
  if writesByte s i (a + k) then Config.drawByte s.draws k else windowByte s (a + k)

/-- A word of a RAM window while a command is in flight. -/
def windowWordBusy (s : State) (i : Instr) (a : Nat) : Word :=
  wordOfBytes (windowByteBusy s i a 0) (windowByteBusy s i a 1) (windowByteBusy s i a 2)
    (windowByteBusy s i a 3)

/-- The data of an accepted read while the command `i` is in flight
(`70_reset_and_hazards.md` R285). -/
def readWordBusy (s : State) (i : Instr) (a : Nat) : Word :=
  match regionOf s.cfg a with
  | .register r => readRegBusy s i r
  | .keybuf => windowWordBusy s i a
  | .sTable => windowWordBusy s i a
  | .inBuf => windowWordBusy s i a
  | .outBuf => windowWordBusy s i a
  | .reserved => 0

/-- The data of an accepted read, of which the write set of the command in flight is drawn. An illegal
word in flight has no write set (`30_encoding.md` R96). -/
def readData (s : State) (a : Nat) : Word :=
  match s.inFlight with
  | none => readWord s a
  | some v =>
    match decode v with
    | .ok i => readWordBusy s i a
    | .error _ => readWord s a

/-! ### Accesses -/

/-- An accepted read: its data go to the bus, and nothing of the core changes (`20_memory.md` R69). A
read while a command is in flight uses up one draw (R285; log entry 8). -/
def hostRead (off : Offset) (s : State) : State :=
  { s with resp := .data (readData s off.toNat)
           draws := if s.busy then s.draws + 1 else s.draws }

/-- The bytes of a word in address order (`20_memory.md` R61). -/
def wordBytes (v : Word) : List Byte := leBytes 4 v.toNat

/-- An accepted write to an offset other than CTRL while no command is in flight (`20_memory.md` R65,
R66, R67, R68, R70): byte 255 of the KEYBUF window and the RO windows ignore it. -/
def writeWord (a : Nat) (v : Word) (s : State) : State :=
  match regionOf s.cfg a with
  | .register r => writeReg s r v
  | .keybuf => s.store a ((wordBytes v).take (keyBase + 255 - a))
  | .sTable => s
  | .inBuf => s.store a (wordBytes v)
  | .outBuf => s
  | .reserved => s

/-- The effect of an accepted write: CTRL always takes it; while a command is in flight any other is
dropped and sets OVR (`70_reset_and_hazards.md` R284). -/
def hostWrite (off : Offset) (v : Word) (s : State) : State :=
  if regionOf s.cfg off.toNat = .register .ctrl then writeCtrl v s
  else if s.busy then { s with ovr := true }
  else writeWord off.toNat v s

/-- A host access: performed if accepted, else answered with the error response and nothing changed
(`20_memory.md` R60, R63, R64; log entry 6). -/
def hostAccess (acc : Access) (s : State) : State :=
  match acc with
  | .read width off =>
    if accepts s.cfg width off then hostRead off s else { s with resp := .error }
  | .write width off v =>
    if accepts s.cfg width off then { hostWrite off v s with resp := .accepted }
    else { s with resp := .error }

end Sys2Proof.Machine
end

