-- ==== Sys2Proof/Machine/Lcg.lean ====
section
/-! DEFINITION. The LCG Engine: LCG_GEN and LCG_PERIOD (`40_lcg.md`). -/

namespace Sys2Proof.Machine

/-- `LcgValid(m, a, c, x0)` of `40_lcg.md` R120. -/
def LcgParams.valid (p : LcgParams) : Bool :=
  decide (0 < p.m.toNat) && decide (p.a.toNat < p.m.toNat) && decide (p.c.toNat < p.m.toNat) &&
    decide (p.x0.toNat < p.m.toNat)

/-- `(a·x + c) mod m`, exact (`40_lcg.md` R121, `00_scope.md` R6). -/
def LcgParams.succ (p : LcgParams) (x : DWord) : DWord :=
  BitVec.ofNat 64 ((p.a.toNat * x.toNat + p.c.toNat) % p.m.toNat)

/-- `n` values of the recurrence from a given one on. -/
def lcgFrom (p : LcgParams) : Nat → DWord → List DWord
  | 0, _ => []
  | n + 1, x => x :: lcgFrom p n (p.succ x)

/-- `LcgSeq(m, a, c, x0, n)` of `40_lcg.md` R121: length n, the seed first; empty for n = 0 (C4). -/
def lcgSeq (p : LcgParams) (n : Nat) : List DWord := lcgFrom p n p.x0

/-- The scan of `40_lcg.md` R123 from index `i` on, with the first index of each value seen so far. -/
def periodScan : Nat → List (DWord × Nat) → List DWord → Option Nat
  | _, _, [] => none
  | i, first, x :: xs =>
    match first.lookup x with
    | some j => some (i - j)
    | none => periodScan (i + 1) ((x, i) :: first) xs

/-- `Period(seq)` of `40_lcg.md` R123: the distance at the first repeat (C2). -/
def periodOf (seq : List DWord) : Option Nat := periodScan 0 [] seq

/-- A sequence of 64-bit values as bytes, 8 for each (`40_lcg.md` R122). -/
def dwordBytes (xs : List DWord) : List Byte := xs.flatMap (fun x => leBytes 8 x.toNat)

/-- LCG_GEN (`40_lcg.md` R122). -/
def execLcgGen (s : State) : Host.Outcome State Fault Refusal :=
  .next <|
    if s.lcg.valid = false then raiseError .invalidParameter s
    else if s.cfg.nOut < 8 * s.lcgN.toNat then raiseError .invalidParameter s
    else succeed { s.store outBase (dwordBytes (lcgSeq s.lcg s.lcgN.toNat)) with
                   outLen := BitVec.ofNat 32 (8 * s.lcgN.toNat) }

/-- LCG_PERIOD (`40_lcg.md` R124). -/
def execLcgPeriod (src : SeqSource) (s : State) : Host.Outcome State Fault Refusal :=
  .next <|
    if src = .inBuf ∧ s.inTooLong = true then raiseError .invalidParameter s
    else if s.seqLen src % 8 ≠ 0 then raiseError .invalidParameter s
    else
      match periodOf (s.seqValues src) with
      | some d => succeed { s with period := BitVec.ofNat 32 d, periodFound := true }
      | none => succeed { s with period := 0, periodFound := false }

end Sys2Proof.Machine
end

