-- ==== Sys2Proof/Machine/KeySchedule.lean ====
section
/-! DEFINITION. The RC5 Key Schedule: the key expansion every RC5 command runs first, and KEYSCHED
(`42_rc5_key_schedule.md`). -/

namespace Sys2Proof.Machine

/-- The magic constant P_w (`42_rc5_key_schedule.md` R160). -/
def magicP : (ws : WordSize) → BitVec ws.bits
  | .w16 => 0xB7E1#16
  | .w32 => 0xB7E15163#32
  | .w64 => 0xB7E151628AED2A6B#64

/-- The magic constant Q_w (`42_rc5_key_schedule.md` R160). -/
def magicQ : (ws : WordSize) → BitVec ws.bits
  | .w16 => 0x9E37#16
  | .w32 => 0x9E3779B9#32
  | .w64 => 0x9E3779B97F4A7C15#64

/-- t = 2(r + 1), the length of the sub-key table (`00_scope.md` section 4). -/
def tableLen (r : Nat) : Nat := 2 * (r + 1)

/-- c = max(1, ceil(b/u)), the key word count (`42_rc5_key_schedule.md` R163, C5). -/
def keyWordCount (ws : WordSize) (b : Nat) : Nat := max 1 ((b + (ws.bytes - 1)) / ws.bytes)

/-- The word array L before mixing: the key bytes, zero-padded to c·u, packed little-endian
(`42_rc5_key_schedule.md` R162, R163). -/
def packKey (ws : WordSize) (key : List Byte) : List (BitVec ws.bits) :=
  (List.range (keyWordCount ws key.length)).map (fun j =>
    BitVec.ofNat ws.bits
      (leNat ((List.range ws.bytes).map (fun k => byteAt key (j * ws.bytes + k)))))

/-- `n` words, each the one before plus `q`. -/
def ascending {w : Nat} (q : BitVec w) : Nat → BitVec w → List (BitVec w)
  | 0, _ => []
  | n + 1, x => x :: ascending q n (x + q)

/-- The initial sub-key table: S[0] = P_w, S[i] = S[i-1] + Q_w (`42_rc5_key_schedule.md` R164). -/
def initTable (ws : WordSize) (t : Nat) : List (BitVec ws.bits) := ascending (magicQ ws) t (magicP ws)

/-- The mixing pass between two steps (`42_rc5_key_schedule.md` R165). -/
structure MixState (w : Nat) where
  S : List (BitVec w)
  L : List (BitVec w)
  A : BitVec w
  B : BitVec w
  i : Nat
  j : Nat
  deriving DecidableEq, Repr

/-- One step of the mixing pass (`42_rc5_key_schedule.md` R165): the new A is used in the update
of B. -/
def mixStep {w : Nat} (m : MixState w) : MixState w :=
  let A := rotl (m.S.getD m.i 0 + m.A + m.B) 3
  let B := rotl (m.L.getD m.j 0 + A + m.B) (A + m.B).toNat
  { S := m.S.set m.i A, L := m.L.set m.j B, A := A, B := B,
    i := (m.i + 1) % m.S.length, j := (m.j + 1) % m.L.length }

/-- `n` steps of the mixing pass. -/
def mixLoop {w : Nat} : Nat → MixState w → MixState w
  | 0, m => m
  | n + 1, m => mixLoop n (mixStep m)

/-- The expansion of a key: the initial S and L mixed for 3·max(t, c) steps from A = B = i = j = 0
(`42_rc5_key_schedule.md` R164 to R166). -/
def expandKey (ws : WordSize) (r : Nat) (key : List Byte) : MixState ws.bits :=
  mixLoop (3 * max (tableLen r) (keyWordCount ws key.length))
    { S := initTable ws (tableLen r), L := packKey ws key, A := 0, B := 0, i := 0, j := 0 }

/-- The sub-key table S[0..t) of a key (`42_rc5_key_schedule.md` R166). -/
def subkeys (ws : WordSize) (r : Nat) (key : List Byte) : List (BitVec ws.bits) :=
  (expandKey ws r key).S

/-- The mixed state of the current key registers (`42_rc5_key_schedule.md` R166). -/
def State.expansion (s : State) (p : Rc5Params) : MixState p.ws.bits :=
  expandKey p.ws p.r (s.keyBytes p.b)

/-- The sub-key table the current key registers give (`42_rc5_key_schedule.md` R166). -/
def State.table (s : State) (p : Rc5Params) : List (BitVec p.ws.bits) := (s.expansion p).S

/-- A sub-key table as it stands in the S RAM: each entry `zext_64` (`10_state.md` R48). -/
def tableBytes {w : Nat} (t : List (BitVec w)) : List Byte := dwordBytes (t.map (fun x => x.setWidth 64))

/-- What every successful expansion writes (`42_rc5_key_schedule.md` R166): S entries 0 to t-1,
SCHED_W, SCHED_R, SCHED_VALID, and the hidden L. -/
def publishSchedule (p : Rc5Params) (s : State) : State :=
  { s.store sBase (tableBytes (s.table p)) with
    schedW := BitVec.ofNat 32 p.ws.bits
    schedR := BitVec.ofNat 32 p.r
    schedValid := true
    keyWords := (s.expansion p).L.map (fun x => x.setWidth 64) }

/-- KEYSCHED (`42_rc5_key_schedule.md` R167). -/
def execKeysched (s : State) : Host.Outcome State Fault Refusal :=
  .next <|
    match s.rc5Check with
    | none => raiseError .invalidParameter s
    | some p => succeed (publishSchedule p s)

end Sys2Proof.Machine
end

