-- ==== Sys2Proof/Machine/Block.lean ====
section
/-! DEFINITION. The RC5 Block Core: ENC_BLOCK and DEC_BLOCK (`43_rc5_block.md`). -/

namespace Sys2Proof.Machine

/-- Round `i` of the encryption (`43_rc5_block.md` R180). -/
def encRound {w : Nat} (S : List (BitVec w)) (i : Nat) (x : BitVec w × BitVec w) :
    BitVec w × BitVec w :=
  let A := rotl (x.1 ^^^ x.2) x.2.toNat + S.getD (2 * i) 0
  let B := rotl (x.2 ^^^ A) A.toNat + S.getD (2 * i + 1) 0
  (A, B)

/-- Rounds 1 to `r` of the encryption, in that order. -/
def encRounds {w : Nat} (S : List (BitVec w)) : Nat → BitVec w × BitVec w → BitVec w × BitVec w
  | 0, x => x
  | r + 1, x => encRound S (r + 1) (encRounds S r x)

/-- `EncryptBlock_w,r(A, B, S)` of `43_rc5_block.md` R180. -/
def encryptBlock {w : Nat} (S : List (BitVec w)) (r : Nat) (x : BitVec w × BitVec w) :
    BitVec w × BitVec w :=
  encRounds S r (x.1 + S.getD 0 0, x.2 + S.getD 1 0)

/-- Round `i` of the decryption: B is recovered first, then A from the recovered B
(`43_rc5_block.md` R181). -/
def decRound {w : Nat} (S : List (BitVec w)) (i : Nat) (x : BitVec w × BitVec w) :
    BitVec w × BitVec w :=
  let B := rotr (x.2 - S.getD (2 * i + 1) 0) x.1.toNat ^^^ x.1
  let A := rotr (x.1 - S.getD (2 * i) 0) B.toNat ^^^ B
  (A, B)

/-- Rounds `r` down to 1 of the decryption, in that order. -/
def decRounds {w : Nat} (S : List (BitVec w)) : Nat → BitVec w × BitVec w → BitVec w × BitVec w
  | 0, x => x
  | r + 1, x => decRounds S r (decRound S (r + 1) x)

/-- `DecryptBlock_w,r(A, B, S)` of `43_rc5_block.md` R181. -/
def decryptBlock {w : Nat} (S : List (BitVec w)) (r : Nat) (x : BitVec w × BitVec w) :
    BitVec w × BitVec w :=
  let y := decRounds S r x
  (y.1 - S.getD 0 0, y.2 - S.getD 1 0)

/-- The block in BLK_A and BLK_B: each mod 2^w (`10_state.md` R44). -/
def State.block (s : State) (w : Nat) : BitVec w × BitVec w :=
  (s.blkA.setWidth w, s.blkB.setWidth w)

/-- The state with a block written to BLK_A and BLK_B: each `zext_64` (`10_state.md` R44). -/
def writeBlock {w : Nat} (x : BitVec w × BitVec w) (s : State) : State :=
  { s with blkA := x.1.setWidth 64, blkB := x.2.setWidth 64 }

/-- ENC_BLOCK (`43_rc5_block.md` R183). -/
def execEncBlock (s : State) : Host.Outcome State Fault Refusal :=
  .next <|
    match s.rc5Check with
    | none => raiseError .invalidParameter s
    | some p =>
      succeed (writeBlock (encryptBlock (s.table p) p.r (s.block p.ws.bits)) (publishSchedule p s))

/-- DEC_BLOCK (`43_rc5_block.md` R184). -/
def execDecBlock (s : State) : Host.Outcome State Fault Refusal :=
  .next <|
    match s.rc5Check with
    | none => raiseError .invalidParameter s
    | some p =>
      succeed (writeBlock (decryptBlock (s.table p) p.r (s.block p.ws.bits)) (publishSchedule p s))

end Sys2Proof.Machine
end

