-- ==== Sys2Proof/Machine/Md5.lean ====
section
/-! DEFINITION. The MD5 Engine: MD5 (`41_md5.md`). -/

namespace Sys2Proof.Machine

/-- The additive constants K[0..64), four a row (`41_md5.md` R140(a)). -/
def md5K : List Word :=
  [ 0xd76aa478#32, 0xe8c7b756#32, 0x242070db#32, 0xc1bdceee#32,
    0xf57c0faf#32, 0x4787c62a#32, 0xa8304613#32, 0xfd469501#32,
    0x698098d8#32, 0x8b44f7af#32, 0xffff5bb1#32, 0x895cd7be#32,
    0x6b901122#32, 0xfd987193#32, 0xa679438e#32, 0x49b40821#32 ] ++
  [ 0xf61e2562#32, 0xc040b340#32, 0x265e5a51#32, 0xe9b6c7aa#32,
    0xd62f105d#32, 0x02441453#32, 0xd8a1e681#32, 0xe7d3fbc8#32,
    0x21e1cde6#32, 0xc33707d6#32, 0xf4d50d87#32, 0x455a14ed#32,
    0xa9e3e905#32, 0xfcefa3f8#32, 0x676f02d9#32, 0x8d2a4c8a#32 ] ++
  [ 0xfffa3942#32, 0x8771f681#32, 0x6d9d6122#32, 0xfde5380c#32,
    0xa4beea44#32, 0x4bdecfa9#32, 0xf6bb4b60#32, 0xbebfbc70#32,
    0x289b7ec6#32, 0xeaa127fa#32, 0xd4ef3085#32, 0x04881d05#32,
    0xd9d4d039#32, 0xe6db99e5#32, 0x1fa27cf8#32, 0xc4ac5665#32 ] ++
  [ 0xf4292244#32, 0x432aff97#32, 0xab9423a7#32, 0xfc93a039#32,
    0x655b59c3#32, 0x8f0ccc92#32, 0xffeff47d#32, 0x85845dd1#32,
    0x6fa87e4f#32, 0xfe2ce6e0#32, 0xa3014314#32, 0x4e0811a1#32,
    0xf7537e82#32, 0xbd3af235#32, 0x2ad7d2bb#32, 0xeb86d391#32 ]

/-- The rotation amounts s[i] (`41_md5.md` R140(b)). -/
def md5Shift (i : Nat) : Nat :=
  if i < 16 then [7, 12, 17, 22].getD (i % 4) 0
  else if i < 32 then [5, 9, 14, 20].getD (i % 4) 0
  else if i < 48 then [4, 11, 16, 23].getD (i % 4) 0
  else [6, 10, 15, 21].getD (i % 4) 0

/-- The round function of step `i`: F, G, H or I (`41_md5.md` R140(c), R142). -/
def md5Mix (i : Nat) (x y z : Word) : Word :=
  if i < 16 then (x &&& y) ||| (~~~x &&& z)
  else if i < 32 then (x &&& z) ||| (y &&& ~~~z)
  else if i < 48 then x ^^^ y ^^^ z
  else y ^^^ (x ||| ~~~z)

/-- The message-word index g(i) (`41_md5.md` R140(d)). -/
def md5Index (i : Nat) : Nat :=
  if i < 16 then i
  else if i < 32 then (5 * i + 1) % 16
  else if i < 48 then (3 * i + 5) % 16
  else 7 * i % 16

/-- The four accumulators, or the four working words of a block. -/
structure Md5Acc where
  a : Word
  b : Word
  c : Word
  d : Word
  deriving DecidableEq, Repr

/-- The initial buffers (`41_md5.md` R140(e)). -/
def md5Init : Md5Acc := ⟨0x67452301#32, 0xefcdab89#32, 0x98badcfe#32, 0x10325476#32⟩

/-- The padded message M' (`41_md5.md` R141): 0x80, then z = (55 - n) mod 64 zero bytes, then the bit
length as 8 bytes. -/
def md5Pad (msg : List Byte) : List Byte :=
  msg ++ [0x80#8] ++ List.replicate ((119 - msg.length % 64) % 64) 0#8 ++
    leBytes 8 (8 * msg.length % 2 ^ 64)

/-- One step of the four rounds, on the sixteen words of a block (`41_md5.md` R142). -/
def md5Step (x : List Word) (v : Md5Acc) (i : Nat) : Md5Acc :=
  ⟨v.d,
   v.b + rotl (v.a + md5Mix i v.b v.c v.d + md5K.getD i 0 + x.getD (md5Index i) 0) (md5Shift i),
   v.b, v.c⟩

/-- The sixteen words X[0..16) of a 64-byte block (`41_md5.md` R142). -/
def md5Words (block : List Byte) : List Word :=
  (List.range 16).map (fun k => BitVec.ofNat 32 (leNat ((block.drop (4 * k)).take 4)))

/-- The compression of one block into the accumulators (`41_md5.md` R142). -/
def md5Block (acc : Md5Acc) (block : List Byte) : Md5Acc :=
  let v := (List.range 64).foldl (md5Step (md5Words block)) acc
  ⟨acc.a + v.a, acc.b + v.b, acc.c + v.c, acc.d + v.d⟩

/-- Block `k` of a string cut into blocks of `n` bytes. -/
def blockAt (n : Nat) (bs : List Byte) (k : Nat) : List Byte := (bs.drop (k * n)).take n

/-- A string cut into its length / n blocks of `n` bytes, in order. -/
def chunks (n : Nat) (bs : List Byte) : List (List Byte) :=
  (List.range (bs.length / n)).map (blockAt n bs)

/-- `Md5(M)` (`41_md5.md` R141 to R143): the 16-byte digest. -/
def md5Digest (msg : List Byte) : List Byte :=
  let acc := (chunks 64 (md5Pad msg)).foldl md5Block md5Init
  leBytes 4 acc.a.toNat ++ leBytes 4 acc.b.toNat ++ leBytes 4 acc.c.toNat ++ leBytes 4 acc.d.toNat

/-- The state with a digest in DIGEST0 to DIGEST3, and for F = 1 in KEYBUF[0..16) with KEY_LEN = 16
(`41_md5.md` R144). -/
def writeDigest (toKey : Bool) (d : List Byte) (s : State) : State :=
  if toKey then { s.store keyBase d with digest := Quad.ofBytes d, keyLen := 16 }
  else { s with digest := Quad.ofBytes d }

/-- MD5 (`41_md5.md` R144). -/
def execMd5 (toKey : Bool) (s : State) : Host.Outcome State Fault Refusal :=
  .next <|
    if s.inTooLong = true then raiseError .invalidParameter s
    else succeed (writeDigest toKey (md5Digest s.inBytes) s)

end Sys2Proof.Machine
end

