-- ==== Sys2Proof/Machine/Cbc.lean ====
section
/-! DEFINITION. The CBC-PAD Cipher Mode: CBC_ENC and CBC_DEC (`44_cbc_pad.md`). -/

namespace Sys2Proof.Machine

/-- The two words of a block from its 2u bytes, little-endian (`00_scope.md` R5). -/
def blockOfBytes (ws : WordSize) (x : List Byte) : BitVec ws.bits × BitVec ws.bits :=
  (BitVec.ofNat ws.bits (leNat (x.take ws.bytes)),
   BitVec.ofNat ws.bits (leNat ((x.drop ws.bytes).take ws.bytes)))

/-- The 2u bytes of a block (`00_scope.md` R5). -/
def bytesOfBlock (ws : WordSize) (x : BitVec ws.bits × BitVec ws.bits) : List Byte :=
  leBytes ws.bytes x.1.toNat ++ leBytes ws.bytes x.2.toNat

/-- `EncB(X)` (`44_cbc_pad.md`, introduction). -/
def encBytes (ws : WordSize) (r : Nat) (S : List (BitVec ws.bits)) (x : List Byte) : List Byte :=
  bytesOfBlock ws (encryptBlock S r (blockOfBytes ws x))

/-- `DecB(X)` (`44_cbc_pad.md`, introduction). -/
def decBytes (ws : WordSize) (r : Nat) (S : List (BitVec ws.bits)) (x : List Byte) : List Byte :=
  bytesOfBlock ws (decryptBlock S r (blockOfBytes ws x))

/-- `Pad(M, bs)` (`44_cbc_pad.md` R201). -/
def pad (bs : Nat) (msg : List Byte) : List Byte :=
  msg ++ List.replicate (bs - msg.length % bs) (BitVec.ofNat 8 (bs - msg.length % bs))

/-- The last byte p of a padded plaintext, as a number (`44_cbc_pad.md` R208). -/
def lastByte (pt : List Byte) : Nat := (byteAt pt (pt.length - 1)).toNat

/-- The padding is valid: 1 ≤ p ≤ bs and the last p bytes all equal p (`44_cbc_pad.md` R208, C3). -/
def padValid (bs : Nat) (pt : List Byte) : Bool :=
  decide (1 ≤ lastByte pt) && decide (lastByte pt ≤ bs) &&
    (pt.drop (pt.length - lastByte pt)).all (fun b => decide (b.toNat = lastByte pt))

/-- The IV bytes of an LCG: the low byte of each of the first bs values (`44_cbc_pad.md` R202). -/
def ivBytes (p : LcgParams) (bs : Nat) : List Byte := (lcgSeq p bs).map (fun x => x.setWidth 8)

/-- The chained blocks of `CbcEncrypt`, after the encrypted IV (`44_cbc_pad.md` R203). -/
def cbcEncChain (enc : List Byte → List Byte) : List Byte → List (List Byte) → List Byte
  | _, [] => []
  | prev, p :: ps => enc (xorBytes p prev) ++ cbcEncChain enc (enc (xorBytes p prev)) ps

/-- `CbcEncrypt(P, IV)` of `44_cbc_pad.md` R203, the envelope of R200. -/
def cbcEncrypt (enc : List Byte → List Byte) (bs : Nat) (pt iv : List Byte) : List Byte :=
  enc iv ++ cbcEncChain enc iv (chunks bs pt)

/-- The plaintext blocks of `CbcDecrypt`, after the IV (`44_cbc_pad.md` R207): the block carried
forward is the ciphertext block. -/
def cbcDecChain (dec : List Byte → List Byte) : List Byte → List (List Byte) → List Byte
  | _, [] => []
  | prev, c :: cs => xorBytes (dec c) prev ++ cbcDecChain dec c cs

/-- The IV of `CbcDecrypt(E)`: the decryption of the first block (`44_cbc_pad.md` R207). -/
def cbcRecoverIv (dec : List Byte → List Byte) (bs : Nat) (env : List Byte) : List Byte :=
  dec (blockAt bs env 0)

/-- The padded plaintext of `CbcDecrypt(E)` (`44_cbc_pad.md` R207). -/
def cbcDecrypt (dec : List Byte → List Byte) (bs : Nat) (env : List Byte) : List Byte :=
  cbcDecChain dec (cbcRecoverIv dec bs env) (chunks bs env).tail

/-- The envelope CBC_ENC makes of the input buffer (`44_cbc_pad.md` R204). -/
def State.envelope (s : State) (p : Rc5Params) : List Byte :=
  cbcEncrypt (encBytes p.ws p.r (s.table p)) p.ws.blockBytes (pad p.ws.blockBytes s.inBytes)
    (ivBytes s.ivp p.ws.blockBytes)

/-- CBC_ENC (`44_cbc_pad.md` R204): its checks in its order, then its writes. -/
def execCbcEnc (s : State) : Host.Outcome State Fault Refusal :=
  .next <|
    match s.rc5Check with
    | none => raiseError .invalidParameter s
    | some p =>
      if s.inTooLong = true then raiseError .invalidParameter s
      else if s.ivp.valid = false then raiseError .invalidParameter s
      else
        succeed { (publishSchedule p s).store outBase (s.envelope p) with
                  outLen := BitVec.ofNat 32 (s.envelope p).length
                  iv := Quad.ofBytes (ivBytes s.ivp p.ws.blockBytes) }

/-- The IV CBC_DEC recovers from the input buffer (`44_cbc_pad.md` R207, R209). -/
def State.recoveredIv (s : State) (p : Rc5Params) : List Byte :=
  cbcRecoverIv (decBytes p.ws p.r (s.table p)) p.ws.blockBytes s.inBytes

/-- The padded plaintext CBC_DEC recovers from the input buffer (`44_cbc_pad.md` R207, R209). -/
def State.recoveredText (s : State) (p : Rc5Params) : List Byte :=
  cbcDecrypt (decBytes p.ws p.r (s.table p)) p.ws.blockBytes s.inBytes

/-- CBC_DEC (`44_cbc_pad.md` R209): its checks in its order, then its writes. On PaddingError the OUT
bytes it wrote are fresh free values (U4; log entry 12). -/
def execCbcDec (s : State) : Host.Outcome State Fault Refusal :=
  .next <|
    match s.rc5Check with
    | none => raiseError .invalidParameter s
    | some p =>
      if s.inTooLong = true then raiseError .invalidParameter s
      else if s.inLen.toNat % p.ws.blockBytes ≠ 0 ∨ s.inLen.toNat < 2 * p.ws.blockBytes then
        raiseError .decodingError s
      else if padValid p.ws.blockBytes (s.recoveredText p) = true then
        succeed { (publishSchedule p s).store outBase (s.recoveredText p) with
                  outLen := BitVec.ofNat 32
                    ((s.recoveredText p).length - lastByte (s.recoveredText p))
                  iv := Quad.ofBytes (s.recoveredIv p) }
      else
        raiseError .paddingError
          { (publishSchedule p s).store outBase (drawBytes s.draws (s.recoveredText p).length) with
            outLen := 0
            iv := Quad.ofBytes (s.recoveredIv p)
            draws := s.draws + 1 }

end Sys2Proof.Machine
end

