-- ==== Sys2Proof/Machine/Dispatch.lean ====
section
/-! DEFINITION. The meaning of each command: one arm for each constructor of Instr
(`30_encoding.md` R95). -/

namespace Sys2Proof.Machine

def exec (i : Instr) (s : State) : Host.Outcome State Fault Refusal :=
  match i with
  | .lcgGen => Sys2Proof.Machine.execLcgGen s
  | .lcgPeriod src => Sys2Proof.Machine.execLcgPeriod src s
  | .md5 toKey => Sys2Proof.Machine.execMd5 toKey s
  | .keysched => Sys2Proof.Machine.execKeysched s
  | .encBlock => Sys2Proof.Machine.execEncBlock s
  | .decBlock => Sys2Proof.Machine.execDecBlock s
  | .cbcEnc => Sys2Proof.Machine.execCbcEnc s
  | .cbcDec => Sys2Proof.Machine.execCbcDec s

end Sys2Proof.Machine
end

