-- ==== Sys2Proof/Machine/Engine.lean ====
section
/-! DEFINITION. The engine's turn and the events of a step (`30_encoding.md` R94, R95;
`20_memory.md` R71). -/

namespace Sys2Proof.Machine

/-- `Execute(v)` and the completion (`30_encoding.md` R94, R95): an illegal word ends in
ILLEGAL_COMMAND and changes nothing but STATUS (R93); a legal one runs its command. -/
def runCommand (v : Word) (s : State) : Host.Outcome State Fault Refusal :=
  match decode v with
  | .ok i => exec i s
  | .error _ => .next (raiseError .illegalCommand s)

/-- The engine's turn: the completion of the command in flight; with none it does nothing and holds its
state (`60_exceptions.md` R251). -/
def engineTurn (s : State) : Host.Outcome State Fault Refusal :=
  match s.inFlight with
  | none => .next s
  | some v => runCommand v s

/-- One event (`20_memory.md` R71). -/
def runEvent (e : Event) (s : State) : Host.Outcome State Fault Refusal :=
  match e with
  | .access a => .next (hostAccess a s)
  | .completion => engineTurn s
  | .hardReset => .next (resetCore s)

/-- The state in which `v` has just been accepted and the engine's turn comes next, the events lined
up before coming after it. -/
def submitted (v : Word) (s : State) : State :=
  { accept v s with script := .completion :: s.script }

end Sys2Proof.Machine
end

