-- ==== Sys2Proof/Machine/Step.lean ====
section
/-! DEFINITION. One step of the core, and the placing of a command for the very next step. -/

namespace Sys2Proof.Machine

/-- One step is one event: the first one lined up, or, when none is, the engine's turn, which is
always enabled while a command is in flight (`30_encoding.md` R94; log entry 4). -/
def step (s : State) : Host.Outcome State Fault Refusal :=
  match s.script with
  | [] => engineTurn s
  | e :: rest => runEvent e { s with script := rest }

/-- The command word of `nbits` bits `w` accepted, with its completion as the very next step (log
entry 5). -/
def State.withFetchWord (s : State) (nbits w : Nat) : State :=
  submitted (BitVec.ofNat 32 (w % 2 ^ nbits)) s

end Sys2Proof.Machine
end

