-- ==== Sys2Proof/Safety.lean ====
section
/-! DEFINITION. The terms claims use: the invariant of the core, the frame of a command, the agreement
of two states on a command's operands, and the reset values of the registers. -/

namespace Sys2Proof.Machine

/-! ### The invariant -/

/-- An address of one of the four RAMs (`20_memory.md` R62, R68): byte 255 of the KEYBUF window does
not exist. -/
def RamAddress (cfg : Config) (a : Nat) : Prop :=
  (keyBase ≤ a ∧ a < keyBase + 255) ∨ (sBase ≤ a ∧ a < sBase + 4096) ∨
    (inBase ≤ a ∧ a < inBase + cfg.nIn) ∨ (outBase ≤ a ∧ a < outBase + cfg.nOut)

/-- The S RAM holds, from entry 0 on, the complete key schedule of some key of at most 255 bytes, for
the word size in SCHED_W and the round count in SCHED_R (`10_state.md` R25, R38). -/
def State.holdsSchedule (s : State) : Prop :=
  ∃ (ws : WordSize) (r : Nat) (key : List Byte), r ≤ 255 ∧ key.length ≤ 255 ∧
    s.schedW = BitVec.ofNat 32 ws.bits ∧ s.schedR = BitVec.ofNat 32 r ∧
    s.ramBytes sBase (8 * tableLen r) = tableBytes (subkeys ws r key)

/-- What is true of the core in every state a run reaches. -/
structure State.Inv (s : State) : Prop where
  /-- The memory is in its canonical form. -/
  memForm : Memory.wf s.mem
  /-- Every byte written stands in one of the four RAMs. -/
  memRam : ∀ c ∈ s.mem, RamAddress s.cfg c.1
  /-- While a command is in flight DONE = 0, ERR = 0 and ERRCODE = 0
  (`70_reset_and_hazards.md` R285). -/
  busyStatus : s.busy = true → s.done = false ∧ s.err = false ∧ s.errCode = .success
  /-- LAST_OP is the OP of the command in flight (`10_state.md` R29). -/
  lastOp : ∀ v, s.inFlight = some v → s.lastOp = v.extractLsb' 0 8
  /-- ERR says whether ERRCODE is not 0 (`10_state.md` R24, R28). -/
  errCode : s.err = decide (s.errCode ≠ .success)
  /-- OUT_LEN never exceeds N_OUT (`40_lcg.md` R124). -/
  outLen : s.outLen.toNat ≤ s.cfg.nOut
  /-- PERIOD = 0 exactly when PERIOD_FOUND = 0 (`10_state.md` R40). -/
  period : s.periodFound = decide (s.period ≠ 0)
  /-- SCHED_VALID = 1 only when S holds a complete key schedule (`10_state.md` R25). -/
  schedule : s.schedValid = true → s.holdsSchedule
  /-- The hidden array has at most 128 words (`10_state.md` R49). -/
  keyWords : s.keyWords.length ≤ 128

/-! ### Frames -/

/-- `t` differs from `s` in nothing but the write set of `i` (`30_encoding.md` R96), the fields of
STATUS a completion writes (R94), and what only the model can see of the command: the hidden array of a
command that expands a key, and the count of draws. -/
structure FrameOf (i : Instr) (s t : State) : Prop where
  registers : ∀ r, r ≠ .status → writesReg i r = false → readReg t r = readReg s r
  ram : ∀ a, writesByte s i a = false → t.ramByte a = s.ramByte a
  schedValid : writesSchedValid i = false → t.schedValid = s.schedValid
  periodFound : writesPeriodFound i = false → t.periodFound = s.periodFound
  ovr : t.ovr = s.ovr
  lastOp : t.lastOp = s.lastOp
  keyWords : expandsKey i = false → t.keyWords = s.keyWords
  cfg : t.cfg = s.cfg
  epoch : t.epoch = s.epoch
  script : t.script = s.script
  resp : t.resp = s.resp

/-- `t` and `s` are the same core: only the model's own fields (the draws used, the events to come and
the bus's answer) may differ. -/
def SameCore (s t : State) : Prop :=
  t = { s with draws := t.draws, script := t.script, resp := t.resp }

/-! ### Operands -/

/-- Two states hold the same `n` bytes of RAM from `base` on. -/
def AgreeOn (s t : State) (base n : Nat) : Prop :=
  ∀ k, k < n → t.ramByte (base + k) = s.ramByte (base + k)

/-- Two states agree on what the key expansion reads: RC5_W, RC5_R, RC5_B, KEY_LEN and
KEYBUF[0..min(KEY_LEN, RC5_B)) (`30_encoding.md` R97, row KEYSCHED). -/
def SameKeyOperands (s t : State) : Prop :=
  t.rc5W = s.rc5W ∧ t.rc5R = s.rc5R ∧ t.rc5B = s.rc5B ∧ t.keyLen = s.keyLen ∧
    AgreeOn s t keyBase (min s.keyLen.toNat s.rc5B.toNat)

/-- Two states agree on IN_LEN and IN[0..IN_LEN). -/
def SameInput (s t : State) : Prop := t.inLen = s.inLen ∧ AgreeOn s t inBase s.inLen.toNat

/-- Two states agree on the locations the command `i` reads (`30_encoding.md` R97). -/
def SameOperands (i : Instr) (s t : State) : Prop :=
  match i with
  | .lcgGen => t.lcg = s.lcg ∧ t.lcgN = s.lcgN
  | .lcgPeriod .inBuf => SameInput s t
  | .lcgPeriod .outBuf => t.outLen = s.outLen ∧ AgreeOn s t outBase s.outLen.toNat
  | .md5 _ => SameInput s t
  | .keysched => SameKeyOperands s t
  | .encBlock => SameKeyOperands s t ∧ t.blkA = s.blkA ∧ t.blkB = s.blkB
  | .decBlock => SameKeyOperands s t ∧ t.blkA = s.blkA ∧ t.blkB = s.blkB
  | .cbcEnc => SameKeyOperands s t ∧ t.ivp = s.ivp ∧ SameInput s t
  | .cbcDec => SameKeyOperands s t ∧ SameInput s t

/-- Two states hold the same values in the write set of the command `i` (`30_encoding.md` R96), taken
in the state `s0` the command was run from. -/
structure SameResults (i : Instr) (s0 s t : State) : Prop where
  registers : ∀ r, writesReg i r = true → readReg t r = readReg s r
  ram : ∀ a, writesByte s0 i a = true → t.ramByte a = s.ramByte a
  schedValid : writesSchedValid i = true → t.schedValid = s.schedValid
  periodFound : writesPeriodFound i = true → t.periodFound = s.periodFound

/-! ### Reset values and host-writable registers -/

/-- The reset column of `10_state.md` R20: ID and IN_CAP are fixed, every other register is 0. -/
def resetValue (cfg : Config) (r : Reg) : Word :=
  if r = .id then 0x50445331#32 else if r = .inCap then BitVec.ofNat 32 cfg.nIn else 0#32

/-- The registers that store all 32 bits a host writes (`10_state.md` R20, access RW, but for KEY_LEN,
which has 8 bits). -/
def storesAllBits (r : Reg) : Bool :=
  r ∈ [Reg.rc5W, .rc5R, .rc5B, .inLen, .lcgN, .lcgMLo, .lcgMHi, .lcgALo, .lcgAHi, .lcgCLo, .lcgCHi,
    .lcgX0Lo, .lcgX0Hi, .ivpMLo, .ivpMHi, .ivpALo, .ivpAHi, .ivpCLo, .ivpCHi, .ivpX0Lo, .ivpX0Hi,
    .blkALo, .blkAHi, .blkBLo, .blkBHi]

/-- The read-only registers (`10_state.md` R20, access RO). -/
def readOnly (r : Reg) : Bool :=
  r ∈ [Reg.id, .outLen, .schedW, .schedR, .period, .inCap, .iv0, .iv1, .iv2, .iv3, .digest0, .digest1,
    .digest2, .digest3]

/-! ### Outcomes of a command -/

/-- The STATUS and CTRL part of a completion with the result `k` (`30_encoding.md` R94, `60_exceptions.md`
R241): BUSY, DONE, ERR and ERRCODE written, OVR, LAST_OP and CTRL untouched; and the model's own fields
but for the draws untouched. -/
structure Completes (k : ErrCode) (s t : State) : Prop where
  idle : t.inFlight = none
  done : t.done = true
  err : t.err = decide (k ≠ .success)
  errCode : t.errCode = k
  ovr : t.ovr = s.ovr
  lastOp : t.lastOp = s.lastOp
  ie : t.ie = s.ie
  cfg : t.cfg = s.cfg
  epoch : t.epoch = s.epoch
  script : t.script = s.script
  resp : t.resp = s.resp

/-- `t` is `s` with nothing changed but the STATUS fields of a completion with the error `k`
(`60_exceptions.md` R241, R242). -/
def OnlyReports (k : ErrCode) (s t : State) : Prop :=
  t = { s with inFlight := none, done := true, err := true, errCode := k }

/-- No register but STATUS and those listed differs. -/
def RegistersKept (changed : List Reg) (s t : State) : Prop :=
  ∀ r, r ≠ .status → r ∉ changed → readReg t r = readReg s r

/-- No RAM byte outside the `n` bytes from `base` on differs. -/
def RamKeptOutside (base n : Nat) (s t : State) : Prop :=
  ∀ a, ¬ (base ≤ a ∧ a < base + n) → t.ramByte a = s.ramByte a

/-- The conditions of `42_rc5_key_schedule.md` R161, on the registers themselves. -/
def Rc5Bad (s : State) : Prop :=
  (s.rc5W.toNat ≠ 16 ∧ s.rc5W.toNat ≠ 32 ∧ s.rc5W.toNat ≠ 64) ∨ 255 < s.rc5R.toNat ∨
    255 < s.rc5B.toNat ∨ s.rc5B.toNat < s.keyLen.toNat

/-- The RC5 registers ask for word size `ws`, `r` rounds and `b` key bytes, and pass the check of
`42_rc5_key_schedule.md` R161. -/
def Rc5Good (s : State) (p : Rc5Params) : Prop :=
  s.rc5W.toNat = p.ws.bits ∧ s.rc5R.toNat = p.r ∧ s.rc5B.toNat = p.b ∧ p.r ≤ 255 ∧ p.b ≤ 255 ∧
    s.keyLen.toNat ≤ p.b

/-- LcgValid fails (`40_lcg.md` R120): m = 0, or a, c or x0 is not below m. -/
def LcgBad (p : LcgParams) : Prop :=
  p.m.toNat = 0 ∨ p.m.toNat ≤ p.a.toNat ∨ p.m.toNat ≤ p.c.toNat ∨ p.m.toNat ≤ p.x0.toNat

/-- X[i] of `40_lcg.md` R121 as a number: X[0] = x0, X[i] = (a·X[i-1] + c) mod m. -/
def lcgValue (p : LcgParams) : Nat → Nat
  | 0 => p.x0.toNat
  | i + 1 => (p.a.toNat * lcgValue p i + p.c.toNat) % p.m.toNat

/-- The registers of the key schedule an RC5 command writes (`30_encoding.md` R96, row KEYSCHED). -/
def schedRegs : List Reg := [.schedW, .schedR]

/-- BLK_A and BLK_B. -/
def blockRegs : List Reg := [.blkALo, .blkAHi, .blkBLo, .blkBHi]

/-- IV0 to IV3. -/
def ivRegs : List Reg := [.iv0, .iv1, .iv2, .iv3]

/-- DIGEST0 to DIGEST3. -/
def digestRegs : List Reg := [.digest0, .digest1, .digest2, .digest3]

/-- Byte `k` of four registers that hold a 16-byte string: bits 8(k mod 4)+7 : 8(k mod 4) of register
k div 4 (`10_state.md` R45, R46). -/
def Quad.byte (q : Quad) (k : Nat) : Byte :=
  BitVec.extractLsb' (8 * (k % 4)) 8
    (if k / 4 = 0 then q.w0 else if k / 4 = 1 then q.w1 else if k / 4 = 2 then q.w2 else q.w3)

/-- What every successful key expansion leaves (`42_rc5_key_schedule.md` R166): entry k of S, read as a
64-bit value, is the k-th word of the table of the key registers, for k below t; SCHED_W, SCHED_R and
SCHED_VALID say so. -/
def SchedulePublished (p : Rc5Params) (s t : State) : Prop :=
  (s.table p).length = tableLen p.r ∧
  (∀ k, k < tableLen p.r → t.ramRead (sBase + 8 * k) 8 = ((s.table p).getD k 0).toNat) ∧
  t.schedW.toNat = p.ws.bits ∧ t.schedR.toNat = p.r ∧ t.schedValid = true

/-! ### The address map -/

/-- The reserved offsets of `20_memory.md` R62 and U8. -/
def ReservedOffset (cfg : Config) (a : Nat) : Prop :=
  (0x3C ≤ a ∧ a < 0x40) ∨ (0xB0 ≤ a ∧ a < 0x800) ∨ (0x900 ≤ a ∧ a < 0x1000) ∨
    (0x2000 ≤ a ∧ a < 0x4000) ∨ (0x4000 + cfg.nIn ≤ a ∧ a < 0x8000) ∨ 0x8000 + cfg.nOut ≤ a

/-- An access the core accepts (`20_memory.md` R63, R64): 32 bits wide, at a multiple of 4, not at a
reserved offset. -/
def Acceptable (cfg : Config) (width : Width) (off : Offset) : Prop :=
  width = .bits32 ∧ off.toNat % 4 = 0 ∧ ¬ ReservedOffset cfg off.toNat

/-- The state `s` with the event `e` lined up next, and `rest` after it. -/
def State.facing (s : State) (e : Event) (rest : List Event) : State :=
  { s with script := e :: rest }

/-- A 32-bit read of an offset. -/
def rd (off : Offset) : Event := .access (.read .bits32 off)

/-- A 32-bit write of an offset. -/
def wr (off : Offset) (v : Word) : Event := .access (.write .bits32 off v)

/-- A 32-bit read of `off`, made next, is answered with the data `d`. -/
def State.Answers (s : State) (rest : List Event) (off : Offset) (d : Word) : Prop :=
  ∃ t, step (s.facing (rd off) rest) = .next t ∧ t.resp = .data d

end Sys2Proof.Machine
end

