-- ==== Sys2Proof/Certificates/Slice0/Obligations.lean ====
section
/-! DEFINITION. The statements for the provers, from the numbered rules of spec/. -/

open Sys2Proof Sys2Proof.Machine

/-! ### Encoding (`30_encoding.md`) -/

/-- The command words of R98 decode to the commands they stand for. -/
def Obligations.SpecCommandWordsDecode : Prop :=
  decode 0x00000001#32 = .ok .lcgGen ∧ decode 0x00000002#32 = .ok (.lcgPeriod .inBuf) ∧
  decode 0x00000102#32 = .ok (.lcgPeriod .outBuf) ∧ decode 0x00000003#32 = .ok (.md5 false) ∧
  decode 0x00000103#32 = .ok (.md5 true) ∧ decode 0x00000004#32 = .ok .keysched ∧
  decode 0x00000005#32 = .ok .encBlock ∧ decode 0x00000006#32 = .ok .decBlock ∧
  decode 0x00000007#32 = .ok .cbcEnc ∧ decode 0x00000008#32 = .ok .cbcDec

/-- Decoding and encoding agree in both directions: every command has exactly one word, and every
legal word is the word of its command. -/
def Obligations.DecodeAgreesWithEncode : Prop :=
  ∀ (v : Word) (i : Instr), decode v = .ok i ↔ v = encode i

/-- R91: the mask and match of each row, on any word; F is bit 8 where the row leaves it free. -/
def Obligations.OpcodeMapSelectsCommands : Prop :=
  ∀ v : Word,
    (decode v = .ok .lcgGen ↔ v &&& 0xFFFFFFFF#32 = 0x00000001#32) ∧
    (decode v = .ok (.lcgPeriod .inBuf) ↔
      v &&& 0xFFFFFEFF#32 = 0x00000002#32 ∧ v.getLsbD 8 = false) ∧
    (decode v = .ok (.lcgPeriod .outBuf) ↔
      v &&& 0xFFFFFEFF#32 = 0x00000002#32 ∧ v.getLsbD 8 = true) ∧
    (∀ toKey, decode v = .ok (.md5 toKey) ↔
      v &&& 0xFFFFFEFF#32 = 0x00000003#32 ∧ v.getLsbD 8 = toKey) ∧
    (decode v = .ok .keysched ↔ v &&& 0xFFFFFFFF#32 = 0x00000004#32) ∧
    (decode v = .ok .encBlock ↔ v &&& 0xFFFFFFFF#32 = 0x00000005#32) ∧
    (decode v = .ok .decBlock ↔ v &&& 0xFFFFFFFF#32 = 0x00000006#32) ∧
    (decode v = .ok .cbcEnc ↔ v &&& 0xFFFFFFFF#32 = 0x00000007#32) ∧
    (decode v = .ok .cbcDec ↔ v &&& 0xFFFFFFFF#32 = 0x00000008#32)

/-- R93: a word is legal exactly when it decodes; an illegal word is still accepted, and its completion
reports ILLEGAL_COMMAND and changes nothing else. -/
def Obligations.IllegalWordsReportIllegalCommand : Prop :=
  (∀ v : Word, (∃ i, decode v = .ok i) ↔
    (1 ≤ v.toNat % 256 ∧ v.toNat % 256 ≤ 8) ∧ v.toNat / 512 = 0 ∧
      (v.toNat / 256 % 2 = 0 ∨ v.toNat % 256 = 2 ∨ v.toNat % 256 = 3)) ∧
  (∀ (s : State) (v : Word) (rest : List Event), (∀ i, decode v ≠ .ok i) →
    (s.inFlight = none →
      ∃ t, step (s.facing (wr 0x00C#16 v) rest) = .next t ∧ t.inFlight = some v) ∧
    (s.inFlight = some v →
      ∃ t, step (s.facing .completion rest) = .next t ∧
        OnlyReports .illegalCommand { s with script := rest } t))

/-! ### Reset (`70_reset_and_hazards.md`) -/

/-- The registers of `State.reset` hold the values of the reset column (R20, R280), no command is in
flight and IRQ is deasserted.
That N_IN is 4096 here is the model's choice (log entry 1). -/
def Obligations.ResetHoldsTheTableValues : Prop :=
  (∀ r, readReg State.reset r = if r = .id then 0x50445331#32 else if r = .inCap then 4096#32 else 0#32) ∧
  State.reset.inFlight = none ∧ State.reset.irq = false ∧ State.reset.mem = []

/-- R280: a hardware reset gives every register its reset value, abandons the command in flight so that
none of its writes takes effect and it never completes, deasserts IRQ, and leaves no RAM byte written
before it.
That the reset is one event of the list is the model's choice (log entries 4 and 13). -/
def Obligations.HardResetRestoresTheCore : Prop :=
  ∀ (s : State) (rest : List Event),
    ∃ t, step (s.facing .hardReset rest) = .next t ∧ (∀ r, readReg t r = resetValue s.cfg r) ∧
      t.inFlight = none ∧ t.irq = false ∧ (∀ a, Memory.get? t.mem a = none) ∧
      step (t.facing .completion rest) = .next { t with script := rest }

/-- R283: a write to CTRL with bit 1 = 1 does, at that write, exactly what a hardware reset does,
whether a command is in flight or not and whatever bit 0 is; the bus accepts the write.
The bus's answer is the model's choice (log entry 22). -/
def Obligations.SoftResetIsTheHardReset : Prop :=
  ∀ (s t : State) (v : Word) (rest : List Event), v.getLsbD 1 = true →
    step (s.facing .hardReset rest) = .next t →
      step (s.facing (wr 0x008#16 v) rest) = .next { t with resp := .accepted } ∧ t.ie = false ∧
      t.inFlight = none

/-- R281: after a reset every register has its stated value, and a command issued straight away has
the stated outcome: the RC5 commands and LCG_GEN raise INVALID_PARAMETER, MD5 gives the digest of the
empty message, LCG_PERIOD gives "none". R281 marks these outcomes as derived from R34, R36, R37, R42,
R43 and the command rules. -/
def Obligations.CommandsAfterResetHaveStatedOutcomes : Prop :=
  ∀ s : State, ∀ z, z = resetCore s →
    (∀ r, readReg z r = resetValue s.cfg r) ∧
    (∀ i ∈ [Instr.keysched, .encBlock, .decBlock, .cbcEnc, .cbcDec, .lcgGen],
      ∃ t, exec i z = .next t ∧ OnlyReports .invalidParameter z t) ∧
    (∀ toKey, ∃ t, exec (.md5 toKey) z = .next t ∧ Completes .success z t ∧
      t.digest = ⟨0xd98c1dd4#32, 0x04b2008f#32, 0x980980e9#32, 0x7e42f8ec#32⟩) ∧
    (∀ src, ∃ t, exec (.lcgPeriod src) z = .next t ∧ Completes .success z t ∧ t.period = 0 ∧
      t.periodFound = false)

/-! ### Host accesses (`20_memory.md`, `10_state.md`) -/

/-- R63, R64: an access that is not 32 bits wide, not at a multiple of 4, or at a reserved offset gets
the error response and changes nothing, not even OVR; any other access is accepted.
That the error response is a next state, and the field `resp`, are the model's choice (log entries 6
and 7). -/
def Obligations.OnlyAcceptableAccessesAreAccepted : Prop :=
  ∀ (s : State) (width : Width) (off : Offset) (v : Word) (rest : List Event),
    (¬ Acceptable s.cfg width off →
      step (s.facing (.access (.read width off)) rest) =
        .next { s with script := rest, resp := .error } ∧
      step (s.facing (.access (.write width off v)) rest) =
        .next { s with script := rest, resp := .error }) ∧
    (Acceptable s.cfg width off →
      (∃ t d, step (s.facing (.access (.read width off)) rest) = .next t ∧
        t.resp = .data d) ∧
      (∃ t, step (s.facing (.access (.write width off v)) rest) = .next t ∧
        t.resp = .accepted))

/-- R69: a read changes nothing of the core, and while no command is in flight two reads of one
location in a row return the same answer.
The draws, the events to come and the bus's answer are the model's own fields (log entries 4, 7 and
8). -/
def Obligations.ReadsChangeNothing : Prop :=
  ∀ (s : State) (width : Width) (off : Offset) (rest : List Event),
    ∃ t, step (s.facing (.access (.read width off)) rest) = .next t ∧ SameCore s t ∧
      (s.inFlight = none →
        ∃ u, step (t.facing (.access (.read width off)) rest) = .next u ∧ u.resp = t.resp)

/-- R66, R67: the word at 4q of the IN_BUF and OUT_BUF windows holds the bytes 4q to 4q+3, the first in
bits 7:0; a host write to IN_BUF writes all four bytes and nothing else. Entry k of the S table is the
64-bit value at 0x1000 + 8k, its low word first. -/
def Obligations.BufferAndTableWindows : Prop :=
  (∀ (s : State) (off : Offset) (v : Word) (rest : List Event), s.inFlight = none →
    off.toNat % 4 = 0 →
    ((inBase ≤ off.toNat ∧ off.toNat < inBase + s.cfg.nIn ∨
        outBase ≤ off.toNat ∧ off.toNat < outBase + s.cfg.nOut) →
      ∃ t d, step (s.facing (rd off) rest) = .next t ∧ t.resp = .data d ∧
        d.toNat = s.ramRead off.toNat 4) ∧
    (inBase ≤ off.toNat ∧ off.toNat < inBase + s.cfg.nIn →
      ∃ t, step (s.facing (wr off v) rest) = .next t ∧
        t.ramRead off.toNat 4 = v.toNat ∧ RamKeptOutside off.toNat 4 s t ∧
        (∀ r, readReg t r = readReg s r) ∧ t.inFlight = none ∧ t.keyWords = s.keyWords)) ∧
  (∀ (s : State) (k : Nat) (rest : List Event), s.inFlight = none → k < 512 →
    ∃ t u lo hi,
      step (s.facing (rd (BitVec.ofNat 16 (0x1000 + 8 * k))) rest) = .next t ∧
      t.resp = .data lo ∧
      step (s.facing (rd (BitVec.ofNat 16 (0x1000 + 8 * k + 4))) rest) = .next u ∧
      u.resp = .data hi ∧
      lo.toNat + 2 ^ 32 * hi.toNat = s.ramRead (sBase + 8 * k) 8)

/-- R68: the word at 0x800 + 4q of the KEYBUF window holds the key bytes 4q to 4q+3; byte 255 does not
exist: it reads 0 and writes to it are ignored. -/
def Obligations.KeybufWindowHolds255Bytes : Prop :=
  ∀ (s : State) (q : Nat) (v : Word) (rest : List Event), s.inFlight = none → q < 64 →
    (∃ t d, step (s.facing (rd (BitVec.ofNat 16 (0x800 + 4 * q))) rest) = .next t ∧
      t.resp = .data d ∧
      d.toNat = if q < 63 then s.ramRead (keyBase + 4 * q) 4 else s.ramRead (keyBase + 252) 3) ∧
    (∃ t, step (s.facing (wr (BitVec.ofNat 16 (0x800 + 4 * q)) v) rest) = .next t ∧
      (if q < 63 then t.ramRead (keyBase + 4 * q) 4 = v.toNat ∧ RamKeptOutside (keyBase + 4 * q) 4 s t
       else t.ramRead (keyBase + 252) 3 = v.toNat % 2 ^ 24 ∧ RamKeptOutside (keyBase + 252) 3 s t) ∧
      (∀ r, readReg t r = readReg s r) ∧ t.inFlight = none)

/-- R34, R35, R36, R39, R42, R43, R44: a host write to a read-write register while no command is in
flight stores all 32 bits (KEY_LEN: bits 7:0), reads back as written, and changes no other register, no
RAM byte and no STATUS bit. -/
def Obligations.WritableRegistersStoreWhatIsWritten : Prop :=
  ∀ (s : State) (r : Reg) (off : Offset) (v : Word) (rest : List Event), s.inFlight = none →
    (off.toNat, r) ∈ regMap → storesAllBits r = true ∨ r = .keyLen →
      ∃ t, step (s.facing (wr off v) rest) = .next t ∧
        (readReg t r).toNat = (if r = .keyLen then v.toNat % 256 else v.toNat) ∧
        (∀ r', r' ≠ r → readReg t r' = readReg s r') ∧ t.mem = s.mem ∧ t.epoch = s.epoch ∧
        t.inFlight = none ∧ t.keyWords = s.keyWords

/-- R65: a write to a read-only register or to the S or OUT_BUF window is accepted and ignored, and
while a command is in flight sets OVR; a read of CMD returns 0.
The field `resp` is the model's own (log entry 7). -/
def Obligations.ReadOnlyLocationsIgnoreWrites : Prop :=
  ∀ (s : State) (off : Offset) (v : Word) (rest : List Event),
    ((∃ r, (off.toNat, r) ∈ regMap ∧ readOnly r = true) ∨
      (off.toNat % 4 = 0 ∧ (sBase ≤ off.toNat ∧ off.toNat < sBase + 4096 ∨
        outBase ≤ off.toNat ∧ off.toNat < outBase + s.cfg.nOut)) →
      step (s.facing (wr off v) rest) =
        .next { s with script := rest, resp := .accepted, ovr := s.ovr || s.busy }) ∧
    (∃ t, step (s.facing (rd 0x00C#16) rest) = .next t ∧
      t.resp = .data 0)

/-- The layout of STATUS and CTRL (`10_state.md` sections 3 and 4): each field at its bits, every
reserved bit 0; and the codes that ERRCODE holds (R28, `60_exceptions.md` R240). -/
def Obligations.StatusAndCtrlLayout : Prop :=
  (∀ (s : State) (k : Nat), k < 32 →
    (readReg s .status).getLsbD k =
      (if k = 0 then s.busy else if k = 1 then s.done else if k = 2 then s.err
       else if k = 3 then s.schedValid else if k = 4 then s.periodFound else if k = 5 then s.ovr
       else if 8 ≤ k ∧ k ≤ 11 then s.errCode.code.getLsbD (k - 8)
       else if 16 ≤ k ∧ k ≤ 23 then s.lastOp.getLsbD (k - 16) else false) ∧
    (readReg s .ctrl).getLsbD k = (if k = 0 then s.ie else false)) ∧
  ErrCode.success.code.toNat = 0 ∧ ErrCode.invalidParameter.code.toNat = 1 ∧
  ErrCode.paddingError.code.toNat = 2 ∧ ErrCode.decodingError.code.toNat = 3 ∧
  ErrCode.illegalCommand.code.toNat = 4

/-- R23, R24, R27, R30: a write to STATUS while no command is in flight clears DONE where bit 1 is 1,
ERR and ERRCODE where bit 2 is 1, OVR where bit 5 is 1, and changes no other bit of STATUS, no other
register and no RAM byte. -/
def Obligations.StatusWriteClearsOnlyW1CBits : Prop :=
  ∀ (s : State) (v : Word) (rest : List Event), s.inFlight = none →
    ∃ t, step (s.facing (wr 0x004#16 v) rest) = .next t ∧
      (∀ k, k < 32 → (readReg t .status).getLsbD k =
        if k = 1 then (readReg s .status).getLsbD 1 && !v.getLsbD 1
        else if k = 2 ∨ 8 ≤ k ∧ k ≤ 11 then (readReg s .status).getLsbD k && !v.getLsbD 2
        else if k = 5 then (readReg s .status).getLsbD 5 && !v.getLsbD 5
        else (readReg s .status).getLsbD k) ∧
      (∀ r, r ≠ .status → readReg t r = readReg s r) ∧ t.mem = s.mem ∧ t.epoch = s.epoch ∧
      t.inFlight = none ∧ t.keyWords = s.keyWords

/-- R31: IE is read-write, even while a command is in flight; a write of CTRL with bit 1 = 0 changes IE
and nothing else. R244: in every state IRQ is bit 1 of STATUS (DONE) and bit 0 of CTRL (IE).
The field `resp` is the model's own (log entry 7). -/
def Obligations.CtrlWriteUpdatesIeEvenWhileBusy : Prop :=
  (∀ (s : State) (v : Word) (rest : List Event), v.getLsbD 1 = false →
    step (s.facing (wr 0x008#16 v) rest) =
      .next { s with script := rest, resp := .accepted, ie := v.getLsbD 0 }) ∧
  (∀ s : State, s.irq = ((readReg s .status).getLsbD 1 && (readReg s .ctrl).getLsbD 0))

/-! ### Acceptance, completion, hazards -/

/-- R92: a write of any word to CMD while no command is in flight latches it, sets BUSY, clears DONE,
ERR and ERRCODE, and records its OP; nothing else of the core changes. A write to CMD while a command is
in flight is not accepted as one: it changes nothing but OVR. What the bus answers is not said. -/
def Obligations.CmdWriteIsAccepted : Prop :=
  ∀ (s : State) (v : Word) (rest : List Event),
    (s.inFlight = none →
      ∃ t, step (s.facing (wr 0x00C#16 v) rest) = .next t ∧
        t = { s with inFlight := some v, done := false, err := false, errCode := .success,
                     lastOp := t.lastOp, script := rest, resp := t.resp } ∧
        t.busy = true ∧ t.lastOp.toNat = v.toNat % 256) ∧
    (s.busy = true →
      ∃ t, step (s.facing (wr 0x00C#16 v) rest) = .next t ∧
        t = { s with script := rest, ovr := true, resp := t.resp })

/-- R284: while a command is in flight an accepted write to an offset other than CTRL changes nothing
but OVR, which it sets; a write that gets an error response does not; a write to CTRL takes effect. What
the bus answers is not said. -/
def Obligations.WritesWhileBusyAreDropped : Prop :=
  ∀ (s : State) (width : Width) (off : Offset) (v : Word) (rest : List Event), s.busy = true →
    (Acceptable s.cfg width off → off ≠ 0x008#16 →
      ∃ resp, step (s.facing (.access (.write width off v)) rest) =
        .next { s with script := rest, resp := resp, ovr := true }) ∧
    (¬ Acceptable s.cfg width off →
      ∃ resp, step (s.facing (.access (.write width off v)) rest) =
        .next { s with script := rest, resp := resp }) ∧
    (v.getLsbD 1 = false →
      ∃ resp, step (s.facing (wr 0x008#16 v) rest) =
        .next { s with script := rest, resp := resp, ie := v.getLsbD 0 }) ∧
    (v.getLsbD 1 = true →
      ∃ resp, step (s.facing (wr 0x008#16 v) rest) =
        .next { resetCore { s with script := rest } with resp := resp })

/-- R285: while a command is in flight a read of STATUS returns BUSY = 1, DONE = 0, ERR = 0,
ERRCODE = 0, the current OVR, and LAST_OP; SCHED_VALID and PERIOD_FOUND exactly unless the command
writes them; every other register and every RAM byte outside the command's write set exactly. An illegal
word has no write set. What a read of the write set returns is not said. The premise is the invariant of
the core. Where the operands are out of range, how far the write set reaches is the model's choice (log
entry 11): it is cut at the end of the RAM, and for a CBC_ENC with RC5_W below 8 its OUT_BUF part is
empty. -/
def Obligations.ReadsWhileBusyAreExactOutsideTheWriteSet : Prop :=
  ∀ (s : State) (v : Word) (rest : List Event), s.Inv → s.inFlight = some v →
    (∃ t d, step (s.facing (rd 0x004#16) rest) = .next t ∧
      t.resp = .data d ∧ d.getLsbD 0 = true ∧ d.getLsbD 1 = false ∧ d.getLsbD 2 = false ∧
      (∀ k, 8 ≤ k → k ≤ 11 → d.getLsbD k = false) ∧ d.getLsbD 5 = s.ovr ∧
      (∀ k, k < 8 → d.getLsbD (16 + k) = v.getLsbD k) ∧
      ((∀ i, decode v = .ok i → writesSchedValid i = false) → d.getLsbD 3 = s.schedValid) ∧
      ((∀ i, decode v = .ok i → writesPeriodFound i = false) → d.getLsbD 4 = s.periodFound)) ∧
    (∀ (r : Reg) (off : Offset), (off.toNat, r) ∈ regMap → r ≠ .status →
      (∀ i, decode v = .ok i → writesReg i r = false) →
      ∃ t, step (s.facing (rd off) rest) = .next t ∧ t.resp = .data (readReg s r)) ∧
    (∀ off : Offset, Acceptable s.cfg .bits32 off → 0xB0 ≤ off.toNat →
      (∀ i, decode v = .ok i → ∀ k, k < 4 → writesByte s i (off.toNat + k) = false) →
      ∃ t d, step (s.facing (rd off) rest) = .next t ∧ t.resp = .data d ∧
        d.toNat = if off.toNat = keyBase + 252 then s.ramRead off.toNat 3
          else s.ramRead off.toNat 4)

/-- R74: no host access but a write to CTRL changes, while a command is in flight, anything the
command reads or writes; so the command is evaluated on the state as it stood at acceptance.
Only OVR and the model's own fields differ (log entries 4, 7 and 8). -/
def Obligations.OperandsAreFrozenWhileBusy : Prop :=
  ∀ (accs : List Access) (s : State) (rest : List Event), s.busy = true →
    (∀ a ∈ accs, ∀ width v, a ≠ .write width 0x008#16 v) →
      ∃ ovr draws resp,
        Host.Core.run Sys2Proof.core accs.length
            { s with script := accs.map Event.access ++ rest } =
          .next { s with script := rest, ovr := ovr, draws := draws, resp := resp }

/-- A step of the engine runs the command the latched word decodes to; with no command in flight the
engine's turn holds the state (`60_exceptions.md` R251; that such a turn can come is the model's choice,
log entries 4 and 23); and a word placed by `withFetchWord` is accepted and run by the very next step (log
entry 5). -/
def Obligations.EngineStepRunsTheDecodedCommand : Prop :=
  (∀ (s : State) (v : Word) (i : Instr) (rest : List Event), decode v = .ok i →
    (s.inFlight = some v →
      step (s.facing .completion rest) = exec i { s with script := rest } ∧
      (s.script = [] → step s = exec i s)) ∧
    step (s.withFetchWord 32 v.toNat) = exec i (accept v s)) ∧
  (∀ (s : State) (rest : List Event), s.inFlight = none →
    step (s.facing .completion rest) = .next { s with script := rest } ∧
    (s.script = [] → step s = .next s))

/-- R94, R8, R241: the completion is enabled whenever a command is in flight; it clears BUSY, sets
DONE, sets ERR exactly when the command ended in an error, and leaves OVR, LAST_OP and CTRL.
The list of events is the model's own (log entry 4). -/
def Obligations.EveryCommandCompletes : Prop :=
  ∀ (s : State) (v : Word) (rest : List Event), s.inFlight = some v →
    ∃ t, step (s.facing .completion rest) = .next t ∧
      Completes t.errCode { s with script := rest } t ∧ (s.script = [] → ∃ u, step s = .next u ∧
        Completes u.errCode s u)

/-- R242: an error other than PaddingError changes nothing but the STATUS fields of the completion;
only CBC_DEC raises PaddingError. -/
def Obligations.ErrorsArePrecise : Prop :=
  ∀ (i : Instr) (s t : State), exec i s = .next t →
    (t.errCode ≠ .success → t.errCode ≠ .paddingError → OnlyReports t.errCode s t) ∧
    (t.errCode = .paddingError → i = .cbcDec)

/-- R240, R243: the error a command reports, from its operands: the first of its conditions in the
fixed order, and success where none holds. -/
def Obligations.OneErrorInFixedOrder : Prop :=
  ∀ (i : Instr) (s t : State), exec i s = .next t →
    (i = .lcgGen →
      (LcgBad s.lcg ∨ s.cfg.nOut < 8 * s.lcgN.toNat → t.errCode = .invalidParameter) ∧
      (¬ LcgBad s.lcg → 8 * s.lcgN.toNat ≤ s.cfg.nOut → t.errCode = .success)) ∧
    (i = .lcgPeriod .inBuf → t.errCode =
      if s.cfg.nIn < s.inLen.toNat ∨ s.inLen.toNat % 8 ≠ 0 then .invalidParameter else .success) ∧
    (i = .lcgPeriod .outBuf → t.errCode =
      if s.outLen.toNat % 8 ≠ 0 then .invalidParameter else .success) ∧
    (∀ toKey, i = .md5 toKey → t.errCode =
      if s.cfg.nIn < s.inLen.toNat then .invalidParameter else .success) ∧
    (i = .keysched ∨ i = .encBlock ∨ i = .decBlock →
      (Rc5Bad s → t.errCode = .invalidParameter) ∧ (¬ Rc5Bad s → t.errCode = .success)) ∧
    (i = .cbcEnc →
      (Rc5Bad s ∨ s.cfg.nIn < s.inLen.toNat ∨ LcgBad s.ivp → t.errCode = .invalidParameter) ∧
      (¬ Rc5Bad s → s.inLen.toNat ≤ s.cfg.nIn → ¬ LcgBad s.ivp → t.errCode = .success)) ∧
    (i = .cbcDec →
      (Rc5Bad s ∨ s.cfg.nIn < s.inLen.toNat → t.errCode = .invalidParameter) ∧
      (∀ p, Rc5Good s p → s.inLen.toNat ≤ s.cfg.nIn → t.errCode =
        if s.inLen.toNat % p.ws.blockBytes ≠ 0 ∨ s.inLen.toNat < 2 * p.ws.blockBytes then
          .decodingError
        else if padValid p.ws.blockBytes (s.recoveredText p) = false then .paddingError
        else .success))

/-- R244: IRQ is asserted by the completion of any command while IE = 1, and from then on only a reset
or a host write to CTRL, to CMD or to STATUS that clears DONE or IE can deassert it.
The list of events is the model's own (log entry 4). -/
def Obligations.InterruptHoldsUntilCleared : Prop :=
  (∀ (s : State) (v : Word) (rest : List Event), s.inFlight = some v →
    ∃ t, step (s.facing .completion rest) = .next t ∧ t.irq = s.ie) ∧
  (∀ s t : State, s.irq = true → step s = .next t → t.irq = false →
    ∃ rest, s.script = .hardReset :: rest ∨ ∃ off v, s.script = wr off v :: rest ∧
      (off = 0x004#16 ∧ v.getLsbD 1 = true ∨ off = 0x00C#16 ∨
        off = 0x008#16 ∧ (v.getLsbD 0 = false ∨ v.getLsbD 1 = true)))

/-! ### LCG Engine (`40_lcg.md`) -/

/-- R121: the sequence has length n, starts with the seed, and each further value is (a·X + c) mod m,
exactly; every value is below m. -/
def Obligations.LcgSequenceFollowsTheRecurrence : Prop :=
  ∀ (p : LcgParams) (n : Nat), ¬ LcgBad p →
    (lcgSeq p n).length = n ∧
    (∀ i, i < n → ((lcgSeq p n).getD i 0).toNat = lcgValue p i) ∧
    (∀ i, i < n → lcgValue p i < p.m.toNat)

/-- R122: the word 0x00000001 is LCG_GEN.
LCG_GEN with valid parameters and 8n ≤ N_OUT writes X[i] as 8 bytes at OUT byte 8i and sets
OUT_LEN = 8n; with invalid parameters or 8n > N_OUT it raises InvalidParameter and changes nothing but
STATUS. -/
def Obligations.LcgGenWritesTheSequence : Prop :=
  decode 0x00000001#32 = .ok .lcgGen ∧
  ∀ s : State,
    (¬ LcgBad s.lcg → 8 * s.lcgN.toNat ≤ s.cfg.nOut →
      ∃ t, exec .lcgGen s = .next t ∧ Completes .success s t ∧
        t.outLen.toNat = 8 * s.lcgN.toNat ∧
        (∀ i, i < s.lcgN.toNat → t.ramRead (outBase + 8 * i) 8 = lcgValue s.lcg i) ∧
        RamKeptOutside outBase (8 * s.lcgN.toNat) s t ∧ RegistersKept [.outLen] s t ∧
        t.schedValid = s.schedValid ∧ t.periodFound = s.periodFound ∧ t.keyWords = s.keyWords) ∧
    (LcgBad s.lcg ∨ s.cfg.nOut < 8 * s.lcgN.toNat →
      ∃ t, exec .lcgGen s = .next t ∧ OnlyReports .invalidParameter s t)

/-- R123: the scan finds the distance from the first index whose value was seen before back to that
value's first index; it finds none exactly when no value repeats. -/
def Obligations.PeriodIsTheFirstRepeatDistance : Prop :=
  ∀ seq : List DWord,
    (∀ d, periodOf seq = some d ↔
      ∃ i j, j < i ∧ i < seq.length ∧ d = i - j ∧ seq[i]? = seq[j]? ∧
        (∀ a b, a < b → b < i → seq[a]? ≠ seq[b]?)) ∧
    (periodOf seq = none ↔ ∀ a b, a < b → b < seq.length → seq[a]? ≠ seq[b]?) ∧
    (∀ d, periodOf seq = some d → 1 ≤ d ∧ d ≤ seq.length - 1)

/-- R123, last paragraph: on a sequence of R121 the first-repeat distance is the smallest distance
between two equal elements. -/
def Obligations.LcgPeriodIsTheSmallestDistance : Prop :=
  ∀ (p : LcgParams) (n d : Nat), ¬ LcgBad p → periodOf (lcgSeq p n) = some d →
    (∃ i j, j < i ∧ i < n ∧ i - j = d ∧ (lcgSeq p n)[i]? = (lcgSeq p n)[j]?) ∧
    (∀ i j, j < i → i < n → (lcgSeq p n)[i]? = (lcgSeq p n)[j]? → d ≤ i - j)

/-- R124: the words 0x00000002 and 0x00000102 are LCG_PERIOD.
LCG_PERIOD reads len/8 values of 64 bits from IN_BUF (F = 0) or OUT_BUF (F = 1), reports the
first-repeat distance with PERIOD_FOUND = 1, or 0 with PERIOD_FOUND = 0, and changes no RAM byte; it
raises InvalidParameter where IN_LEN > N_IN (F = 0) or the length is not a multiple of 8. -/
def Obligations.LcgPeriodReportsTheFirstRepeat : Prop :=
  decode 0x00000002#32 = .ok (.lcgPeriod .inBuf) ∧
  decode 0x00000102#32 = .ok (.lcgPeriod .outBuf) ∧
  ∀ (src : SeqSource) (s : State) (base len : Nat),
    (base, len) = (match src with
      | .inBuf => (inBase, s.inLen.toNat)
      | .outBuf => (outBase, s.outLen.toNat)) →
    ((src = .inBuf → len ≤ s.cfg.nIn) → len % 8 = 0 →
      ∃ t, exec (.lcgPeriod src) s = .next t ∧ Completes .success s t ∧
        (let seq := (List.range (len / 8)).map (fun i => BitVec.ofNat 64 (s.ramRead (base + 8 * i) 8))
         (∀ d, periodOf seq = some d → t.period.toNat = d ∧ t.periodFound = true) ∧
         (periodOf seq = none → t.period = 0 ∧ t.periodFound = false)) ∧
        t.mem = s.mem ∧ RegistersKept [.period] s t ∧ t.schedValid = s.schedValid ∧
        t.keyWords = s.keyWords) ∧
    ((src = .inBuf ∧ s.cfg.nIn < len) ∨ len % 8 ≠ 0 →
      ∃ t, exec (.lcgPeriod src) s = .next t ∧ OnlyReports .invalidParameter s t)

/-! ### MD5 Engine (`41_md5.md`) -/

/-- R141: the padded message is M, 0x80, the least number z of zero bytes that makes the length 56
modulo 64, and the bit length as 8 bytes; it has (n + 8) div 64 + 1 blocks. -/
def Obligations.Md5PaddingMeetsTheRule : Prop :=
  ∀ m : List Byte, ∃ z,
    md5Pad m = m ++ [0x80#8] ++ List.replicate z 0#8 ++ leBytes 8 ((8 * m.length) % 2 ^ 64) ∧
    (m.length + 1 + z) % 64 = 56 ∧ (∀ z', z' < z → (m.length + 1 + z') % 64 ≠ 56) ∧
    (chunks 64 (md5Pad m)).length = (m.length + 8) / 64 + 1 ∧
    (chunks 64 (md5Pad m)).flatten = md5Pad m

/-- The known answers DG1 to DG4 and DG7 of `95_test_vectors.md` section 3.4: "", "a", "abc", "message
digest" and 56 times "x", which has two blocks. -/
def Obligations.Md5KnownAnswers : Prop :=
  Quad.ofBytes (md5Digest []) = ⟨0xd98c1dd4#32, 0x04b2008f#32, 0x980980e9#32, 0x7e42f8ec#32⟩ ∧
  Quad.ofBytes (md5Digest [0x61#8]) =
    ⟨0xb975c10c#32, 0xa8b6f1c0#32, 0xe299c331#32, 0x61267769#32⟩ ∧
  Quad.ofBytes (md5Digest [0x61#8, 0x62#8, 0x63#8]) =
    ⟨0x98500190#32, 0xb04fd23c#32, 0x7d3f96d6#32, 0x727fe128#32⟩ ∧
  Quad.ofBytes (md5Digest [0x6d#8, 0x65#8, 0x73#8, 0x73#8, 0x61#8, 0x67#8, 0x65#8, 0x20#8, 0x64#8,
      0x69#8, 0x67#8, 0x65#8, 0x73#8, 0x74#8]) =
    ⟨0x7d696bf9#32, 0x8d93b77c#32, 0x312f5a52#32, 0xd061f1aa#32⟩ ∧
  Quad.ofBytes (md5Digest (List.replicate 56 0x78#8)) =
    ⟨0xd5728a66#32, 0x8ef017ba#32, 0xafbcda62#32, 0x4bb16dad#32⟩

/-- R144: the words 0x00000003 and 0x00000103 are MD5.
MD5 leaves the digest of IN[0..IN_LEN) in DIGEST0 to DIGEST3, byte k at its place; with F = 1
also in KEYBUF[0..16) with KEY_LEN = 16; nothing else changes. IN_LEN > N_IN raises
InvalidParameter. -/
def Obligations.Md5ReportsTheDigest : Prop :=
  decode 0x00000003#32 = .ok (.md5 false) ∧ decode 0x00000103#32 = .ok (.md5 true) ∧
  ∀ (toKey : Bool) (s : State),
    (s.inLen.toNat ≤ s.cfg.nIn →
      ∃ t, exec (.md5 toKey) s = .next t ∧ Completes .success s t ∧
        (∀ k, k < 16 → t.digest.byte k = byteAt (md5Digest (s.ramBytes inBase s.inLen.toNat)) k) ∧
        t.schedValid = s.schedValid ∧ t.periodFound = s.periodFound ∧ t.keyWords = s.keyWords ∧
        (toKey = false → t.mem = s.mem ∧ RegistersKept digestRegs s t) ∧
        (toKey = true → t.keyLen.toNat = 16 ∧
          (∀ k, k < 16 → t.ramByte (keyBase + k) =
            byteAt (md5Digest (s.ramBytes inBase s.inLen.toNat)) k) ∧
          RamKeptOutside keyBase 16 s t ∧ RegistersKept (.keyLen :: digestRegs) s t)) ∧
    (s.cfg.nIn < s.inLen.toNat →
      ∃ t, exec (.md5 toKey) s = .next t ∧ OnlyReports .invalidParameter s t)

/-! ### RC5 words and key schedule (`00_scope.md`, `42_rc5_key_schedule.md`) -/

/-- R3: rotation by s mod w, as the formula of the rule on numbers; for w = 16, 32, 64 a sum computed
mod 2^w gives the same rotation as the unbounded sum (the rule's last sentence, which it marks as
derived). R5: LE is the sum of the bytes times 2^(8k), and BYTES_n is its inverse. -/
def Obligations.RotationsAndLittleEndianPacking : Prop :=
  (∀ (w : Nat) (x : BitVec w) (s : Nat), 0 < s % w →
    (rotl x s).toNat = ((x.toNat <<< (s % w)) ||| (x.toNat >>> (w - s % w))) % 2 ^ w ∧
    (rotr x s).toNat = ((x.toNat >>> (s % w)) ||| (x.toNat <<< (w - s % w))) % 2 ^ w) ∧
  (∀ (w : Nat) (x : BitVec w) (s : Nat), s % w = 0 → rotl x s = x ∧ rotr x s = x) ∧
  (∀ (ws : WordSize) (x a b : BitVec ws.bits), rotl x (a + b).toNat = rotl x (a.toNat + b.toNat)) ∧
  (∀ bs : List Byte, leNat bs = ∑ k ∈ Finset.range bs.length, (byteAt bs k).toNat * 2 ^ (8 * k)) ∧
  (∀ bs : List Byte, leBytes bs.length (leNat bs) = bs) ∧
  (∀ n v k : Nat, k < n → (byteAt (leBytes n v) k).toNat = v / 2 ^ (8 * k) % 256)

/-- R162, R163: the key string has b bytes, KEYBUF's below KEY_LEN and 0 from there on; the word array
has max(1, ceil(b/u)) words, word j packed little-endian from bytes j·u to (j+1)·u - 1 of the string
zero-padded to c·u bytes; b = 0 gives the one word 0. -/
def Obligations.KeyBytesAndWords : Prop :=
  (∀ (s : State) (b : Nat), (s.keyBytes b).length = b ∧
    ∀ k, k < b → byteAt (s.keyBytes b) k =
      if k < s.keyLen.toNat then s.ramByte (keyBase + k) else 0) ∧
  (∀ (ws : WordSize) (key : List Byte) (c : Nat),
    c = max 1 ((key.length + ws.bytes - 1) / ws.bytes) →
    (packKey ws key).length = c ∧ key.length ≤ c * ws.bytes ∧
    ∀ j, j < c → ((packKey ws key).getD j 0).toNat =
      leNat (((key ++ List.replicate (c * ws.bytes - key.length) 0).drop (j * ws.bytes)).take
        ws.bytes)) ∧
  (∀ ws : WordSize, packKey ws [] = [0])

/-- R164: the initial sub-key table has t words, S[i] = P_w + i·Q_w modulo 2^w; the mixing keeps the
length, so the table of r rounds has 2(r+1) words. -/
def Obligations.SubkeyTableShape : Prop :=
  (∀ (ws : WordSize) (t : Nat), (initTable ws t).length = t ∧
    ∀ i, i < t → ((initTable ws t).getD i 0).toNat =
      ((magicP ws).toNat + i * (magicQ ws).toNat) % 2 ^ ws.bits) ∧
  (∀ (ws : WordSize) (r : Nat) (key : List Byte), (subkeys ws r key).length = 2 * (r + 1))

/-- The tables KS2, KS6, KS8 and KS9 of `95_test_vectors.md` section 3.2, the published block vector V6
and the block vector BK7. -/
def Obligations.Rc5KnownAnswers : Prop :=
  subkeys .w16 0 [] = [0x7865#16, 0x33f4#16] ∧
  subkeys .w32 0 [0x01#8] = [0x749cc870#32, 0x405714c0#32] ∧
  subkeys .w32 0 [] = [0x4dba7b7a#32, 0x1e1d1179#32] ∧
  subkeys .w64 0 [] = [0xd962603f8db9099f#64, 0x630e0ed07399d5d4#64] ∧
  encryptBlock (subkeys .w16 16 [0x00#8, 0x01#8, 0x02#8, 0x03#8, 0x04#8, 0x05#8, 0x06#8, 0x07#8]) 16
    (0x0100#16, 0x0302#16) = (0xa823#16, 0x2ed7#16) ∧
  encryptBlock (subkeys .w16 1 []) 1 (0xffff#16, 0x0000#16) = (0xf10f#16, 0xa851#16)

/-- R166, R167: the word 0x00000004 is KEYSCHED.
KEYSCHED with good parameters leaves the table of the key registers in S entries 0 to
t-1, entries t to 511 unchanged, and SCHED_W, SCHED_R, SCHED_VALID; with bad parameters it raises
InvalidParameter and changes nothing but STATUS. The registers are good for some parameters or bad. -/
def Obligations.KeyschedPublishesTheTable : Prop :=
  decode 0x00000004#32 = .ok .keysched ∧
  ∀ s : State,
    (∀ p, Rc5Good s p →
      ∃ t, exec .keysched s = .next t ∧ Completes .success s t ∧ SchedulePublished p s t ∧
        RamKeptOutside sBase (8 * tableLen p.r) s t ∧ RegistersKept schedRegs s t ∧
        t.periodFound = s.periodFound) ∧
    (Rc5Bad s → ∃ t, exec .keysched s = .next t ∧ OnlyReports .invalidParameter s t) ∧
    (¬ Rc5Bad s → ∃ p, Rc5Good s p)

/-! ### RC5 Block Core (`43_rc5_block.md`) -/

/-- R182: decryption undoes encryption, and encryption undoes decryption, for every word size, table,
round count and block. -/
def Obligations.BlockDecryptionInvertsEncryption : Prop :=
  ∀ (w : Nat) (S : List (BitVec w)) (r : Nat) (x : BitVec w × BitVec w),
    decryptBlock S r (encryptBlock S r x) = x ∧ encryptBlock S r (decryptBlock S r x) = x

/-- R183: the word 0x00000005 is ENC_BLOCK.
ENC_BLOCK expands the key, then replaces BLK_A and BLK_B, each taken mod 2^w, by the
encrypted block, zero-extended; with bad parameters it raises InvalidParameter and changes nothing but
STATUS. -/
def Obligations.EncBlockEncryptsInPlace : Prop :=
  decode 0x00000005#32 = .ok .encBlock ∧
  ∀ s : State,
    (∀ p, Rc5Good s p →
      ∃ t, exec .encBlock s = .next t ∧ Completes .success s t ∧ SchedulePublished p s t ∧
        (∀ A B : BitVec p.ws.bits, A.toNat = s.blkA.toNat % 2 ^ p.ws.bits →
          B.toNat = s.blkB.toNat % 2 ^ p.ws.bits →
          t.blkA.toNat = (encryptBlock (s.table p) p.r (A, B)).1.toNat ∧
          t.blkB.toNat = (encryptBlock (s.table p) p.r (A, B)).2.toNat) ∧
        RamKeptOutside sBase (8 * tableLen p.r) s t ∧
        RegistersKept (schedRegs ++ blockRegs) s t ∧ t.periodFound = s.periodFound) ∧
    (Rc5Bad s → ∃ t, exec .encBlock s = .next t ∧ OnlyReports .invalidParameter s t)

/-- R184: the word 0x00000006 is DEC_BLOCK.
DEC_BLOCK is as ENC_BLOCK, with the decrypted block. -/
def Obligations.DecBlockDecryptsInPlace : Prop :=
  decode 0x00000006#32 = .ok .decBlock ∧
  ∀ s : State,
    (∀ p, Rc5Good s p →
      ∃ t, exec .decBlock s = .next t ∧ Completes .success s t ∧ SchedulePublished p s t ∧
        (∀ A B : BitVec p.ws.bits, A.toNat = s.blkA.toNat % 2 ^ p.ws.bits →
          B.toNat = s.blkB.toNat % 2 ^ p.ws.bits →
          t.blkA.toNat = (decryptBlock (s.table p) p.r (A, B)).1.toNat ∧
          t.blkB.toNat = (decryptBlock (s.table p) p.r (A, B)).2.toNat) ∧
        RamKeptOutside sBase (8 * tableLen p.r) s t ∧
        RegistersKept (schedRegs ++ blockRegs) s t ∧ t.periodFound = s.periodFound) ∧
    (Rc5Bad s → ∃ t, exec .decBlock s = .next t ∧ OnlyReports .invalidParameter s t)

/-- `43_rc5_block.md` R184, corner cases: with unchanged parameters and key, ENC_BLOCK followed by
DEC_BLOCK restores BLK_A and BLK_B mod 2^w. -/
def Obligations.DecBlockRestoresEncBlock : Prop :=
  ∀ (s t u : State) (p : Rc5Params), Rc5Good s p → exec .encBlock s = .next t →
    exec .decBlock t = .next u →
      u.errCode = .success ∧ u.blkA.toNat = s.blkA.toNat % 2 ^ p.ws.bits ∧
        u.blkB.toNat = s.blkB.toNat % 2 ^ p.ws.bits

/-! ### CBC-PAD Cipher Mode (`44_cbc_pad.md`) -/

/-- R201, R208: the padding has p = bs - (n mod bs) bytes of value p, makes a non-zero multiple of bs,
passes the check, and taking off its last byte's count gives the message back. -/
def Obligations.PaddingIsRemovedExactly : Prop :=
  ∀ (ws : WordSize) (m : List Byte),
    let bs := ws.blockBytes
    let p := bs - m.length % bs
    pad bs m = m ++ List.replicate p (BitVec.ofNat 8 p) ∧ 1 ≤ p ∧ p ≤ bs ∧
    (pad bs m).length % bs = 0 ∧ bs ≤ (pad bs m).length ∧
    padValid bs (pad bs m) = true ∧ lastByte (pad bs m) = p ∧
    (pad bs m).take ((pad bs m).length - lastByte (pad bs m)) = m

/-- R208: the padding of a plaintext is valid exactly when its last byte p is in [1, bs] and its last p
bytes all equal p. -/
def Obligations.PaddingCheckIsStrict : Prop :=
  ∀ (ws : WordSize) (pt : List Byte), ws.blockBytes ≤ pt.length →
    (padValid ws.blockBytes pt = true ↔
      1 ≤ (byteAt pt (pt.length - 1)).toNat ∧ (byteAt pt (pt.length - 1)).toNat ≤ ws.blockBytes ∧
        ∀ k, k < (byteAt pt (pt.length - 1)).toNat →
          byteAt pt (pt.length - 1 - k) = byteAt pt (pt.length - 1))

/-- R207, last sentence: for every envelope that CbcEncrypt returns, CbcDecrypt under the same table
gives back the IV and the plaintext. -/
def Obligations.CbcDecryptInvertsCbcEncrypt : Prop :=
  ∀ (ws : WordSize) (r : Nat) (S : List (BitVec ws.bits)) (iv pt : List Byte),
    iv.length = ws.blockBytes → pt.length % ws.blockBytes = 0 →
      cbcRecoverIv (decBytes ws r S) ws.blockBytes
          (cbcEncrypt (encBytes ws r S) ws.blockBytes pt iv) = iv ∧
      cbcDecrypt (decBytes ws r S) ws.blockBytes
          (cbcEncrypt (encBytes ws r S) ws.blockBytes pt iv) = pt

/-- R202: IV byte k is X[k] mod 256 of the LCG of the IV generator registers, for k below bs. -/
def Obligations.IvIsTheLowBytesOfTheLcg : Prop :=
  ∀ (p : LcgParams) (ws : WordSize), ¬ LcgBad p →
    (ivBytes p ws.blockBytes).length = ws.blockBytes ∧
    ∀ k, k < ws.blockBytes → (byteAt (ivBytes p ws.blockBytes) k).toNat = lcgValue p k % 256

/-- R204: the word 0x00000007 is CBC_ENC.
CBC_ENC writes the envelope of the padded input under the generated IV to OUT_BUF from byte
0, OUT_LEN its length, the IV registers bytes 0 to bs-1 the IV and the rest 0; on a failing check it
raises InvalidParameter and changes nothing but STATUS. -/
def Obligations.CbcEncWritesTheEnvelope : Prop :=
  decode 0x00000007#32 = .ok .cbcEnc ∧
  ∀ s : State,
    (∀ p, Rc5Good s p → s.inLen.toNat ≤ s.cfg.nIn → ¬ LcgBad s.ivp →
      ∃ t out iv, exec .cbcEnc s = .next t ∧ Completes .success s t ∧ SchedulePublished p s t ∧
        iv = ivBytes s.ivp p.ws.blockBytes ∧
        out = cbcEncrypt (encBytes p.ws p.r (s.table p)) p.ws.blockBytes
          (pad p.ws.blockBytes (s.ramBytes inBase s.inLen.toNat)) iv ∧
        t.outLen.toNat = out.length ∧ t.ramBytes outBase out.length = out ∧
        (∀ k, k < 16 → t.iv.byte k = if k < p.ws.blockBytes then byteAt iv k else 0) ∧
        (∀ a, ¬ (sBase ≤ a ∧ a < sBase + 8 * tableLen p.r) →
          ¬ (outBase ≤ a ∧ a < outBase + out.length) → t.ramByte a = s.ramByte a) ∧
        RegistersKept (.outLen :: schedRegs ++ ivRegs) s t ∧ t.periodFound = s.periodFound) ∧
    (Rc5Bad s ∨ s.cfg.nIn < s.inLen.toNat ∨ LcgBad s.ivp →
      ∃ t, exec .cbcEnc s = .next t ∧ OnlyReports .invalidParameter s t)

/-- R205: after a successful CBC_ENC, OUT_LEN = bs·(1 + ceil((IN_LEN + 1)/bs)), and it fits OUT_BUF. -/
def Obligations.CiphertextLength : Prop :=
  ∀ (s t : State) (p : Rc5Params), Rc5Good s p → exec .cbcEnc s = .next t → t.errCode = .success →
    t.outLen.toNat =
      p.ws.blockBytes * (1 + (s.inLen.toNat + 1 + (p.ws.blockBytes - 1)) / p.ws.blockBytes) ∧
    t.outLen.toNat ≤ s.cfg.nOut

/-- R209, the success branch: with passing checks and a valid padding, CBC_DEC writes the padded
plaintext to OUT_BUF, OUT_LEN its length less p, and the recovered IV. -/
def Obligations.CbcDecRemovesThePadding : Prop :=
  ∀ (s : State) (p : Rc5Params) (pt iv : List Byte), Rc5Good s p → s.inLen.toNat ≤ s.cfg.nIn →
    s.inLen.toNat % p.ws.blockBytes = 0 → 2 * p.ws.blockBytes ≤ s.inLen.toNat →
    iv = cbcRecoverIv (decBytes p.ws p.r (s.table p)) p.ws.blockBytes
      (s.ramBytes inBase s.inLen.toNat) →
    pt = cbcDecrypt (decBytes p.ws p.r (s.table p)) p.ws.blockBytes
      (s.ramBytes inBase s.inLen.toNat) →
    padValid p.ws.blockBytes pt = true →
      ∃ t, exec .cbcDec s = .next t ∧ Completes .success s t ∧ SchedulePublished p s t ∧
        pt.length = s.inLen.toNat - p.ws.blockBytes ∧
        t.outLen.toNat = pt.length - (byteAt pt (pt.length - 1)).toNat ∧
        t.ramBytes outBase pt.length = pt ∧
        (∀ k, k < 16 → t.iv.byte k = if k < p.ws.blockBytes then byteAt iv k else 0) ∧
        (∀ a, ¬ (sBase ≤ a ∧ a < sBase + 8 * tableLen p.r) →
          ¬ (outBase ≤ a ∧ a < outBase + pt.length) → t.ramByte a = s.ramByte a) ∧
        RegistersKept (.outLen :: schedRegs ++ ivRegs) s t ∧ t.periodFound = s.periodFound

/-- R209, the PaddingError branch: the schedule and the IV are written as on success, OUT_LEN is 0, and
no RAM byte but the S entries and OUT bytes [0, IN_LEN - bs) changes; what those OUT bytes hold is
not said.
They are free values (log entry 12). -/
def Obligations.CbcDecReportsPaddingError : Prop :=
  ∀ (s : State) (p : Rc5Params) (pt iv : List Byte), Rc5Good s p → s.inLen.toNat ≤ s.cfg.nIn →
    s.inLen.toNat % p.ws.blockBytes = 0 → 2 * p.ws.blockBytes ≤ s.inLen.toNat →
    iv = cbcRecoverIv (decBytes p.ws p.r (s.table p)) p.ws.blockBytes
      (s.ramBytes inBase s.inLen.toNat) →
    pt = cbcDecrypt (decBytes p.ws p.r (s.table p)) p.ws.blockBytes
      (s.ramBytes inBase s.inLen.toNat) →
    padValid p.ws.blockBytes pt = false →
      ∃ t, exec .cbcDec s = .next t ∧ Completes .paddingError s t ∧ SchedulePublished p s t ∧
        t.outLen = 0 ∧
        (∀ k, k < 16 → t.iv.byte k = if k < p.ws.blockBytes then byteAt iv k else 0) ∧
        (∀ a, ¬ (sBase ≤ a ∧ a < sBase + 8 * tableLen p.r) →
          ¬ (outBase ≤ a ∧ a < outBase + (s.inLen.toNat - p.ws.blockBytes)) →
          t.ramByte a = s.ramByte a) ∧
        RegistersKept (.outLen :: schedRegs ++ ivRegs) s t ∧ t.periodFound = s.periodFound

/-- R206: CBC_DEC raises DecodingError, and changes nothing but STATUS, where IN_LEN is not a multiple of
bs or is below 2·bs, once the parameters and IN_LEN ≤ N_IN have passed. -/
def Obligations.CbcDecReportsDecodingError : Prop :=
  ∀ (s : State) (p : Rc5Params), Rc5Good s p → s.inLen.toNat ≤ s.cfg.nIn →
    (s.inLen.toNat % p.ws.blockBytes ≠ 0 ∨ s.inLen.toNat < 2 * p.ws.blockBytes) →
      ∃ t, exec .cbcDec s = .next t ∧ OnlyReports .decodingError s t

/-- The round trip of `95_test_vectors.md` SRC9, through the registers and buffers: after a successful
CBC_ENC, a CBC_DEC in any state with the same parameters and key and with the envelope as its input
succeeds and gives the message back, with the same IV. -/
def Obligations.CbcDecRecoversTheMessage : Prop :=
  ∀ s t s' t' : State, exec .cbcEnc s = .next t → t.errCode = .success →
    SameKeyOperands s s' → s'.cfg = s.cfg → s'.inLen = t.outLen → t.outLen.toNat ≤ s'.cfg.nIn →
    s'.ramBytes inBase t.outLen.toNat = t.ramBytes outBase t.outLen.toNat →
    exec .cbcDec s' = .next t' →
      t'.errCode = .success ∧ t'.outLen = s.inLen ∧
        t'.ramBytes outBase s.inLen.toNat = s.ramBytes inBase s.inLen.toNat ∧ t'.iv = t.iv

/-! ### Rules over the whole machine -/

/-- R96: a command writes only the locations of its write set, in addition to STATUS; one that ends in
an error before its first write writes nothing of it; an illegal word has none. -/
def Obligations.CommandsWriteOnlyTheirWriteSet : Prop :=
  (∀ (i : Instr) (s t : State), exec i s = .next t →
    FrameOf i s t ∧
    (t.errCode ≠ .success → t.errCode ≠ .paddingError → OnlyReports t.errCode s t)) ∧
  (∀ (s : State) (v : Word), (∀ i, decode v ≠ .ok i) →
    ∃ t, runCommand v s = .next t ∧ OnlyReports .illegalCommand s t)

/-- R97: a command reads only its operands: in two states of one configuration that agree on them it
reports the same error, and where it succeeds it leaves the same values in its write set; a CBC_DEC that
raises PaddingError leaves the same values there but for the OUT bytes, which R209 leaves unspecified. -/
def Obligations.CommandsReadOnlyTheirOperands : Prop :=
  ∀ (i : Instr) (s s' t t' : State), s'.cfg = s.cfg → SameOperands i s s' →
    exec i s = .next t → exec i s' = .next t' →
      t'.errCode = t.errCode ∧ (t.errCode = .success → SameResults i s t t') ∧
        (t.errCode = .paddingError →
          (∀ r, writesReg i r = true → readReg t' r = readReg t r) ∧
          (∀ a, a < outBase → writesByte s i a = true → t'.ramByte a = t.ramByte a) ∧
          t'.schedValid = t.schedValid)

/-- R25, first sentences: SCHED_VALID is set by a key expansion, at the completion of its command, and
cleared by a reset, and no other event changes it. -/
def Obligations.OnlyExpansionAndResetChangeSchedValid : Prop :=
  ∀ s t : State, step s = .next t → t.schedValid ≠ s.schedValid →
    (t.schedValid = true ∧ t.inFlight = none ∧
      (s.script = [] ∨ ∃ rest, s.script = .completion :: rest) ∧
      ∃ v i, s.inFlight = some v ∧ decode v = .ok i ∧ expandsKey i = true ∧
        (t.errCode = .success ∨ t.errCode = .paddingError)) ∨
    (t.schedValid = false ∧ ∃ rest, s.script = .hardReset :: rest ∨
      ∃ v, s.script = wr 0x008#16 v :: rest ∧ v.getLsbD 1 = true)

/-- R21, R41: ID always reads 0x50445331 and IN_CAP always reads N_IN, which no event changes. -/
def Obligations.IdentityAndCapacityNeverChange : Prop :=
  ∀ s t : State, step s = .next t →
    readReg t .id = 0x50445331#32 ∧ (readReg t .inCap).toNat = s.cfg.nIn ∧ t.cfg = s.cfg

/-- Every step keeps the invariant of the core. -/
def Obligations.StepKeepsTheInvariant : Prop :=
  ∀ s t : State, s.Inv → step s = .next t → t.Inv

/-- The state after reset meets the invariant of the core. -/
def Obligations.ResetMeetsTheInvariant : Prop := State.reset.Inv

/-- R20, R37, R38, R40, R42 to R46: while no command is in flight a bus read of a register answers with
its value, and the value at each offset is the field of State it stands for: a 64-bit field through its
LO and HI registers, a 16-byte string through its four registers, byte k in bits 8(k mod 4)+7 : 8(k mod 4)
of register k div 4. STATUS and CTRL have their layout in `Obligations.StatusAndCtrlLayout`. -/
def Obligations.IdleReadsReturnTheRegisters : Prop :=
  ∀ (s : State) (rest : List Event), s.inFlight = none →
    (∀ (r : Reg) (off : Offset), (off.toNat, r) ∈ regMap → s.Answers rest off (readReg s r)) ∧
    s.Answers rest 0x000#16 0x50445331#32 ∧
    (∃ d, s.Answers rest 0x038#16 d ∧ d.toNat = s.cfg.nIn) ∧
    (∃ d, s.Answers rest 0x01C#16 d ∧ d.toNat = s.keyLen.toNat) ∧
    (∀ x ∈ [(0x00C#16, 0#32), (0x010#16, s.rc5W), (0x014#16, s.rc5R), (0x018#16, s.rc5B),
        (0x020#16, s.inLen), (0x024#16, s.outLen), (0x028#16, s.schedW), (0x02C#16, s.schedR),
        (0x030#16, s.lcgN), (0x034#16, s.period)], s.Answers rest x.1 x.2) ∧
    (∀ x ∈ [(0x040#16, s.lcg.m), (0x048#16, s.lcg.a), (0x050#16, s.lcg.c), (0x058#16, s.lcg.x0),
        (0x060#16, s.ivp.m), (0x068#16, s.ivp.a), (0x070#16, s.ivp.c), (0x078#16, s.ivp.x0),
        (0x080#16, s.blkA), (0x088#16, s.blkB)],
      ∃ lo hi, s.Answers rest x.1 lo ∧ s.Answers rest (x.1 + 4#16) hi ∧
        lo.toNat + 2 ^ 32 * hi.toNat = x.2.toNat) ∧
    (∀ x ∈ [(0x090, s.iv), (0x0A0, s.digest)], ∀ k, k < 16 →
      ∃ d, s.Answers rest (BitVec.ofNat 16 (x.1 + 4 * (k / 4))) d ∧
        d.extractLsb' (8 * (k % 4)) 8 = x.2.byte k)
end

