-- ==== Sys2Proof/Laws/Bytes.lean ====
section
/-! SUPPORT. Byte strings: little-endian packing (`00_scope.md` R5), exclusive or, and the cutting of a
string into blocks. -/

namespace Sys2Proof.Machine

/-! ### LE and BYTES -/

@[simp] theorem leBytes_length (n v : Nat) : (leBytes n v).length = n := by
  induction n generalizing v with
  | zero => rfl
  | succ n ih => simp [leBytes, ih]

theorem leNat_lt (bs : List Byte) : leNat bs < 256 ^ bs.length := by
  induction bs with
  | nil => simp [leNat]
  | cons b bs ih =>
    have hb := b.isLt
    simp only [leNat, List.length_cons, Nat.pow_succ]
    omega

/-- `LE(BYTES_n(v)) = v mod 256^n`. -/
theorem leNat_leBytes (n v : Nat) : leNat (leBytes n v) = v % 256 ^ n := by
  induction n generalizing v with
  | zero => simp [leBytes, leNat, Nat.mod_one]
  | succ n ih =>
    simp only [leBytes, leNat, ih, BitVec.toNat_ofNat]
    have e : 256 ^ (n + 1) = 256 * 256 ^ n := by rw [Nat.pow_succ, Nat.mul_comm]
    rw [e, Nat.mod_mul]

/-- `BYTES_n(LE(X)) = X` for a string of n bytes. -/
theorem leBytes_leNat (bs : List Byte) : leBytes bs.length (leNat bs) = bs := by
  induction bs with
  | nil => rfl
  | cons b bs ih =>
    have hb := b.isLt
    have h1 : (b.toNat + 256 * leNat bs) / 256 = leNat bs := by omega
    have h2 : BitVec.ofNat 8 (b.toNat + 256 * leNat bs) = b := by
      apply BitVec.eq_of_toNat_eq
      simp only [BitVec.toNat_ofNat]
      omega
    simp only [List.length_cons, leNat, leBytes, h1, h2, ih]

theorem leNat_append (x y : List Byte) : leNat (x ++ y) = leNat x + 256 ^ x.length * leNat y := by
  induction x with
  | nil => simp [leNat]
  | cons b x ih =>
    simp only [List.cons_append, leNat, ih, List.length_cons, Nat.pow_succ]
    rw [Nat.mul_add, ← Nat.mul_assoc, Nat.mul_comm 256 (256 ^ x.length)]
    omega

/-- A 64-bit value survives its 8 bytes. -/
theorem leNat_leBytes_dword (x : DWord) : leNat (leBytes 8 x.toNat) = x.toNat := by
  rw [leNat_leBytes]
  exact Nat.mod_eq_of_lt x.isLt

/-! ### Sequences of 64-bit values as bytes -/

@[simp] theorem dwordBytes_nil : dwordBytes [] = [] := rfl

@[simp] theorem dwordBytes_cons (x : DWord) (xs : List DWord) :
    dwordBytes (x :: xs) = leBytes 8 x.toNat ++ dwordBytes xs := by simp [dwordBytes]

@[simp] theorem dwordBytes_length (xs : List DWord) : (dwordBytes xs).length = 8 * xs.length := by
  induction xs with
  | nil => rfl
  | cons x xs ih => simp [ih]; omega

/-- Bytes 8i to 8i+7 of a sequence are its value i. -/
theorem dwordBytes_slice (xs : List DWord) (i : Nat) (h : i < xs.length) :
    ((dwordBytes xs).drop (8 * i)).take 8 = leBytes 8 (xs[i]).toNat := by
  induction xs generalizing i with
  | nil => simp at h
  | cons x xs ih =>
    cases i with
    | zero => simp
    | succ i =>
      have h' : i < xs.length := by simpa using h
      have e : 8 * (i + 1) = (leBytes 8 x.toNat).length + 8 * i := by simp; omega
      rw [dwordBytes_cons, e, ← List.drop_drop, List.drop_left]
      simpa using ih i h'

/-- A sequence is determined by its bytes. -/
theorem dwordBytes_injective {xs ys : List DWord} (h : dwordBytes xs = dwordBytes ys) : xs = ys := by
  have hl : xs.length = ys.length := by
    have := congrArg List.length h
    simpa using this
  apply List.ext_getElem hl
  intro i h1 h2
  have e1 := dwordBytes_slice xs i h1
  rw [h, dwordBytes_slice ys i h2] at e1
  have e2 := congrArg leNat e1
  rw [leNat_leBytes_dword, leNat_leBytes_dword] at e2
  exact (BitVec.eq_of_toNat_eq e2).symm

/-! ### Exclusive or -/

theorem xorBytes_length {x y : List Byte} (h : x.length = y.length) :
    (xorBytes x y).length = y.length := by simp [xorBytes, h]

/-- Exclusive or with one string twice is the identity. -/
theorem xorBytes_cancel {x y : List Byte} (h : x.length = y.length) :
    xorBytes (xorBytes x y) y = x := by
  induction x generalizing y with
  | nil => cases y <;> simp_all [xorBytes]
  | cons a x ih =>
    cases y with
    | nil => simp at h
    | cons b y =>
      have h' : x.length = y.length := by simpa using h
      have hab : a ^^^ b ^^^ b = a := by rw [BitVec.xor_assoc, BitVec.xor_self, BitVec.xor_zero]
      simpa [xorBytes, hab] using ih h'

/-! ### Blocks -/

theorem blockAt_length {n : Nat} {bs : List Byte} {k : Nat} (hk : (k + 1) * n ≤ bs.length) :
    (blockAt n bs k).length = n := by
  have : (k + 1) * n = k * n + n := by rw [Nat.add_mul, Nat.one_mul]
  simp [blockAt]
  omega

@[simp] theorem chunks_length (n : Nat) (bs : List Byte) : (chunks n bs).length = bs.length / n := by
  simp [chunks]

/-- Every block of a string has the block's length. -/
theorem length_of_mem_chunks {n : Nat} {bs x : List Byte} (hx : x ∈ chunks n bs) : x.length = n := by
  simp only [chunks, List.mem_map, List.mem_range] at hx
  obtain ⟨k, hk, rfl⟩ := hx
  refine blockAt_length (Nat.le_trans (Nat.mul_le_mul_right n hk) ?_)
  exact Nat.div_mul_le_self _ _

/-- Cutting a block followed by a string gives the block, then the string's blocks. -/
theorem chunks_append {n : Nat} (hn : 0 < n) {x : List Byte} (hx : x.length = n) (bs : List Byte) :
    chunks n (x ++ bs) = x :: chunks n bs := by
  have hd : (x ++ bs).length / n = bs.length / n + 1 := by
    rw [List.length_append, hx, Nat.add_comm, Nat.add_div_right _ hn]
  simp only [chunks, hd, List.range_succ_eq_map, List.map_cons, List.map_map]
  congr 1
  · simp [blockAt, ← hx]
  · apply List.map_congr_left
    intro k _
    have e : (k + 1) * n = x.length + k * n := by rw [Nat.add_mul, hx, Nat.one_mul, Nat.add_comm]
    simp [blockAt, e, ← List.drop_drop]

@[simp] theorem chunks_nil (n : Nat) : chunks n [] = [] := by simp [chunks]

/-- Blocks joined and cut again are the blocks. -/
theorem chunks_flatten {n : Nat} (hn : 0 < n) (bl : List (List Byte)) (h : ∀ x ∈ bl, x.length = n) :
    chunks n bl.flatten = bl := by
  induction bl with
  | nil => simp
  | cons x bl ih =>
    rw [List.flatten_cons, chunks_append hn (h x (by simp)), ih (fun y hy => h y (by simp [hy]))]

/-- A string of whole blocks is its blocks joined. -/
theorem flatten_chunks {n : Nat} (hn : 0 < n) (q : Nat) (bs : List Byte) (h : bs.length = q * n) :
    (chunks n bs).flatten = bs := by
  induction q generalizing bs with
  | zero =>
    have : bs = [] := List.eq_nil_of_length_eq_zero (by simpa using h)
    simp [this]
  | succ q ih =>
    have hq : (q + 1) * n = q * n + n := by rw [Nat.add_mul, Nat.one_mul]
    have hl : (bs.take n).length = n := by simp; omega
    have hr : (bs.drop n).length = q * n := by simp; omega
    conv_lhs => rw [← List.take_append_drop n bs]
    rw [chunks_append hn hl, List.flatten_cons, ih _ hr, List.take_append_drop]

end Sys2Proof.Machine
end

