-- ==== Sys2Proof/Laws/Memory.lean ====
section
/-! SUPPORT. Memory: reading after writing, the canonical form, and what both say of the RAM bytes of a
state. -/

namespace Sys2Proof.Machine

/-! ### Reading after writing -/

theorem Memory.get?_append (m n : Memory) (a : Nat) :
    Memory.get? (m ++ n) a = (Memory.get? m a).or (Memory.get? n a) := by
  induction m with
  | nil => simp [Memory.get?]
  | cons c m ih =>
    simp only [List.cons_append, Memory.get?]
    split
    · simp
    · exact ih

theorem Memory.get?_filter (p : Nat → Bool) (m : Memory) (a : Nat) :
    Memory.get? (m.filter (fun c => p c.1)) a = if p a then Memory.get? m a else none := by
  induction m with
  | nil => simp [Memory.get?]
  | cons c m ih =>
    by_cases hp : p c.1 = true
    · rw [List.filter_cons_of_pos (p := fun c : Host.Cell => p c.1) hp]
      simp only [Memory.get?, ih]
      by_cases hc : c.1 = a
      · subst hc; simp [hp]
      · simp [hc]
    · rw [List.filter_cons_of_neg (p := fun c : Host.Cell => p c.1) hp, ih]
      simp only [Memory.get?]
      by_cases hc : c.1 = a
      · subst hc; simp [hp]
      · simp [hc]

theorem Memory.get?_cells (base : Nat) (bs : List Byte) (a : Nat) :
    Memory.get? (Memory.cells base bs) a = if base ≤ a then bs[a - base]? else none := by
  induction bs generalizing base with
  | nil => simp [Memory.cells, Memory.get?]
  | cons b bs ih =>
    simp only [Memory.cells, Memory.get?, ih]
    by_cases h1 : base = a
    · subst h1; simp
    · by_cases h2 : base ≤ a
      · have h3 : base + 1 ≤ a := by omega
        have h4 : a - base = (a - (base + 1)) + 1 := by omega
        simp [h1, h2, h3, h4]
      · have h3 : ¬ base + 1 ≤ a := by omega
        simp [h1, h2, h3]

/-- A read after a write gives the byte written, inside it, and what was there before, outside it. -/
theorem Memory.get?_write (m : Memory) (base : Nat) (bs : List Byte) (a : Nat) :
    Memory.get? (Memory.write m base bs) a =
      if base ≤ a ∧ a < base + bs.length then bs[a - base]? else Memory.get? m a := by
  have h1 := Memory.get?_filter (fun k => decide (k < base)) m a
  have h2 := Memory.get?_filter (fun k => decide (base + bs.length ≤ k)) m a
  simp only [Memory.write, Memory.get?_append, Memory.get?_cells]
  rw [h1, h2]
  by_cases hb : base ≤ a
  · by_cases he : a < base + bs.length
    · have hlt : a - base < bs.length := by omega
      have h3 : ¬ a < base := by omega
      simp [hb, he, h3, hlt]
    · have h3 : ¬ a < base := by omega
      have h4 : base + bs.length ≤ a := by omega
      have h5 : bs[a - base]? = none := by simp; omega
      simp [hb, he, h3, h4, h5]
  · have h3 : a < base := by omega
    have h4 : ¬ base + bs.length ≤ a := by omega
    simp [hb, h3, h4]

/-! ### The canonical form -/

theorem Memory.mem_cells {base : Nat} {bs : List Byte} {c : Host.Cell}
    (h : c ∈ Memory.cells base bs) : base ≤ c.1 ∧ c.1 < base + bs.length := by
  induction bs generalizing base with
  | nil => simp [Memory.cells] at h
  | cons b bs ih =>
    rcases List.mem_cons.1 h with rfl | h
    · simp
    · have := ih h
      simp only [List.length_cons]
      omega

theorem Memory.cells_wf (base : Nat) (bs : List Byte) : Memory.wf (Memory.cells base bs) := by
  induction bs generalizing base with
  | nil => exact List.Pairwise.nil
  | cons b bs ih =>
    refine List.Pairwise.cons (fun c hc => ?_) (ih (base + 1))
    have := Memory.mem_cells hc
    show base < c.1
    omega

/-- The cells of a memory after a write: old ones outside the write, and the ones written. -/
theorem Memory.mem_write {m : Memory} {base : Nat} {bs : List Byte} {c : Host.Cell}
    (h : c ∈ Memory.write m base bs) : c ∈ m ∨ (base ≤ c.1 ∧ c.1 < base + bs.length) := by
  simp only [Memory.write, List.mem_append, List.mem_filter] at h
  rcases h with (⟨h, -⟩ | h) | ⟨h, -⟩
  · exact .inl h
  · exact .inr (Memory.mem_cells h)
  · exact .inl h

/-- A write keeps the canonical form. -/
theorem Memory.write_wf {m : Memory} (hm : Memory.wf m) (base : Nat) (bs : List Byte) :
    Memory.wf (Memory.write m base bs) := by
  refine List.pairwise_append.2 ⟨List.pairwise_append.2 ⟨hm.filter _, Memory.cells_wf _ _, ?_⟩,
    hm.filter _, ?_⟩
  · intro x hx y hy
    have h1 := (List.mem_filter.1 hx).2
    have h2 := Memory.mem_cells hy
    simp only [decide_eq_true_eq] at h1
    omega
  · intro x hx y hy
    have h2 := (List.mem_filter.1 hy).2
    simp only [decide_eq_true_eq] at h2
    rcases List.mem_append.1 hx with hx | hx
    · have h1 := (List.mem_filter.1 hx).2
      simp only [decide_eq_true_eq] at h1
      omega
    · have h1 := Memory.mem_cells hx
      omega

theorem Memory.get?_eq_none_of_lt {m : Memory} {a : Nat} (h : ∀ c ∈ m, a < c.1) :
    Memory.get? m a = none := by
  induction m with
  | nil => rfl
  | cons c m ih =>
    have h1 := h c (by simp)
    have h2 : ¬ c.1 = a := by omega
    simp [Memory.get?, h2, ih (fun d hd => h d (by simp [hd]))]

/-- Two memories in canonical form that read the same are the same data. -/
theorem Memory.eq_of_get?_eq {m n : Memory} (hm : Memory.wf m) (hn : Memory.wf n)
    (h : ∀ a, Memory.get? m a = Memory.get? n a) : m = n := by
  induction m generalizing n with
  | nil =>
    cases n with
    | nil => rfl
    | cons d n => simpa [Memory.get?] using h d.1
  | cons c m ih =>
    obtain ⟨hc, hm'⟩ := List.pairwise_cons.1 hm
    cases n with
    | nil => simpa [Memory.get?] using h c.1
    | cons d n =>
      obtain ⟨hd, hn'⟩ := List.pairwise_cons.1 hn
      have hkey : c.1 = d.1 := by
        by_contra hne
        rcases Nat.lt_or_gt_of_ne hne with hlt | hgt
        · have e := h c.1
          have hno : Memory.get? n c.1 = none :=
            Memory.get?_eq_none_of_lt (fun x hx => Nat.lt_trans hlt (hd x hx))
          have hdc : ¬ d.1 = c.1 := by omega
          simp [Memory.get?, hno, hdc] at e
        · have e := h d.1
          have hno : Memory.get? m d.1 = none :=
            Memory.get?_eq_none_of_lt (fun x hx => Nat.lt_trans hgt (hc x hx))
          have hcd : ¬ c.1 = d.1 := hne
          simp [Memory.get?, hno, hcd] at e
      have hval : c.2 = d.2 := by
        have e := h c.1
        have hdc : d.1 = c.1 := hkey.symm
        simpa [Memory.get?, hdc] using e
      have htail : m = n := by
        apply ih hm' hn'
        intro a
        by_cases ha : c.1 = a
        · subst ha
          rw [Memory.get?_eq_none_of_lt hc,
            Memory.get?_eq_none_of_lt (fun x hx => hkey ▸ hd x hx)]
        · have e := h a
          have hda : ¬ d.1 = a := by rw [← hkey]; exact ha
          simpa [Memory.get?, ha, hda] using e
      rw [htail, Prod.ext hkey hval]

/-! ### The RAM bytes of a state -/

/-- The RAM bytes of a state depend on its memory and on the reset draw alone. -/
theorem ramByte_congr {s t : State} (hm : t.mem = s.mem) (he : t.epoch = s.epoch) (a : Nat) :
    t.ramByte a = s.ramByte a := by simp only [State.ramByte, hm, he]

/-- The RAM bytes after a write: the bytes written, inside it, and those before, outside it. -/
theorem ramByte_of_write {s t : State} {base : Nat} {bs : List Byte}
    (hm : t.mem = Memory.write s.mem base bs) (he : t.epoch = s.epoch) (a : Nat) :
    t.ramByte a = if base ≤ a ∧ a < base + bs.length then byteAt bs (a - base) else s.ramByte a := by
  simp only [State.ramByte, hm, he, Memory.get?_write]
  by_cases h : base ≤ a ∧ a < base + bs.length
  · have hlt : a - base < bs.length := by omega
    simp [h, byteAt, hlt]
  · simp only [if_neg h]

@[simp] theorem ramByte_store (s : State) (base : Nat) (bs : List Byte) (a : Nat) :
    (s.store base bs).ramByte a =
      if base ≤ a ∧ a < base + bs.length then byteAt bs (a - base) else s.ramByte a :=
  ramByte_of_write (s := s) (t := s.store base bs) rfl rfl a

@[simp] theorem ramBytes_length (s : State) (base n : Nat) : (s.ramBytes base n).length = n := by
  simp [State.ramBytes]

theorem ramBytes_congr {s t : State} {base n : Nat}
    (h : ∀ k, k < n → t.ramByte (base + k) = s.ramByte (base + k)) :
    t.ramBytes base n = s.ramBytes base n := by
  simp only [State.ramBytes]
  apply List.map_congr_left
  intro k hk
  exact h k (List.mem_range.1 hk)

/-- Bytes that read back one by one read back as a string. -/
theorem ramBytes_eq {s : State} {base : Nat} {bs : List Byte}
    (h : ∀ k, k < bs.length → s.ramByte (base + k) = byteAt bs k) :
    s.ramBytes base bs.length = bs := by
  apply List.ext_getElem (by simp)
  intro k h1 h2
  simp [State.ramBytes, h k h2, byteAt, h2]

/-- A string written reads back. -/
theorem ramBytes_of_write {s t : State} {base : Nat} {bs : List Byte}
    (hm : t.mem = Memory.write s.mem base bs) (he : t.epoch = s.epoch) :
    t.ramBytes base bs.length = bs := by
  apply ramBytes_eq
  intro k hk
  rw [ramByte_of_write hm he, if_pos ⟨by omega, by omega⟩, Nat.add_sub_cancel_left]

/-- A slice of a string in RAM is the string at the slice's place. -/
theorem ramBytes_slice (s : State) (base n off k : Nat) (h : off + k ≤ n) :
    ((s.ramBytes base n).drop off).take k = s.ramBytes (base + off) k := by
  apply List.ext_getElem
  · simp; omega
  · intro i h1 h2
    simp [State.ramBytes, Nat.add_assoc]

/-- A sequence of 64-bit values written reads back value by value. -/
theorem ramRead_of_write_dwords {s t : State} {base : Nat} {xs : List DWord}
    (hm : t.mem = Memory.write s.mem base (dwordBytes xs)) (he : t.epoch = s.epoch) {i : Nat}
    (hi : i < xs.length) : t.ramRead (base + 8 * i) 8 = (xs[i]).toNat := by
  rw [State.ramRead, ← ramBytes_slice t base (dwordBytes xs).length (8 * i) 8 (by simp; omega),
    ramBytes_of_write hm he, dwordBytes_slice xs i hi, leNat_leBytes_dword]

end Sys2Proof.Machine
end

