-- ==== Sys2Proof/Laws/State.lean ====
section
/-! SUPPORT. One lemma for each field of State and each named update of it, true by `rfl`, so that no
proof unfolds a record update. -/

namespace Sys2Proof.Machine

/-! ### finish (`30_encoding.md` R94) -/

@[simp] theorem finish_cfg (k : ErrCode) (s : State) : (finish k s).cfg = s.cfg := rfl
@[simp] theorem finish_inFlight (k : ErrCode) (s : State) : (finish k s).inFlight = none := rfl
@[simp] theorem finish_done (k : ErrCode) (s : State) : (finish k s).done = true := rfl
@[simp] theorem finish_err (k : ErrCode) (s : State) : (finish k s).err = decide (k ≠ .success) := rfl
@[simp] theorem finish_schedValid (k : ErrCode) (s : State) : (finish k s).schedValid = s.schedValid := rfl
@[simp] theorem finish_periodFound (k : ErrCode) (s : State) : (finish k s).periodFound = s.periodFound := rfl
@[simp] theorem finish_ovr (k : ErrCode) (s : State) : (finish k s).ovr = s.ovr := rfl
@[simp] theorem finish_errCode (k : ErrCode) (s : State) : (finish k s).errCode = k := rfl
@[simp] theorem finish_lastOp (k : ErrCode) (s : State) : (finish k s).lastOp = s.lastOp := rfl
@[simp] theorem finish_ie (k : ErrCode) (s : State) : (finish k s).ie = s.ie := rfl
@[simp] theorem finish_rc5W (k : ErrCode) (s : State) : (finish k s).rc5W = s.rc5W := rfl
@[simp] theorem finish_rc5R (k : ErrCode) (s : State) : (finish k s).rc5R = s.rc5R := rfl
@[simp] theorem finish_rc5B (k : ErrCode) (s : State) : (finish k s).rc5B = s.rc5B := rfl
@[simp] theorem finish_keyLen (k : ErrCode) (s : State) : (finish k s).keyLen = s.keyLen := rfl
@[simp] theorem finish_inLen (k : ErrCode) (s : State) : (finish k s).inLen = s.inLen := rfl
@[simp] theorem finish_outLen (k : ErrCode) (s : State) : (finish k s).outLen = s.outLen := rfl
@[simp] theorem finish_schedW (k : ErrCode) (s : State) : (finish k s).schedW = s.schedW := rfl
@[simp] theorem finish_schedR (k : ErrCode) (s : State) : (finish k s).schedR = s.schedR := rfl
@[simp] theorem finish_lcgN (k : ErrCode) (s : State) : (finish k s).lcgN = s.lcgN := rfl
@[simp] theorem finish_period (k : ErrCode) (s : State) : (finish k s).period = s.period := rfl
@[simp] theorem finish_lcg (k : ErrCode) (s : State) : (finish k s).lcg = s.lcg := rfl
@[simp] theorem finish_ivp (k : ErrCode) (s : State) : (finish k s).ivp = s.ivp := rfl
@[simp] theorem finish_blkA (k : ErrCode) (s : State) : (finish k s).blkA = s.blkA := rfl
@[simp] theorem finish_blkB (k : ErrCode) (s : State) : (finish k s).blkB = s.blkB := rfl
@[simp] theorem finish_iv (k : ErrCode) (s : State) : (finish k s).iv = s.iv := rfl
@[simp] theorem finish_digest (k : ErrCode) (s : State) : (finish k s).digest = s.digest := rfl
@[simp] theorem finish_keyWords (k : ErrCode) (s : State) : (finish k s).keyWords = s.keyWords := rfl
@[simp] theorem finish_mem (k : ErrCode) (s : State) : (finish k s).mem = s.mem := rfl
@[simp] theorem finish_epoch (k : ErrCode) (s : State) : (finish k s).epoch = s.epoch := rfl
@[simp] theorem finish_draws (k : ErrCode) (s : State) : (finish k s).draws = s.draws := rfl
@[simp] theorem finish_script (k : ErrCode) (s : State) : (finish k s).script = s.script := rfl
@[simp] theorem finish_resp (k : ErrCode) (s : State) : (finish k s).resp = s.resp := rfl

/-! ### accept (`30_encoding.md` R92) -/

@[simp] theorem accept_cfg (v : Word) (s : State) : (accept v s).cfg = s.cfg := rfl
@[simp] theorem accept_inFlight (v : Word) (s : State) : (accept v s).inFlight = some v := rfl
@[simp] theorem accept_done (v : Word) (s : State) : (accept v s).done = false := rfl
@[simp] theorem accept_err (v : Word) (s : State) : (accept v s).err = false := rfl
@[simp] theorem accept_schedValid (v : Word) (s : State) : (accept v s).schedValid = s.schedValid := rfl
@[simp] theorem accept_periodFound (v : Word) (s : State) : (accept v s).periodFound = s.periodFound := rfl
@[simp] theorem accept_ovr (v : Word) (s : State) : (accept v s).ovr = s.ovr := rfl
@[simp] theorem accept_errCode (v : Word) (s : State) : (accept v s).errCode = .success := rfl
@[simp] theorem accept_lastOp (v : Word) (s : State) : (accept v s).lastOp = v.extractLsb' 0 8 := rfl
@[simp] theorem accept_ie (v : Word) (s : State) : (accept v s).ie = s.ie := rfl
@[simp] theorem accept_rc5W (v : Word) (s : State) : (accept v s).rc5W = s.rc5W := rfl
@[simp] theorem accept_rc5R (v : Word) (s : State) : (accept v s).rc5R = s.rc5R := rfl
@[simp] theorem accept_rc5B (v : Word) (s : State) : (accept v s).rc5B = s.rc5B := rfl
@[simp] theorem accept_keyLen (v : Word) (s : State) : (accept v s).keyLen = s.keyLen := rfl
@[simp] theorem accept_inLen (v : Word) (s : State) : (accept v s).inLen = s.inLen := rfl
@[simp] theorem accept_outLen (v : Word) (s : State) : (accept v s).outLen = s.outLen := rfl
@[simp] theorem accept_schedW (v : Word) (s : State) : (accept v s).schedW = s.schedW := rfl
@[simp] theorem accept_schedR (v : Word) (s : State) : (accept v s).schedR = s.schedR := rfl
@[simp] theorem accept_lcgN (v : Word) (s : State) : (accept v s).lcgN = s.lcgN := rfl
@[simp] theorem accept_period (v : Word) (s : State) : (accept v s).period = s.period := rfl
@[simp] theorem accept_lcg (v : Word) (s : State) : (accept v s).lcg = s.lcg := rfl
@[simp] theorem accept_ivp (v : Word) (s : State) : (accept v s).ivp = s.ivp := rfl
@[simp] theorem accept_blkA (v : Word) (s : State) : (accept v s).blkA = s.blkA := rfl
@[simp] theorem accept_blkB (v : Word) (s : State) : (accept v s).blkB = s.blkB := rfl
@[simp] theorem accept_iv (v : Word) (s : State) : (accept v s).iv = s.iv := rfl
@[simp] theorem accept_digest (v : Word) (s : State) : (accept v s).digest = s.digest := rfl
@[simp] theorem accept_keyWords (v : Word) (s : State) : (accept v s).keyWords = s.keyWords := rfl
@[simp] theorem accept_mem (v : Word) (s : State) : (accept v s).mem = s.mem := rfl
@[simp] theorem accept_epoch (v : Word) (s : State) : (accept v s).epoch = s.epoch := rfl
@[simp] theorem accept_draws (v : Word) (s : State) : (accept v s).draws = s.draws := rfl
@[simp] theorem accept_script (v : Word) (s : State) : (accept v s).script = s.script := rfl
@[simp] theorem accept_resp (v : Word) (s : State) : (accept v s).resp = s.resp := rfl

/-! ### acknowledge (`60_exceptions.md` R245) -/

@[simp] theorem acknowledge_cfg (v : Word) (s : State) : (acknowledge v s).cfg = s.cfg := rfl
@[simp] theorem acknowledge_inFlight (v : Word) (s : State) : (acknowledge v s).inFlight = s.inFlight := rfl
@[simp] theorem acknowledge_done (v : Word) (s : State) : (acknowledge v s).done = (s.done && !v.getLsbD 1) := rfl
@[simp] theorem acknowledge_err (v : Word) (s : State) : (acknowledge v s).err = (s.err && !v.getLsbD 2) := rfl
@[simp] theorem acknowledge_schedValid (v : Word) (s : State) : (acknowledge v s).schedValid = s.schedValid := rfl
@[simp] theorem acknowledge_periodFound (v : Word) (s : State) : (acknowledge v s).periodFound = s.periodFound := rfl
@[simp] theorem acknowledge_ovr (v : Word) (s : State) : (acknowledge v s).ovr = (s.ovr && !v.getLsbD 5) := rfl
@[simp] theorem acknowledge_errCode (v : Word) (s : State) : (acknowledge v s).errCode = (if v.getLsbD 2 then .success else s.errCode) := rfl
@[simp] theorem acknowledge_lastOp (v : Word) (s : State) : (acknowledge v s).lastOp = s.lastOp := rfl
@[simp] theorem acknowledge_ie (v : Word) (s : State) : (acknowledge v s).ie = s.ie := rfl
@[simp] theorem acknowledge_rc5W (v : Word) (s : State) : (acknowledge v s).rc5W = s.rc5W := rfl
@[simp] theorem acknowledge_rc5R (v : Word) (s : State) : (acknowledge v s).rc5R = s.rc5R := rfl
@[simp] theorem acknowledge_rc5B (v : Word) (s : State) : (acknowledge v s).rc5B = s.rc5B := rfl
@[simp] theorem acknowledge_keyLen (v : Word) (s : State) : (acknowledge v s).keyLen = s.keyLen := rfl
@[simp] theorem acknowledge_inLen (v : Word) (s : State) : (acknowledge v s).inLen = s.inLen := rfl
@[simp] theorem acknowledge_outLen (v : Word) (s : State) : (acknowledge v s).outLen = s.outLen := rfl
@[simp] theorem acknowledge_schedW (v : Word) (s : State) : (acknowledge v s).schedW = s.schedW := rfl
@[simp] theorem acknowledge_schedR (v : Word) (s : State) : (acknowledge v s).schedR = s.schedR := rfl
@[simp] theorem acknowledge_lcgN (v : Word) (s : State) : (acknowledge v s).lcgN = s.lcgN := rfl
@[simp] theorem acknowledge_period (v : Word) (s : State) : (acknowledge v s).period = s.period := rfl
@[simp] theorem acknowledge_lcg (v : Word) (s : State) : (acknowledge v s).lcg = s.lcg := rfl
@[simp] theorem acknowledge_ivp (v : Word) (s : State) : (acknowledge v s).ivp = s.ivp := rfl
@[simp] theorem acknowledge_blkA (v : Word) (s : State) : (acknowledge v s).blkA = s.blkA := rfl
@[simp] theorem acknowledge_blkB (v : Word) (s : State) : (acknowledge v s).blkB = s.blkB := rfl
@[simp] theorem acknowledge_iv (v : Word) (s : State) : (acknowledge v s).iv = s.iv := rfl
@[simp] theorem acknowledge_digest (v : Word) (s : State) : (acknowledge v s).digest = s.digest := rfl
@[simp] theorem acknowledge_keyWords (v : Word) (s : State) : (acknowledge v s).keyWords = s.keyWords := rfl
@[simp] theorem acknowledge_mem (v : Word) (s : State) : (acknowledge v s).mem = s.mem := rfl
@[simp] theorem acknowledge_epoch (v : Word) (s : State) : (acknowledge v s).epoch = s.epoch := rfl
@[simp] theorem acknowledge_draws (v : Word) (s : State) : (acknowledge v s).draws = s.draws := rfl
@[simp] theorem acknowledge_script (v : Word) (s : State) : (acknowledge v s).script = s.script := rfl
@[simp] theorem acknowledge_resp (v : Word) (s : State) : (acknowledge v s).resp = s.resp := rfl

/-! ### resetCore (`70_reset_and_hazards.md` R280) -/

@[simp] theorem resetCore_cfg (s : State) : (resetCore s).cfg = s.cfg := rfl
@[simp] theorem resetCore_inFlight (s : State) : (resetCore s).inFlight = none := rfl
@[simp] theorem resetCore_done (s : State) : (resetCore s).done = false := rfl
@[simp] theorem resetCore_err (s : State) : (resetCore s).err = false := rfl
@[simp] theorem resetCore_schedValid (s : State) : (resetCore s).schedValid = false := rfl
@[simp] theorem resetCore_periodFound (s : State) : (resetCore s).periodFound = false := rfl
@[simp] theorem resetCore_ovr (s : State) : (resetCore s).ovr = false := rfl
@[simp] theorem resetCore_errCode (s : State) : (resetCore s).errCode = .success := rfl
@[simp] theorem resetCore_lastOp (s : State) : (resetCore s).lastOp = 0 := rfl
@[simp] theorem resetCore_ie (s : State) : (resetCore s).ie = false := rfl
@[simp] theorem resetCore_rc5W (s : State) : (resetCore s).rc5W = 0 := rfl
@[simp] theorem resetCore_rc5R (s : State) : (resetCore s).rc5R = 0 := rfl
@[simp] theorem resetCore_rc5B (s : State) : (resetCore s).rc5B = 0 := rfl
@[simp] theorem resetCore_keyLen (s : State) : (resetCore s).keyLen = 0 := rfl
@[simp] theorem resetCore_inLen (s : State) : (resetCore s).inLen = 0 := rfl
@[simp] theorem resetCore_outLen (s : State) : (resetCore s).outLen = 0 := rfl
@[simp] theorem resetCore_schedW (s : State) : (resetCore s).schedW = 0 := rfl
@[simp] theorem resetCore_schedR (s : State) : (resetCore s).schedR = 0 := rfl
@[simp] theorem resetCore_lcgN (s : State) : (resetCore s).lcgN = 0 := rfl
@[simp] theorem resetCore_period (s : State) : (resetCore s).period = 0 := rfl
@[simp] theorem resetCore_lcg (s : State) : (resetCore s).lcg = LcgParams.zero := rfl
@[simp] theorem resetCore_ivp (s : State) : (resetCore s).ivp = LcgParams.zero := rfl
@[simp] theorem resetCore_blkA (s : State) : (resetCore s).blkA = 0 := rfl
@[simp] theorem resetCore_blkB (s : State) : (resetCore s).blkB = 0 := rfl
@[simp] theorem resetCore_iv (s : State) : (resetCore s).iv = Quad.zero := rfl
@[simp] theorem resetCore_digest (s : State) : (resetCore s).digest = Quad.zero := rfl
@[simp] theorem resetCore_keyWords (s : State) : (resetCore s).keyWords = [] := rfl
@[simp] theorem resetCore_mem (s : State) : (resetCore s).mem = [] := rfl
@[simp] theorem resetCore_epoch (s : State) : (resetCore s).epoch = s.epoch + 1 := rfl
@[simp] theorem resetCore_draws (s : State) : (resetCore s).draws = s.draws := rfl
@[simp] theorem resetCore_script (s : State) : (resetCore s).script = s.script := rfl
@[simp] theorem resetCore_resp (s : State) : (resetCore s).resp = s.resp := rfl

/-! ### store (`00_scope.md` section 5, MemWrite) -/

@[simp] theorem store_cfg (s : State) (base : Nat) (bs : List Byte) : (s.store base bs).cfg = s.cfg := rfl
@[simp] theorem store_inFlight (s : State) (base : Nat) (bs : List Byte) : (s.store base bs).inFlight = s.inFlight := rfl
@[simp] theorem store_done (s : State) (base : Nat) (bs : List Byte) : (s.store base bs).done = s.done := rfl
@[simp] theorem store_err (s : State) (base : Nat) (bs : List Byte) : (s.store base bs).err = s.err := rfl
@[simp] theorem store_schedValid (s : State) (base : Nat) (bs : List Byte) : (s.store base bs).schedValid = s.schedValid := rfl
@[simp] theorem store_periodFound (s : State) (base : Nat) (bs : List Byte) : (s.store base bs).periodFound = s.periodFound := rfl
@[simp] theorem store_ovr (s : State) (base : Nat) (bs : List Byte) : (s.store base bs).ovr = s.ovr := rfl
@[simp] theorem store_errCode (s : State) (base : Nat) (bs : List Byte) : (s.store base bs).errCode = s.errCode := rfl
@[simp] theorem store_lastOp (s : State) (base : Nat) (bs : List Byte) : (s.store base bs).lastOp = s.lastOp := rfl
@[simp] theorem store_ie (s : State) (base : Nat) (bs : List Byte) : (s.store base bs).ie = s.ie := rfl
@[simp] theorem store_rc5W (s : State) (base : Nat) (bs : List Byte) : (s.store base bs).rc5W = s.rc5W := rfl
@[simp] theorem store_rc5R (s : State) (base : Nat) (bs : List Byte) : (s.store base bs).rc5R = s.rc5R := rfl
@[simp] theorem store_rc5B (s : State) (base : Nat) (bs : List Byte) : (s.store base bs).rc5B = s.rc5B := rfl
@[simp] theorem store_keyLen (s : State) (base : Nat) (bs : List Byte) : (s.store base bs).keyLen = s.keyLen := rfl
@[simp] theorem store_inLen (s : State) (base : Nat) (bs : List Byte) : (s.store base bs).inLen = s.inLen := rfl
@[simp] theorem store_outLen (s : State) (base : Nat) (bs : List Byte) : (s.store base bs).outLen = s.outLen := rfl
@[simp] theorem store_schedW (s : State) (base : Nat) (bs : List Byte) : (s.store base bs).schedW = s.schedW := rfl
@[simp] theorem store_schedR (s : State) (base : Nat) (bs : List Byte) : (s.store base bs).schedR = s.schedR := rfl
@[simp] theorem store_lcgN (s : State) (base : Nat) (bs : List Byte) : (s.store base bs).lcgN = s.lcgN := rfl
@[simp] theorem store_period (s : State) (base : Nat) (bs : List Byte) : (s.store base bs).period = s.period := rfl
@[simp] theorem store_lcg (s : State) (base : Nat) (bs : List Byte) : (s.store base bs).lcg = s.lcg := rfl
@[simp] theorem store_ivp (s : State) (base : Nat) (bs : List Byte) : (s.store base bs).ivp = s.ivp := rfl
@[simp] theorem store_blkA (s : State) (base : Nat) (bs : List Byte) : (s.store base bs).blkA = s.blkA := rfl
@[simp] theorem store_blkB (s : State) (base : Nat) (bs : List Byte) : (s.store base bs).blkB = s.blkB := rfl
@[simp] theorem store_iv (s : State) (base : Nat) (bs : List Byte) : (s.store base bs).iv = s.iv := rfl
@[simp] theorem store_digest (s : State) (base : Nat) (bs : List Byte) : (s.store base bs).digest = s.digest := rfl
@[simp] theorem store_keyWords (s : State) (base : Nat) (bs : List Byte) : (s.store base bs).keyWords = s.keyWords := rfl
@[simp] theorem store_mem (s : State) (base : Nat) (bs : List Byte) : (s.store base bs).mem = Memory.write s.mem base bs := rfl
@[simp] theorem store_epoch (s : State) (base : Nat) (bs : List Byte) : (s.store base bs).epoch = s.epoch := rfl
@[simp] theorem store_draws (s : State) (base : Nat) (bs : List Byte) : (s.store base bs).draws = s.draws := rfl
@[simp] theorem store_script (s : State) (base : Nat) (bs : List Byte) : (s.store base bs).script = s.script := rfl
@[simp] theorem store_resp (s : State) (base : Nat) (bs : List Byte) : (s.store base bs).resp = s.resp := rfl

/-! ### publishSchedule (`42_rc5_key_schedule.md` R166) -/

@[simp] theorem publishSchedule_cfg (p : Rc5Params) (s : State) : (publishSchedule p s).cfg = s.cfg := rfl
@[simp] theorem publishSchedule_inFlight (p : Rc5Params) (s : State) : (publishSchedule p s).inFlight = s.inFlight := rfl
@[simp] theorem publishSchedule_done (p : Rc5Params) (s : State) : (publishSchedule p s).done = s.done := rfl
@[simp] theorem publishSchedule_err (p : Rc5Params) (s : State) : (publishSchedule p s).err = s.err := rfl
@[simp] theorem publishSchedule_schedValid (p : Rc5Params) (s : State) : (publishSchedule p s).schedValid = true := rfl
@[simp] theorem publishSchedule_periodFound (p : Rc5Params) (s : State) : (publishSchedule p s).periodFound = s.periodFound := rfl
@[simp] theorem publishSchedule_ovr (p : Rc5Params) (s : State) : (publishSchedule p s).ovr = s.ovr := rfl
@[simp] theorem publishSchedule_errCode (p : Rc5Params) (s : State) : (publishSchedule p s).errCode = s.errCode := rfl
@[simp] theorem publishSchedule_lastOp (p : Rc5Params) (s : State) : (publishSchedule p s).lastOp = s.lastOp := rfl
@[simp] theorem publishSchedule_ie (p : Rc5Params) (s : State) : (publishSchedule p s).ie = s.ie := rfl
@[simp] theorem publishSchedule_rc5W (p : Rc5Params) (s : State) : (publishSchedule p s).rc5W = s.rc5W := rfl
@[simp] theorem publishSchedule_rc5R (p : Rc5Params) (s : State) : (publishSchedule p s).rc5R = s.rc5R := rfl
@[simp] theorem publishSchedule_rc5B (p : Rc5Params) (s : State) : (publishSchedule p s).rc5B = s.rc5B := rfl
@[simp] theorem publishSchedule_keyLen (p : Rc5Params) (s : State) : (publishSchedule p s).keyLen = s.keyLen := rfl
@[simp] theorem publishSchedule_inLen (p : Rc5Params) (s : State) : (publishSchedule p s).inLen = s.inLen := rfl
@[simp] theorem publishSchedule_outLen (p : Rc5Params) (s : State) : (publishSchedule p s).outLen = s.outLen := rfl
@[simp] theorem publishSchedule_schedW (p : Rc5Params) (s : State) : (publishSchedule p s).schedW = BitVec.ofNat 32 p.ws.bits := rfl
@[simp] theorem publishSchedule_schedR (p : Rc5Params) (s : State) : (publishSchedule p s).schedR = BitVec.ofNat 32 p.r := rfl
@[simp] theorem publishSchedule_lcgN (p : Rc5Params) (s : State) : (publishSchedule p s).lcgN = s.lcgN := rfl
@[simp] theorem publishSchedule_period (p : Rc5Params) (s : State) : (publishSchedule p s).period = s.period := rfl
@[simp] theorem publishSchedule_lcg (p : Rc5Params) (s : State) : (publishSchedule p s).lcg = s.lcg := rfl
@[simp] theorem publishSchedule_ivp (p : Rc5Params) (s : State) : (publishSchedule p s).ivp = s.ivp := rfl
@[simp] theorem publishSchedule_blkA (p : Rc5Params) (s : State) : (publishSchedule p s).blkA = s.blkA := rfl
@[simp] theorem publishSchedule_blkB (p : Rc5Params) (s : State) : (publishSchedule p s).blkB = s.blkB := rfl
@[simp] theorem publishSchedule_iv (p : Rc5Params) (s : State) : (publishSchedule p s).iv = s.iv := rfl
@[simp] theorem publishSchedule_digest (p : Rc5Params) (s : State) : (publishSchedule p s).digest = s.digest := rfl
@[simp] theorem publishSchedule_keyWords (p : Rc5Params) (s : State) : (publishSchedule p s).keyWords = (s.expansion p).L.map (fun x => x.setWidth 64) := rfl
@[simp] theorem publishSchedule_mem (p : Rc5Params) (s : State) : (publishSchedule p s).mem = Memory.write s.mem sBase (tableBytes (s.table p)) := rfl
@[simp] theorem publishSchedule_epoch (p : Rc5Params) (s : State) : (publishSchedule p s).epoch = s.epoch := rfl
@[simp] theorem publishSchedule_draws (p : Rc5Params) (s : State) : (publishSchedule p s).draws = s.draws := rfl
@[simp] theorem publishSchedule_script (p : Rc5Params) (s : State) : (publishSchedule p s).script = s.script := rfl
@[simp] theorem publishSchedule_resp (p : Rc5Params) (s : State) : (publishSchedule p s).resp = s.resp := rfl

/-! ### writeBlock (`43_rc5_block.md` R183, R184) -/

@[simp] theorem writeBlock_cfg {w : Nat} (x : BitVec w × BitVec w) (s : State) : (writeBlock x s).cfg = s.cfg := rfl
@[simp] theorem writeBlock_inFlight {w : Nat} (x : BitVec w × BitVec w) (s : State) : (writeBlock x s).inFlight = s.inFlight := rfl
@[simp] theorem writeBlock_done {w : Nat} (x : BitVec w × BitVec w) (s : State) : (writeBlock x s).done = s.done := rfl
@[simp] theorem writeBlock_err {w : Nat} (x : BitVec w × BitVec w) (s : State) : (writeBlock x s).err = s.err := rfl
@[simp] theorem writeBlock_schedValid {w : Nat} (x : BitVec w × BitVec w) (s : State) : (writeBlock x s).schedValid = s.schedValid := rfl
@[simp] theorem writeBlock_periodFound {w : Nat} (x : BitVec w × BitVec w) (s : State) : (writeBlock x s).periodFound = s.periodFound := rfl
@[simp] theorem writeBlock_ovr {w : Nat} (x : BitVec w × BitVec w) (s : State) : (writeBlock x s).ovr = s.ovr := rfl
@[simp] theorem writeBlock_errCode {w : Nat} (x : BitVec w × BitVec w) (s : State) : (writeBlock x s).errCode = s.errCode := rfl
@[simp] theorem writeBlock_lastOp {w : Nat} (x : BitVec w × BitVec w) (s : State) : (writeBlock x s).lastOp = s.lastOp := rfl
@[simp] theorem writeBlock_ie {w : Nat} (x : BitVec w × BitVec w) (s : State) : (writeBlock x s).ie = s.ie := rfl
@[simp] theorem writeBlock_rc5W {w : Nat} (x : BitVec w × BitVec w) (s : State) : (writeBlock x s).rc5W = s.rc5W := rfl
@[simp] theorem writeBlock_rc5R {w : Nat} (x : BitVec w × BitVec w) (s : State) : (writeBlock x s).rc5R = s.rc5R := rfl
@[simp] theorem writeBlock_rc5B {w : Nat} (x : BitVec w × BitVec w) (s : State) : (writeBlock x s).rc5B = s.rc5B := rfl
@[simp] theorem writeBlock_keyLen {w : Nat} (x : BitVec w × BitVec w) (s : State) : (writeBlock x s).keyLen = s.keyLen := rfl
@[simp] theorem writeBlock_inLen {w : Nat} (x : BitVec w × BitVec w) (s : State) : (writeBlock x s).inLen = s.inLen := rfl
@[simp] theorem writeBlock_outLen {w : Nat} (x : BitVec w × BitVec w) (s : State) : (writeBlock x s).outLen = s.outLen := rfl
@[simp] theorem writeBlock_schedW {w : Nat} (x : BitVec w × BitVec w) (s : State) : (writeBlock x s).schedW = s.schedW := rfl
@[simp] theorem writeBlock_schedR {w : Nat} (x : BitVec w × BitVec w) (s : State) : (writeBlock x s).schedR = s.schedR := rfl
@[simp] theorem writeBlock_lcgN {w : Nat} (x : BitVec w × BitVec w) (s : State) : (writeBlock x s).lcgN = s.lcgN := rfl
@[simp] theorem writeBlock_period {w : Nat} (x : BitVec w × BitVec w) (s : State) : (writeBlock x s).period = s.period := rfl
@[simp] theorem writeBlock_lcg {w : Nat} (x : BitVec w × BitVec w) (s : State) : (writeBlock x s).lcg = s.lcg := rfl
@[simp] theorem writeBlock_ivp {w : Nat} (x : BitVec w × BitVec w) (s : State) : (writeBlock x s).ivp = s.ivp := rfl
@[simp] theorem writeBlock_blkA {w : Nat} (x : BitVec w × BitVec w) (s : State) : (writeBlock x s).blkA = x.1.setWidth 64 := rfl
@[simp] theorem writeBlock_blkB {w : Nat} (x : BitVec w × BitVec w) (s : State) : (writeBlock x s).blkB = x.2.setWidth 64 := rfl
@[simp] theorem writeBlock_iv {w : Nat} (x : BitVec w × BitVec w) (s : State) : (writeBlock x s).iv = s.iv := rfl
@[simp] theorem writeBlock_digest {w : Nat} (x : BitVec w × BitVec w) (s : State) : (writeBlock x s).digest = s.digest := rfl
@[simp] theorem writeBlock_keyWords {w : Nat} (x : BitVec w × BitVec w) (s : State) : (writeBlock x s).keyWords = s.keyWords := rfl
@[simp] theorem writeBlock_mem {w : Nat} (x : BitVec w × BitVec w) (s : State) : (writeBlock x s).mem = s.mem := rfl
@[simp] theorem writeBlock_epoch {w : Nat} (x : BitVec w × BitVec w) (s : State) : (writeBlock x s).epoch = s.epoch := rfl
@[simp] theorem writeBlock_draws {w : Nat} (x : BitVec w × BitVec w) (s : State) : (writeBlock x s).draws = s.draws := rfl
@[simp] theorem writeBlock_script {w : Nat} (x : BitVec w × BitVec w) (s : State) : (writeBlock x s).script = s.script := rfl
@[simp] theorem writeBlock_resp {w : Nat} (x : BitVec w × BitVec w) (s : State) : (writeBlock x s).resp = s.resp := rfl

/-! ### submitted (log entry 5) -/

@[simp] theorem submitted_cfg (v : Word) (s : State) : (submitted v s).cfg = s.cfg := rfl
@[simp] theorem submitted_inFlight (v : Word) (s : State) : (submitted v s).inFlight = some v := rfl
@[simp] theorem submitted_done (v : Word) (s : State) : (submitted v s).done = false := rfl
@[simp] theorem submitted_err (v : Word) (s : State) : (submitted v s).err = false := rfl
@[simp] theorem submitted_schedValid (v : Word) (s : State) : (submitted v s).schedValid = s.schedValid := rfl
@[simp] theorem submitted_periodFound (v : Word) (s : State) : (submitted v s).periodFound = s.periodFound := rfl
@[simp] theorem submitted_ovr (v : Word) (s : State) : (submitted v s).ovr = s.ovr := rfl
@[simp] theorem submitted_errCode (v : Word) (s : State) : (submitted v s).errCode = .success := rfl
@[simp] theorem submitted_lastOp (v : Word) (s : State) : (submitted v s).lastOp = v.extractLsb' 0 8 := rfl
@[simp] theorem submitted_ie (v : Word) (s : State) : (submitted v s).ie = s.ie := rfl
@[simp] theorem submitted_rc5W (v : Word) (s : State) : (submitted v s).rc5W = s.rc5W := rfl
@[simp] theorem submitted_rc5R (v : Word) (s : State) : (submitted v s).rc5R = s.rc5R := rfl
@[simp] theorem submitted_rc5B (v : Word) (s : State) : (submitted v s).rc5B = s.rc5B := rfl
@[simp] theorem submitted_keyLen (v : Word) (s : State) : (submitted v s).keyLen = s.keyLen := rfl
@[simp] theorem submitted_inLen (v : Word) (s : State) : (submitted v s).inLen = s.inLen := rfl
@[simp] theorem submitted_outLen (v : Word) (s : State) : (submitted v s).outLen = s.outLen := rfl
@[simp] theorem submitted_schedW (v : Word) (s : State) : (submitted v s).schedW = s.schedW := rfl
@[simp] theorem submitted_schedR (v : Word) (s : State) : (submitted v s).schedR = s.schedR := rfl
@[simp] theorem submitted_lcgN (v : Word) (s : State) : (submitted v s).lcgN = s.lcgN := rfl
@[simp] theorem submitted_period (v : Word) (s : State) : (submitted v s).period = s.period := rfl
@[simp] theorem submitted_lcg (v : Word) (s : State) : (submitted v s).lcg = s.lcg := rfl
@[simp] theorem submitted_ivp (v : Word) (s : State) : (submitted v s).ivp = s.ivp := rfl
@[simp] theorem submitted_blkA (v : Word) (s : State) : (submitted v s).blkA = s.blkA := rfl
@[simp] theorem submitted_blkB (v : Word) (s : State) : (submitted v s).blkB = s.blkB := rfl
@[simp] theorem submitted_iv (v : Word) (s : State) : (submitted v s).iv = s.iv := rfl
@[simp] theorem submitted_digest (v : Word) (s : State) : (submitted v s).digest = s.digest := rfl
@[simp] theorem submitted_keyWords (v : Word) (s : State) : (submitted v s).keyWords = s.keyWords := rfl
@[simp] theorem submitted_mem (v : Word) (s : State) : (submitted v s).mem = s.mem := rfl
@[simp] theorem submitted_epoch (v : Word) (s : State) : (submitted v s).epoch = s.epoch := rfl
@[simp] theorem submitted_draws (v : Word) (s : State) : (submitted v s).draws = s.draws := rfl
@[simp] theorem submitted_script (v : Word) (s : State) : (submitted v s).script = .completion :: s.script := rfl
@[simp] theorem submitted_resp (v : Word) (s : State) : (submitted v s).resp = s.resp := rfl

/-! ### succeed and raiseError are finish (`60_exceptions.md` R240, R241) -/

@[simp] theorem succeed_eq_finish (s : State) : succeed s = finish .success s := rfl
@[simp] theorem raiseError_eq_finish (k : ErrCode) (s : State) : raiseError k s = finish k s := rfl

end Sys2Proof.Machine
end

