-- ==== Sys2Proof/Laws/Words.lean ====
section
/-! SUPPORT. Words: rotations and their inverses (`00_scope.md` R3), the two halves of a 64-bit
quantity, and one round of the block core against its inverse (`43_rc5_block.md` R182). -/

namespace Sys2Proof.Machine

/-! ### Rotations -/

/-- Bit `i` of a rotation to the left. -/
theorem getLsbD_rotl {w : Nat} (x : BitVec w) (s i : Nat) (hi : i < w) :
    (rotl x s).getLsbD i = if i < s % w then x.getLsbD (w - s % w + i) else x.getLsbD (i - s % w) := by
  have hk : s % w < w := Nat.mod_lt _ (by omega)
  unfold rotl
  by_cases h0 : s % w = 0
  · simp [h0]
  · rw [if_neg h0]
    by_cases h1 : i < s % w
    · simp [hi, h1]
    · have h2 : ¬ w - s % w + i < w := by omega
      simp [hi, h1, BitVec.getLsbD_of_ge _ _ (Nat.not_lt.1 h2), -BitVec.getLsbD_eq_getElem]

/-- Bit `i` of a rotation to the right. -/
theorem getLsbD_rotr {w : Nat} (x : BitVec w) (s i : Nat) (hi : i < w) :
    (rotr x s).getLsbD i = if i < w - s % w then x.getLsbD (s % w + i) else x.getLsbD (i - (w - s % w)) := by
  have hk : s % w < w := Nat.mod_lt _ (by omega)
  unfold rotr
  by_cases h0 : s % w = 0
  · simp [h0, hi]
  · rw [if_neg h0]
    by_cases h1 : i < w - s % w
    · simp [hi, h1]
    · have h2 : ¬ s % w + i < w := by omega
      simp [hi, h1, BitVec.getLsbD_of_ge _ _ (Nat.not_lt.1 h2), -BitVec.getLsbD_eq_getElem]

/-- A rotation to the right undoes one to the left by the same amount. -/
theorem rotr_rotl {w : Nat} (x : BitVec w) (s : Nat) : rotr (rotl x s) s = x := by
  apply BitVec.eq_of_getLsbD_eq
  intro i hi
  have hk : s % w < w := Nat.mod_lt _ (by omega)
  rw [getLsbD_rotr _ _ _ hi]
  by_cases h : i < w - s % w
  · rw [if_pos h, getLsbD_rotl _ _ _ (by omega), if_neg (by omega)]
    congr 1; omega
  · rw [if_neg h, getLsbD_rotl _ _ _ (by omega), if_pos (by omega)]
    congr 1; omega

/-- A rotation to the left undoes one to the right by the same amount. -/
theorem rotl_rotr {w : Nat} (x : BitVec w) (s : Nat) : rotl (rotr x s) s = x := by
  apply BitVec.eq_of_getLsbD_eq
  intro i hi
  have hk : s % w < w := Nat.mod_lt _ (by omega)
  rw [getLsbD_rotl _ _ _ hi]
  by_cases h : i < s % w
  · rw [if_pos h, getLsbD_rotr _ _ _ (by omega), if_neg (by omega)]
    congr 1; omega
  · rw [if_neg h, getLsbD_rotr _ _ _ (by omega), if_pos (by omega)]
    congr 1; omega

/-- A rotation depends on its amount modulo the width alone. -/
theorem rotl_congr {w : Nat} (x : BitVec w) {s t : Nat} (h : s % w = t % w) : rotl x s = rotl x t := by
  simp only [rotl, h]

/-! ### The halves of a 64-bit quantity -/

theorem loHalf_toNat (x : DWord) : (loHalf x).toNat = x.toNat % 2 ^ 32 := by
  simp [loHalf, BitVec.extractLsb'_toNat]

theorem hiHalf_toNat (x : DWord) : (hiHalf x).toNat = x.toNat / 2 ^ 32 := by
  have h := x.isLt
  simp only [hiHalf, BitVec.extractLsb'_toNat, Nat.shiftRight_eq_div_pow]
  omega

theorem halves_toNat (h l : Word) : BitVec.toNat (h ++ l : DWord) = h.toNat * 2 ^ 32 + l.toNat := by
  have e := BitVec.toNat_append h l
  rw [← Nat.shiftLeft_add_eq_or_of_lt l.isLt, Nat.shiftLeft_eq] at e
  exact e

theorem setLo_toNat (x : DWord) (v : Word) :
    (setLo x v).toNat = x.toNat / 2 ^ 32 * 2 ^ 32 + v.toNat := by
  rw [setLo, halves_toNat, hiHalf_toNat]

theorem setHi_toNat (x : DWord) (v : Word) :
    (setHi x v).toNat = v.toNat * 2 ^ 32 + x.toNat % 2 ^ 32 := by
  rw [setHi, halves_toNat, loHalf_toNat]

@[simp] theorem loHalf_setLo (x : DWord) (v : Word) : loHalf (setLo x v) = v := by
  have h := v.isLt
  apply BitVec.eq_of_toNat_eq
  rw [loHalf_toNat, setLo_toNat]
  omega

@[simp] theorem hiHalf_setLo (x : DWord) (v : Word) : hiHalf (setLo x v) = hiHalf x := by
  have h := v.isLt
  apply BitVec.eq_of_toNat_eq
  rw [hiHalf_toNat, hiHalf_toNat, setLo_toNat]
  omega

@[simp] theorem loHalf_setHi (x : DWord) (v : Word) : loHalf (setHi x v) = loHalf x := by
  apply BitVec.eq_of_toNat_eq
  rw [loHalf_toNat, loHalf_toNat, setHi_toNat]
  omega

@[simp] theorem hiHalf_setHi (x : DWord) (v : Word) : hiHalf (setHi x v) = v := by
  apply BitVec.eq_of_toNat_eq
  rw [hiHalf_toNat, setHi_toNat]
  omega

/-- A 64-bit quantity is its two halves. -/
theorem dword_eq_of_halves {x y : DWord} (hl : loHalf x = loHalf y) (hh : hiHalf x = hiHalf y) :
    x = y := by
  apply BitVec.eq_of_toNat_eq
  have h1 := congrArg BitVec.toNat hl
  have h2 := congrArg BitVec.toNat hh
  rw [loHalf_toNat, loHalf_toNat] at h1
  rw [hiHalf_toNat, hiHalf_toNat] at h2
  omega

/-! ### One round of the block core -/

/-- A decryption round undoes the encryption round of the same number. -/
theorem decRound_encRound {w : Nat} (S : List (BitVec w)) (i : Nat) (x : BitVec w × BitVec w) :
    decRound S i (encRound S i x) = x := by
  simp [decRound, encRound, rotr_rotl]

/-- An encryption round undoes the decryption round of the same number. -/
theorem encRound_decRound {w : Nat} (S : List (BitVec w)) (i : Nat) (x : BitVec w × BitVec w) :
    encRound S i (decRound S i x) = x := by
  simp [decRound, encRound, rotl_rotr]

theorem decRounds_encRounds {w : Nat} (S : List (BitVec w)) (r : Nat) (x : BitVec w × BitVec w) :
    decRounds S r (encRounds S r x) = x := by
  induction r generalizing x with
  | zero => rfl
  | succ r ih => simp [decRounds, encRounds, decRound_encRound, ih]

theorem encRounds_decRounds {w : Nat} (S : List (BitVec w)) (r : Nat) (x : BitVec w × BitVec w) :
    encRounds S r (decRounds S r x) = x := by
  induction r generalizing x with
  | zero => rfl
  | succ r ih => simp [decRounds, encRounds, encRound_decRound, ih]

end Sys2Proof.Machine
end

