-- ==== Sys2Proof/Laws/Bus.lean ====
section
/-! SUPPORT. The events of a step, the address map and what is accepted (`20_memory.md` R62 to R71), and
the words of the RAM windows (R66 to R68). -/

namespace Sys2Proof.Machine

/-! ### A step on a state that faces an event -/

@[simp] theorem step_access (s : State) (a : Access) (rest : List Event) :
    step (s.facing (.access a) rest) = .next (hostAccess a { s with script := rest }) := rfl

@[simp] theorem step_wr (s : State) (off : Offset) (v : Word) (rest : List Event) :
    step (s.facing (wr off v) rest) =
      .next (hostAccess (.write .bits32 off v) { s with script := rest }) := rfl

@[simp] theorem step_rd (s : State) (off : Offset) (rest : List Event) :
    step (s.facing (rd off) rest) =
      .next (hostAccess (.read .bits32 off) { s with script := rest }) := rfl

@[simp] theorem step_completion (s : State) (rest : List Event) :
    step (s.facing .completion rest) = engineTurn { s with script := rest } := rfl

@[simp] theorem step_hardReset (s : State) (rest : List Event) :
    step (s.facing .hardReset rest) = .next (resetCore { s with script := rest }) := rfl

/-- The engine's turn with a command in flight runs it. -/
theorem engineTurn_some {s : State} {v : Word} (h : s.inFlight = some v) :
    engineTurn s = runCommand v s := by simp [engineTurn, h]

/-! ### Reset -/

/-- Every register after a reset (`10_state.md` R20). -/
theorem readReg_resetCore (s : State) (r : Reg) : readReg (resetCore s) r = resetValue s.cfg r := by
  have h0 : loHalf 0#64 = 0#32 := by decide
  have h1 : hiHalf 0#64 = 0#32 := by decide
  cases r <;>
    simp [readReg, resetValue, State.statusWord, State.ctrlWord, State.busy, ErrCode.code, packStatus,
      LcgParams.zero, Quad.zero, idValue, h0, h1]

/-! ### The address map -/

/-- Every register stands at its offset, a multiple of 4 below 0xB0. -/
theorem regMap_offsets : ∀ e ∈ regMap, e.1 < 0xB0 ∧ e.1 % 4 = 0 ∧ Reg.ofOffset e.1 = some e.2 := by
  decide

theorem ofOffset_mem {a : Nat} {r : Reg} (h : Reg.ofOffset a = some r) : (a, r) ∈ regMap := by
  unfold Reg.ofOffset at h
  simp only [Option.map_eq_some_iff] at h
  obtain ⟨e, he, rfl⟩ := h
  have h1 := List.find?_some he
  have h2 := List.mem_of_find?_eq_some he
  have h3 : e.1 = a := by simpa using h1
  subst h3
  exact h2

/-- Below 0xB0 the only multiple of 4 without a register is 0x3C. -/
theorem ofOffset_eq_none : ∀ a, a < 0xB0 → a % 4 = 0 → (Reg.ofOffset a = none ↔ a = 0x3C) := by
  decide +kernel

theorem regionOf_register {cfg : Config} {a : Nat} {r : Reg} (h : (a, r) ∈ regMap) :
    regionOf cfg a = .register r := by
  obtain ⟨h1, -, h3⟩ := regMap_offsets (a, r) h
  simp only at h1 h3
  simp [regionOf, h1, h3]

/-- A register region is an entry of the register map. -/
theorem mem_regMap_of_regionOf {cfg : Config} {a : Nat} {r : Reg}
    (h : regionOf cfg a = .register r) : (a, r) ∈ regMap := by
  unfold regionOf at h
  split at h
  · split at h
    · cases h; exact ofOffset_mem ‹_›
    · cases h
  · repeat' split at h
    all_goals cases h

/-- The four window bases as numbers (`20_memory.md` R62). -/
theorem bases : keyBase = 0x800 ∧ sBase = 0x1000 ∧ inBase = 0x4000 ∧ outBase = 0x8000 :=
  ⟨rfl, rfl, rfl, rfl⟩

theorem nIn_bounds (cfg : Config) : 16 ≤ cfg.nIn ∧ cfg.nIn ≤ 16352 ∧ cfg.nIn % 16 = 0 := by
  have h := cfg.nInBlocks.isLt
  simp only [Config.nIn]
  omega

theorem nOut_eq (cfg : Config) : cfg.nOut = cfg.nIn + 32 := rfl

/-- The regions above the registers. -/
theorem regionOf_window {cfg : Config} {a : Nat} (h : 0xB0 ≤ a) :
    regionOf cfg a =
      if keyBase ≤ a ∧ a < keyBase + 256 then .keybuf
      else if sBase ≤ a ∧ a < sBase + 4096 then .sTable
      else if inBase ≤ a ∧ a < inBase + cfg.nIn then .inBuf
      else if outBase ≤ a ∧ a < outBase + cfg.nOut then .outBuf
      else .reserved := by
  rw [regionOf, if_neg (by omega)]

/-- The reserved regions are the reserved offsets of the address map. -/
theorem regionOf_reserved {cfg : Config} {a : Nat} (h4 : a % 4 = 0) :
    regionOf cfg a = .reserved ↔ ReservedOffset cfg a := by
  have hb := nIn_bounds cfg
  have ho := nOut_eq cfg
  have hw := bases
  by_cases h : a < 0xB0
  · have e := ofOffset_eq_none a h h4
    constructor
    · intro hr
      simp only [regionOf, h, if_true] at hr
      split at hr
      · cases hr
      · have := e.1 ‹_›
        simp only [ReservedOffset]; omega
    · intro hr
      have h3 : a = 0x3C := by simp only [ReservedOffset] at hr; omega
      simp [regionOf, h, e.2 h3]
  · rw [regionOf_window (by omega)]
    simp only [ReservedOffset]
    repeat' split
    all_goals simp only [true_iff, reduceCtorEq, false_iff, not_or]
    all_goals omega

/-- What is accepted is what the rules accept. -/
theorem accepts_iff {cfg : Config} {width : Width} {off : Offset} :
    accepts cfg width off = true ↔ Acceptable cfg width off := by
  simp only [accepts, Acceptable, Bool.and_eq_true, decide_eq_true_eq, and_assoc]
  constructor
  · rintro ⟨h1, h2, h3⟩
    exact ⟨h1, h2, fun h => h3 ((regionOf_reserved h2).2 h)⟩
  · rintro ⟨h1, h2, h3⟩
    exact ⟨h1, h2, fun h => h3 ((regionOf_reserved h2).1 h)⟩

theorem accepts_eq_false {cfg : Config} {width : Width} {off : Offset}
    (h : ¬ Acceptable cfg width off) : accepts cfg width off = false := by
  rw [← Bool.not_eq_true, accepts_iff]; exact h

/-- Every register is accepted. -/
theorem accepts_register {cfg : Config} {off : Offset} {r : Reg} (h : (off.toNat, r) ∈ regMap) :
    accepts cfg .bits32 off = true := by
  have h2 := (regMap_offsets _ h).2.1
  simp only at h2
  simp [accepts, h2, regionOf_register h]

/-! ### Accesses -/

theorem hostAccess_read {s : State} {width : Width} {off : Offset}
    (h : accepts s.cfg width off = true) : hostAccess (.read width off) s = hostRead off s := by
  simp [hostAccess, h]

theorem hostAccess_write {s : State} {width : Width} {off : Offset} {v : Word}
    (h : accepts s.cfg width off = true) :
    hostAccess (.write width off v) s = { hostWrite off v s with resp := .accepted } := by
  simp [hostAccess, h]

theorem hostAccess_error {s : State} {a : Access}
    (h : ∀ width off, (a = .read width off ∨ ∃ v, a = .write width off v) →
      accepts s.cfg width off = false) : hostAccess a s = { s with resp := .error } := by
  cases a with
  | read width off => simp [hostAccess, h width off (.inl rfl)]
  | write width off v => simp [hostAccess, h width off (.inr ⟨v, rfl⟩)]

/-- A write to CTRL, whatever is in flight. -/
theorem hostWrite_ctrl (s : State) (v : Word) : hostWrite 0x008#16 v s = writeCtrl v s := rfl

/-- Only offset 8 is CTRL. -/
theorem regionOf_ctrl {cfg : Config} {off : Offset} :
    regionOf cfg off.toNat = .register .ctrl ↔ off = 0x008#16 := by
  constructor
  · intro h
    have h1 := mem_regMap_of_regionOf h
    have h2 : ∀ e ∈ regMap, e.2 = Reg.ctrl → e.1 = 8 := by decide
    apply BitVec.eq_of_toNat_eq
    exact h2 _ h1 rfl
  · rintro rfl; rfl

/-- A write other than to CTRL while a command is in flight. -/
theorem hostWrite_busy {s : State} {off : Offset} {v : Word} (hb : s.busy = true)
    (h : off ≠ 0x008#16) : hostWrite off v s = { s with ovr := true } := by
  have : ¬ regionOf s.cfg off.toNat = .register .ctrl := fun e => h (regionOf_ctrl.1 e)
  simp [hostWrite, this, hb]

/-- A write other than to CTRL while no command is in flight. -/
theorem hostWrite_idle {s : State} {off : Offset} {v : Word} (hb : s.inFlight = none)
    (h : off ≠ 0x008#16) : hostWrite off v s = writeWord off.toNat v s := by
  have : ¬ regionOf s.cfg off.toNat = .register .ctrl := fun e => h (regionOf_ctrl.1 e)
  simp [hostWrite, this, State.busy, hb]

theorem readData_idle {s : State} {a : Nat} (h : s.inFlight = none) : readData s a = readWord s a := by
  simp [readData, h]

/-! ### A step on a state that faces an accepted access -/

/-- An accepted read. -/
theorem step_rd_accepted {s : State} {off : Offset} (rest : List Event)
    (ha : accepts s.cfg .bits32 off = true) :
    step (s.facing (rd off) rest) =
      .next { s with script := rest, resp := .data (readData s off.toNat),
                     draws := if s.busy then s.draws + 1 else s.draws } := by
  have e : hostAccess (.read .bits32 off) { s with script := rest } =
      hostRead off { s with script := rest } := hostAccess_read (s := { s with script := rest }) ha
  rw [step_rd, e]
  rfl

/-- A read of a register while no command is in flight is answered with its value. -/
theorem answers_register {s : State} {off : Offset} {r : Reg} (rest : List Event)
    (hn : s.inFlight = none) (h : (off.toNat, r) ∈ regMap) : s.Answers rest off (readReg s r) := by
  refine ⟨_, step_rd_accepted rest (accepts_register h), ?_⟩
  rw [readData_idle hn, readWord, regionOf_register h]

/-- An accepted write while no command is in flight. -/
theorem step_wr_idle {s : State} {off : Offset} (v : Word) (rest : List Event)
    (hn : s.inFlight = none) (ha : accepts s.cfg .bits32 off = true) (h : off ≠ 0x008#16) :
    step (s.facing (wr off v) rest) =
      .next { writeWord off.toNat v { s with script := rest } with resp := .accepted } := by
  have e : hostWrite off v { s with script := rest } =
      writeWord off.toNat v { s with script := rest } :=
    hostWrite_idle (s := { s with script := rest }) hn h
  rw [step_wr, hostAccess_write (s := { s with script := rest }) ha, e]

/-- An accepted write, other than to CTRL, while a command is in flight. -/
theorem step_wr_busy {s : State} {off : Offset} (v : Word) (rest : List Event)
    (hb : s.busy = true) (ha : accepts s.cfg .bits32 off = true) (h : off ≠ 0x008#16) :
    step (s.facing (wr off v) rest) =
      .next { s with script := rest, resp := .accepted, ovr := true } := by
  have e : hostWrite off v { s with script := rest } = { s with script := rest, ovr := true } :=
    hostWrite_busy (s := { s with script := rest }) hb h
  rw [step_wr, hostAccess_write (s := { s with script := rest }) ha, e]

/-- A write to CTRL with bit 1 = 1 is a reset. -/
theorem writeCtrl_reset {v : Word} (s : State) (h : v.getLsbD 1 = true) :
    writeCtrl v s = resetCore s := by rw [writeCtrl, if_pos h]

/-- A write to CTRL with bit 1 = 0 writes IE. -/
theorem writeCtrl_ie {v : Word} (s : State) (h : v.getLsbD 1 = false) :
    writeCtrl v s = { s with ie := v.getLsbD 0 } := by rw [writeCtrl, if_neg (by rw [h]; decide)]

/-- A write to CTRL. -/
theorem step_wr_ctrl (s : State) (v : Word) (rest : List Event) :
    step (s.facing (wr 0x008#16 v) rest) =
      .next { writeCtrl v { s with script := rest } with resp := .accepted } := rfl

/-! ### Words of the RAM windows -/

theorem wordOfBytes_toNat (b0 b1 b2 b3 : Byte) :
    (wordOfBytes b0 b1 b2 b3).toNat = leNat [b0, b1, b2, b3] := by
  have h0 := b0.isLt
  have h1 := b1.isLt
  have h2 := b2.isLt
  have h3 := b3.isLt
  have e (w : Nat) (x : BitVec w) (y : BitVec 8) :
      BitVec.toNat (x ++ y) = x.toNat * 256 + y.toNat := by
    have e := BitVec.toNat_append x y
    rw [← Nat.shiftLeft_add_eq_or_of_lt y.isLt, Nat.shiftLeft_eq] at e
    exact e
  show BitVec.toNat (((b3 ++ b2) ++ b1) ++ b0) = _
  rw [e, e, e]
  simp only [leNat]
  omega

theorem ramBytes_four (s : State) (a : Nat) :
    s.ramBytes a 4 = [s.ramByte a, s.ramByte (a + 1), s.ramByte (a + 2), s.ramByte (a + 3)] := rfl

theorem ramBytes_three (s : State) (a : Nat) :
    s.ramBytes a 3 = [s.ramByte a, s.ramByte (a + 1), s.ramByte (a + 2)] := rfl

/-- The word of a window is the four bytes read little-endian. -/
theorem windowWord_toNat {s : State} {a : Nat} (h : a % 4 = 0) :
    (windowWord s a).toNat =
      if a = keyBase + 252 then s.ramRead a 3 else s.ramRead a 4 := by
  rw [windowWord, wordOfBytes_toNat]
  have hw := bases
  simp only [State.ramRead, windowByte, ramBytes_four, ramBytes_three]
  by_cases h1 : a = keyBase + 252
  · subst h1
    simp [leNat]
  · rw [if_neg h1, if_neg (by omega), if_neg (by omega), if_neg (by omega), if_neg (by omega)]

@[simp] theorem wordBytes_length (v : Word) : (wordBytes v).length = 4 := by simp [wordBytes]

theorem leNat_wordBytes (v : Word) : leNat (wordBytes v) = v.toNat := by
  rw [wordBytes, leNat_leBytes]
  exact Nat.mod_eq_of_lt v.isLt

theorem ramRead_of_write {s t : State} {base : Nat} {bs : List Byte}
    (hm : t.mem = Memory.write s.mem base bs) (he : t.epoch = s.epoch) :
    t.ramRead base bs.length = leNat bs := by
  rw [State.ramRead, ramBytes_of_write hm he]

end Sys2Proof.Machine
end

