-- ==== Sys2Proof/Laws/Decode.lean ====
section
/-! SUPPORT. The decoder as a choice between the ten legal words (`30_encoding.md` R91, R98). -/

namespace Sys2Proof

theorem and_allOnes_word (v : Word) : v &&& 0xFFFFFFFF#32 = v := by
  have e : (0xFFFFFFFF#32 : Word) = BitVec.allOnes 32 := by decide
  rw [e, BitVec.and_allOnes]

/-- A word is its bits other than F, and F. -/
theorem word_eq_or_flag (v : Word) :
    v = (v &&& 0xFFFFFEFF#32) ||| (if v.getLsbD 8 then 0x100#32 else 0#32) := by
  have h1 : (0xFFFFFFFF#32 : Word) = 0xFFFFFEFF#32 ||| 0x100#32 := by decide
  have h2 : v &&& 0x100#32 = if v.getLsbD 8 then 0x100#32 else 0#32 := by
    have e : (0x100#32 : Word) = BitVec.twoPow 32 8 := by decide
    rw [e]
    exact BitVec.and_twoPow v 8
  conv_lhs => rw [← and_allOnes_word v, h1, BitVec.and_or_distrib_left, h2]

/-- The rows that leave F free select two words each. -/
theorem and_noFlag_eq (v c : Word) (hc : c &&& 0xFFFFFEFF#32 = c) :
    v &&& 0xFFFFFEFF#32 = c ↔ v = c ∨ v = c ||| 0x100#32 := by
  constructor
  · intro h
    have e := word_eq_or_flag v
    rw [h] at e
    cases hb : v.getLsbD 8 <;> rw [hb] at e
    · exact .inl (by simpa using e)
    · exact .inr (by simpa using e)
  · rintro (rfl | rfl)
    · exact hc
    · rw [BitVec.and_comm, BitVec.and_or_distrib_left, BitVec.and_comm _ c, hc]
      have : (0xFFFFFEFF#32 &&& 0x100#32 : Word) = 0#32 := by decide
      rw [this, BitVec.or_zero]

/-- The decoder: ten words are legal, each with its command; every other word is refused by name. -/
theorem decode_eq (v : Word) : decode v =
    if v = 0x001#32 then .ok .lcgGen
    else if v = 0x002#32 then .ok (.lcgPeriod .inBuf)
    else if v = 0x102#32 then .ok (.lcgPeriod .outBuf)
    else if v = 0x003#32 then .ok (.md5 false)
    else if v = 0x103#32 then .ok (.md5 true)
    else if v = 0x004#32 then .ok .keysched
    else if v = 0x005#32 then .ok .encBlock
    else if v = 0x006#32 then .ok .decBlock
    else if v = 0x007#32 then .ok .cbcEnc
    else if v = 0x008#32 then .ok .cbcDec
    else .error (decodeReason v) := by
  by_cases k1 : v = 0x001#32
  · subst k1; rfl
  by_cases k2 : v = 0x002#32
  · subst k2; rfl
  by_cases k3 : v = 0x102#32
  · subst k3; rfl
  by_cases k4 : v = 0x003#32
  · subst k4; rfl
  by_cases k5 : v = 0x103#32
  · subst k5; rfl
  by_cases k6 : v = 0x004#32
  · subst k6; rfl
  by_cases k7 : v = 0x005#32
  · subst k7; rfl
  by_cases k8 : v = 0x006#32
  · subst k8; rfl
  by_cases k9 : v = 0x007#32
  · subst k9; rfl
  by_cases k10 : v = 0x008#32
  · subst k10; rfl
  have n2 : ¬ (v &&& 0xFFFFFEFF#32 = 0x002#32) := by
    rw [and_noFlag_eq v _ (by decide)]; simpa [k2] using k3
  have n3 : ¬ (v &&& 0xFFFFFEFF#32 = 0x003#32) := by
    rw [and_noFlag_eq v _ (by decide)]; simpa [k4] using k5
  simp [decode, opcodeMap, OpcodeRow.selects, List.find?, and_allOnes_word, k1, k2, k3, k4, k5, k6,
    k7, k8, k9, k10, n2, n3, beq_eq_false_iff_ne.2]

end Sys2Proof
end

