-- ==== Sys2Proof/Laws/Exec.lean ====
section
/-! SUPPORT. What each meaning can do, said once: an inversion lemma for each command, for the RC5
parameter check and for a step. -/

namespace Sys2Proof.Machine

/-! ### The RC5 parameter check -/

@[simp] theorem WordSize.ofReg_bits (ws : WordSize) :
    WordSize.ofReg (BitVec.ofNat 32 ws.bits) = some ws := by cases ws <;> rfl

theorem WordSize.bits_of_ofReg {v : Word} {ws : WordSize} (h : WordSize.ofReg v = some ws) :
    v = BitVec.ofNat 32 ws.bits := by
  unfold WordSize.ofReg at h
  split at h
  · cases h; assumption
  · split at h
    · cases h; assumption
    · split at h
      · cases h; assumption
      · cases h

/-- The check passes exactly under the four conditions of `42_rc5_key_schedule.md` R161, and then its
answer is the three registers. -/
theorem rc5Check_eq_some {s : State} {p : Rc5Params} :
    s.rc5Check = some p ↔
      s.rc5W = BitVec.ofNat 32 p.ws.bits ∧ p.r = s.rc5R.toNat ∧ p.b = s.rc5B.toNat ∧
        p.r ≤ 255 ∧ p.b ≤ 255 ∧ s.keyLen.toNat ≤ p.b := by
  constructor
  · intro h
    unfold State.rc5Check at h
    split at h
    · cases h
    · rename_i ws hws
      split at h
      · cases h
      · split at h
        · cases h
        · split at h
          · cases h
          · cases h
            exact ⟨WordSize.bits_of_ofReg hws, rfl, rfl, by simp; omega, by simp; omega,
              by simp; omega⟩
  · rintro ⟨hw, hr, hb, h1, h2, h3⟩
    have n1 : ¬ 255 < s.rc5R.toNat := by omega
    have n2 : ¬ 255 < s.rc5B.toNat := by omega
    have n3 : ¬ s.rc5B.toNat < s.keyLen.toNat := by omega
    simp only [State.rc5Check, hw, WordSize.ofReg_bits, if_neg n1, if_neg n2, if_neg n3]
    cases p
    simp_all

/-- The check fails exactly when one of the four conditions of `42_rc5_key_schedule.md` R161 holds. -/
theorem rc5Check_eq_none {s : State} :
    s.rc5Check = none ↔
      (s.rc5W ≠ 16#32 ∧ s.rc5W ≠ 32#32 ∧ s.rc5W ≠ 64#32) ∨ 255 < s.rc5R.toNat ∨
        255 < s.rc5B.toNat ∨ s.rc5B.toNat < s.keyLen.toNat := by
  unfold State.rc5Check WordSize.ofReg
  by_cases h1 : s.rc5W = 16#32
  · simp [h1]; omega
  · by_cases h2 : s.rc5W = 32#32
    · simp [h2]; omega
    · by_cases h3 : s.rc5W = 64#32
      · simp [h3]; omega
      · simp [h1, h2, h3]

/-! ### The commands -/

/-- Every command completes (`00_scope.md` R8, `30_encoding.md` R94). -/
theorem exec_next (i : Instr) (s : State) : ∃ t, exec i s = .next t := by
  cases i <;> exact ⟨_, rfl⟩

theorem execLcgGen_cases {s t : State} (h : execLcgGen s = .next t) :
    ((s.lcg.valid = false ∨ s.cfg.nOut < 8 * s.lcgN.toNat) ∧ t = finish .invalidParameter s) ∨
    (s.lcg.valid = true ∧ 8 * s.lcgN.toNat ≤ s.cfg.nOut ∧
      t = finish .success
        { s with mem := Memory.write s.mem outBase (dwordBytes (lcgSeq s.lcg s.lcgN.toNat))
                 outLen := BitVec.ofNat 32 (8 * s.lcgN.toNat) }) := by
  unfold execLcgGen at h
  cases h
  split
  · exact .inl ⟨.inl ‹_›, rfl⟩
  · split
    · exact .inl ⟨.inr ‹_›, rfl⟩
    · exact .inr ⟨by simp_all, by omega, rfl⟩

theorem execLcgPeriod_cases {src : SeqSource} {s t : State} (h : execLcgPeriod src s = .next t) :
    (((src = .inBuf ∧ s.inTooLong = true) ∨ s.seqLen src % 8 ≠ 0) ∧
      t = finish .invalidParameter s) ∨
    (¬ (src = .inBuf ∧ s.inTooLong = true) ∧ s.seqLen src % 8 = 0 ∧
      ((∃ d, periodOf (s.seqValues src) = some d ∧
          t = finish .success { s with period := BitVec.ofNat 32 d, periodFound := true }) ∨
       (periodOf (s.seqValues src) = none ∧
          t = finish .success { s with period := 0, periodFound := false }))) := by
  unfold execLcgPeriod at h
  cases h
  split
  · exact .inl ⟨.inl ‹_›, rfl⟩
  · split
    · exact .inl ⟨.inr ‹_›, rfl⟩
    · refine .inr ⟨‹_›, by omega, ?_⟩
      split
      · exact .inl ⟨_, ‹_›, rfl⟩
      · exact .inr ⟨‹_›, rfl⟩

theorem execMd5_cases {toKey : Bool} {s t : State} (h : execMd5 toKey s = .next t) :
    (s.inTooLong = true ∧ t = finish .invalidParameter s) ∨
    (s.inTooLong = false ∧ t = finish .success (writeDigest toKey (md5Digest s.inBytes) s)) := by
  unfold execMd5 at h
  cases h
  split
  · exact .inl ⟨‹_›, rfl⟩
  · exact .inr ⟨by simp_all, rfl⟩

theorem execKeysched_cases {s t : State} (h : execKeysched s = .next t) :
    (s.rc5Check = none ∧ t = finish .invalidParameter s) ∨
    (∃ p, s.rc5Check = some p ∧ t = finish .success (publishSchedule p s)) := by
  unfold execKeysched at h
  cases h
  split
  · exact .inl ⟨‹_›, rfl⟩
  · exact .inr ⟨_, ‹_›, rfl⟩

theorem execEncBlock_cases {s t : State} (h : execEncBlock s = .next t) :
    (s.rc5Check = none ∧ t = finish .invalidParameter s) ∨
    (∃ p, s.rc5Check = some p ∧
      t = finish .success (writeBlock (encryptBlock (s.table p) p.r (s.block p.ws.bits))
        (publishSchedule p s))) := by
  unfold execEncBlock at h
  cases h
  split
  · exact .inl ⟨‹_›, rfl⟩
  · exact .inr ⟨_, ‹_›, rfl⟩

theorem execDecBlock_cases {s t : State} (h : execDecBlock s = .next t) :
    (s.rc5Check = none ∧ t = finish .invalidParameter s) ∨
    (∃ p, s.rc5Check = some p ∧
      t = finish .success (writeBlock (decryptBlock (s.table p) p.r (s.block p.ws.bits))
        (publishSchedule p s))) := by
  unfold execDecBlock at h
  cases h
  split
  · exact .inl ⟨‹_›, rfl⟩
  · exact .inr ⟨_, ‹_›, rfl⟩

theorem execCbcEnc_cases {s t : State} (h : execCbcEnc s = .next t) :
    ((s.rc5Check = none ∨ s.inTooLong = true ∨ s.ivp.valid = false) ∧
      t = finish .invalidParameter s) ∨
    (∃ p, s.rc5Check = some p ∧ s.inTooLong = false ∧ s.ivp.valid = true ∧
      t = finish .success
        { (publishSchedule p s).store outBase (s.envelope p) with
          outLen := BitVec.ofNat 32 (s.envelope p).length
          iv := Quad.ofBytes (ivBytes s.ivp p.ws.blockBytes) }) := by
  unfold execCbcEnc at h
  cases h
  split
  · exact .inl ⟨.inl ‹_›, rfl⟩
  · split
    · exact .inl ⟨.inr (.inl ‹_›), rfl⟩
    · split
      · exact .inl ⟨.inr (.inr ‹_›), rfl⟩
      · exact .inr ⟨_, ‹_›, by simp_all, by simp_all, rfl⟩

theorem execCbcDec_cases {s t : State} (h : execCbcDec s = .next t) :
    ((s.rc5Check = none ∨ s.inTooLong = true) ∧ t = finish .invalidParameter s) ∨
    (∃ p, s.rc5Check = some p ∧ s.inTooLong = false ∧
      (((s.inLen.toNat % p.ws.blockBytes ≠ 0 ∨ s.inLen.toNat < 2 * p.ws.blockBytes) ∧
          t = finish .decodingError s) ∨
       (s.inLen.toNat % p.ws.blockBytes = 0 ∧ 2 * p.ws.blockBytes ≤ s.inLen.toNat ∧
         ((padValid p.ws.blockBytes (s.recoveredText p) = true ∧
            t = finish .success
              { (publishSchedule p s).store outBase (s.recoveredText p) with
                outLen := BitVec.ofNat 32
                  ((s.recoveredText p).length - lastByte (s.recoveredText p))
                iv := Quad.ofBytes (s.recoveredIv p) }) ∨
          (padValid p.ws.blockBytes (s.recoveredText p) = false ∧
            t = finish .paddingError
              { (publishSchedule p s).store outBase
                  (drawBytes s.draws (s.recoveredText p).length) with
                outLen := 0
                iv := Quad.ofBytes (s.recoveredIv p)
                draws := s.draws + 1 }))))) := by
  unfold execCbcDec at h
  cases h
  split
  · exact .inl ⟨.inl ‹_›, rfl⟩
  · split
    · exact .inl ⟨.inr ‹_›, rfl⟩
    · refine .inr ⟨_, ‹_›, by simp_all, ?_⟩
      split
      · exact .inl ⟨‹_›, rfl⟩
      · refine .inr ⟨by omega, by omega, ?_⟩
        split
        · exact .inl ⟨‹_›, rfl⟩
        · exact .inr ⟨by simp_all, rfl⟩

/-! ### A step -/

/-- The engine's turn: nothing without a command in flight; else the command of the latched word, or
ILLEGAL_COMMAND. -/
theorem engineTurn_cases {s t : State} (h : engineTurn s = .next t) :
    (s.inFlight = none ∧ t = s) ∨
    (∃ v i, s.inFlight = some v ∧ decode v = .ok i ∧ exec i s = .next t) ∨
    (∃ v e, s.inFlight = some v ∧ decode v = .error e ∧ t = finish .illegalCommand s) := by
  unfold engineTurn at h
  split at h
  · cases h; exact .inl ⟨‹_›, rfl⟩
  · unfold runCommand at h
    split at h
    · exact .inr (.inl ⟨_, _, ‹_›, ‹_›, h⟩)
    · cases h; exact .inr (.inr ⟨_, _, ‹_›, ‹_›, rfl⟩)

/-- A step: a turn of the engine, a host access, or a reset. -/
theorem step_cases {s t : State} (h : step s = .next t) :
    (∃ rest, (s.script = [] ∧ rest = [] ∨ s.script = .completion :: rest) ∧
      engineTurn { s with script := rest } = .next t) ∨
    (∃ a rest, s.script = .access a :: rest ∧ t = hostAccess a { s with script := rest }) ∨
    (∃ rest, s.script = .hardReset :: rest ∧ t = resetCore { s with script := rest }) := by
  unfold step at h
  split at h
  · rename_i he
    refine .inl ⟨[], .inl ⟨he, rfl⟩, ?_⟩
    have e : ({ s with script := [] } : State) = s := by cases s; simp_all
    rw [e]; exact h
  · rename_i e rest he
    cases e with
    | access a => cases h; exact .inr (.inl ⟨a, rest, he, rfl⟩)
    | completion => exact .inl ⟨rest, .inr he, h⟩
    | hardReset => cases h; exact .inr (.inr ⟨rest, he, rfl⟩)

end Sys2Proof.Machine
end

