-- ==== Sys2Proof/Laws/Outcomes.lean ====
section
/-! SUPPORT. What every completion does to STATUS (`30_encoding.md` R94, `60_exceptions.md` R241), and the
checks of the commands as conditions on the registers. -/

namespace Sys2Proof.Machine

/-! ### The checks -/

/-- LcgValid (`40_lcg.md` R120). -/
theorem lcgValid_eq_true {p : LcgParams} : p.valid = true ↔ ¬ LcgBad p := by
  simp only [LcgParams.valid, LcgBad, Bool.and_eq_true, decide_eq_true_eq]
  omega

theorem lcgValid_eq_false {p : LcgParams} : p.valid = false ↔ LcgBad p := by
  rw [← Bool.not_eq_true, lcgValid_eq_true, Classical.not_not]

/-- Rc5Check fails (`42_rc5_key_schedule.md` R161). -/
theorem rc5Check_none_iff {s : State} : s.rc5Check = none ↔ Rc5Bad s := by
  have e (n : Nat) (hn : n < 2 ^ 32) : s.rc5W ≠ BitVec.ofNat 32 n ↔ s.rc5W.toNat ≠ n := by
    rw [ne_eq, ne_eq, BitVec.toNat_eq, BitVec.toNat_ofNat, Nat.mod_eq_of_lt hn]
  rw [rc5Check_eq_none]
  simp only [Rc5Bad, e 16 (by decide), e 32 (by decide), e 64 (by decide)]

/-- Rc5Check passes (`42_rc5_key_schedule.md` R161). -/
theorem rc5Check_some_iff {s : State} {p : Rc5Params} : s.rc5Check = some p ↔ Rc5Good s p := by
  have e : s.rc5W = BitVec.ofNat 32 p.ws.bits ↔ s.rc5W.toNat = p.ws.bits := by
    rw [BitVec.toNat_eq, BitVec.toNat_ofNat, Nat.mod_eq_of_lt (by cases p.ws <;> decide)]
  rw [rc5Check_eq_some, Rc5Good, e, eq_comm (a := p.r), eq_comm (a := p.b)]

theorem inTooLong_eq_true {s : State} : s.inTooLong = true ↔ s.cfg.nIn < s.inLen.toNat := by
  simp [State.inTooLong]

theorem inTooLong_eq_false {s : State} : s.inTooLong = false ↔ s.inLen.toNat ≤ s.cfg.nIn := by
  simp [State.inTooLong]

/-! ### Completions -/

/-- A completion of a state that differs from `s` in results alone. -/
theorem finish_completes {k : ErrCode} {s s' : State} (hovr : s'.ovr = s.ovr)
    (hop : s'.lastOp = s.lastOp) (hie : s'.ie = s.ie) (hcfg : s'.cfg = s.cfg)
    (hep : s'.epoch = s.epoch) (hsc : s'.script = s.script) (hr : s'.resp = s.resp) :
    Completes k s (finish k s') :=
  ⟨rfl, rfl, rfl, rfl, hovr, hop, hie, hcfg, hep, hsc, hr⟩

/-- Every command that is executed completes. -/
theorem exec_completes {i : Instr} {s t : State} (h : exec i s = .next t) :
    Completes t.errCode s t := by
  cases i with
  | lcgGen =>
    rcases execLcgGen_cases h with ⟨-, rfl⟩ | ⟨-, -, rfl⟩ <;>
      exact finish_completes rfl rfl rfl rfl rfl rfl rfl
  | lcgPeriod src =>
    rcases execLcgPeriod_cases h with ⟨-, rfl⟩ | ⟨-, -, ⟨d, -, rfl⟩ | ⟨-, rfl⟩⟩ <;>
      exact finish_completes rfl rfl rfl rfl rfl rfl rfl
  | md5 toKey =>
    rcases execMd5_cases h with ⟨-, rfl⟩ | ⟨-, rfl⟩
    · exact finish_completes rfl rfl rfl rfl rfl rfl rfl
    · cases toKey <;> exact finish_completes rfl rfl rfl rfl rfl rfl rfl
  | keysched =>
    rcases execKeysched_cases h with ⟨-, rfl⟩ | ⟨p, -, rfl⟩ <;>
      exact finish_completes rfl rfl rfl rfl rfl rfl rfl
  | encBlock =>
    rcases execEncBlock_cases h with ⟨-, rfl⟩ | ⟨p, -, rfl⟩ <;>
      exact finish_completes rfl rfl rfl rfl rfl rfl rfl
  | decBlock =>
    rcases execDecBlock_cases h with ⟨-, rfl⟩ | ⟨p, -, rfl⟩ <;>
      exact finish_completes rfl rfl rfl rfl rfl rfl rfl
  | cbcEnc =>
    rcases execCbcEnc_cases h with ⟨-, rfl⟩ | ⟨p, -, -, -, rfl⟩ <;>
      exact finish_completes rfl rfl rfl rfl rfl rfl rfl
  | cbcDec =>
    rcases execCbcDec_cases h with ⟨-, rfl⟩ | ⟨p, -, -, ⟨-, rfl⟩ | ⟨-, -, ⟨-, rfl⟩ | ⟨-, rfl⟩⟩⟩ <;>
      exact finish_completes rfl rfl rfl rfl rfl rfl rfl

/-- Every word in flight completes, legal or not. -/
theorem runCommand_completes (v : Word) (s : State) :
    ∃ t, runCommand v s = .next t ∧ Completes t.errCode s t := by
  unfold runCommand
  split
  · obtain ⟨t, ht⟩ := exec_next ‹_› s
    exact ⟨t, ht, exec_completes ht⟩
  · exact ⟨_, rfl, finish_completes rfl rfl rfl rfl rfl rfl rfl⟩

end Sys2Proof.Machine
end

