-- ==== Sys2Proof/Laws/Rc5.lean ====
section
/-! SUPPORT. RC5: the lengths of the key schedule's arrays (`42_rc5_key_schedule.md` R163 to R166), the
block functions on byte strings (`44_cbc_pad.md`, introduction) and the CBC chains (R203, R207). -/

namespace Sys2Proof.Machine

/-! ### Sizes -/

theorem WordSize.bytes_cases (ws : WordSize) : ws.bytes = 2 ∨ ws.bytes = 4 ∨ ws.bytes = 8 := by
  cases ws <;> decide

theorem WordSize.bytes_pos (ws : WordSize) : 0 < ws.bytes := by
  rcases ws.bytes_cases with h | h | h <;> omega

theorem WordSize.blockBytes_cases (ws : WordSize) :
    ws.blockBytes = 4 ∨ ws.blockBytes = 8 ∨ ws.blockBytes = 16 := by
  rcases ws.bytes_cases with h | h | h <;> simp [WordSize.blockBytes, h]

theorem WordSize.two_pow_bits (ws : WordSize) : 256 ^ ws.bytes = 2 ^ ws.bits := by
  cases ws <;> decide

/-! ### The key schedule -/

@[simp] theorem ascending_length {w : Nat} (q : BitVec w) (n : Nat) (x : BitVec w) :
    (ascending q n x).length = n := by
  induction n generalizing x with
  | zero => rfl
  | succ n ih => simp [ascending, ih]

theorem ascending_getElem {w : Nat} (q : BitVec w) (n : Nat) (x : BitVec w) (i : Nat)
    (hi : i < (ascending q n x).length) :
    ((ascending q n x)[i]).toNat = (x.toNat + i * q.toNat) % 2 ^ w := by
  induction n generalizing x i with
  | zero => simp at hi
  | succ n ih =>
    cases i with
    | zero => simp [ascending, Nat.mod_eq_of_lt x.isLt]
    | succ i =>
      have hi' : i < (ascending q n (x + q)).length := by simpa [ascending] using hi
      have e := ih (x + q) i hi'
      simp only [ascending, List.getElem_cons_succ, e, BitVec.toNat_add, Nat.mod_add_mod,
        Nat.add_mul, Nat.one_mul]
      congr 1
      omega

@[simp] theorem initTable_length (ws : WordSize) (t : Nat) : (initTable ws t).length = t := by
  simp [initTable]

@[simp] theorem packKey_length (ws : WordSize) (key : List Byte) :
    (packKey ws key).length = keyWordCount ws key.length := by simp [packKey]

@[simp] theorem mixStep_S_length {w : Nat} (m : MixState w) : (mixStep m).S.length = m.S.length := by
  simp [mixStep]

@[simp] theorem mixStep_L_length {w : Nat} (m : MixState w) : (mixStep m).L.length = m.L.length := by
  simp [mixStep]

@[simp] theorem mixLoop_S_length {w : Nat} (n : Nat) (m : MixState w) :
    (mixLoop n m).S.length = m.S.length := by
  induction n generalizing m with
  | zero => rfl
  | succ n ih => simp [mixLoop, ih]

@[simp] theorem mixLoop_L_length {w : Nat} (n : Nat) (m : MixState w) :
    (mixLoop n m).L.length = m.L.length := by
  induction n generalizing m with
  | zero => rfl
  | succ n ih => simp [mixLoop, ih]

@[simp] theorem subkeys_length (ws : WordSize) (r : Nat) (key : List Byte) :
    (subkeys ws r key).length = tableLen r := by simp [subkeys, expandKey]

@[simp] theorem expandKey_L_length (ws : WordSize) (r : Nat) (key : List Byte) :
    (expandKey ws r key).L.length = keyWordCount ws key.length := by simp [expandKey]

@[simp] theorem keyBytes_length (s : State) (b : Nat) : (s.keyBytes b).length = b := by
  simp [State.keyBytes]

@[simp] theorem table_length (s : State) (p : Rc5Params) : (s.table p).length = tableLen p.r := by
  simp [State.table, State.expansion, expandKey]

@[simp] theorem tableBytes_length {w : Nat} (t : List (BitVec w)) :
    (tableBytes t).length = 8 * t.length := by simp [tableBytes]

/-- A key of at most 255 bytes has at most 128 words. -/
theorem keyWordCount_le (ws : WordSize) {b : Nat} (hb : b ≤ 255) : keyWordCount ws b ≤ 128 := by
  rcases ws.bytes_cases with h | h | h <;> simp only [keyWordCount, h] <;> omega

/-- A table written to S reads back entry by entry (`10_state.md` R48). -/
theorem ramRead_of_write_table {s t : State} {base : Nat} (ws : WordSize)
    {tab : List (BitVec ws.bits)} (hm : t.mem = Memory.write s.mem base (tableBytes tab))
    (he : t.epoch = s.epoch) {k : Nat} (hk : k < tab.length) :
    t.ramRead (base + 8 * k) 8 = (tab.getD k 0).toNat := by
  rw [ramRead_of_write_dwords hm he (by simpa using hk)]
  have hw : ws.bits ≤ 64 := by cases ws <;> decide
  simp [hk, BitVec.toNat_setWidth,
    Nat.mod_eq_of_lt (Nat.lt_of_lt_of_le (tab[k]).isLt (Nat.pow_le_pow_right (by decide) hw))]

/-! ### Block functions on byte strings -/

@[simp] theorem bytesOfBlock_length (ws : WordSize) (x : BitVec ws.bits × BitVec ws.bits) :
    (bytesOfBlock ws x).length = ws.blockBytes := by
  simp [bytesOfBlock, WordSize.blockBytes]
  omega

@[simp] theorem encBytes_length (ws : WordSize) (r : Nat) (S : List (BitVec ws.bits))
    (x : List Byte) : (encBytes ws r S x).length = ws.blockBytes := by simp [encBytes]

@[simp] theorem decBytes_length (ws : WordSize) (r : Nat) (S : List (BitVec ws.bits))
    (x : List Byte) : (decBytes ws r S x).length = ws.blockBytes := by simp [decBytes]

/-- A word survives its u bytes. -/
theorem ofNat_leNat_leBytes (ws : WordSize) (x : BitVec ws.bits) :
    BitVec.ofNat ws.bits (leNat (leBytes ws.bytes x.toNat)) = x := by
  apply BitVec.eq_of_toNat_eq
  rw [leNat_leBytes, ws.two_pow_bits, BitVec.toNat_ofNat, Nat.mod_mod, Nat.mod_eq_of_lt x.isLt]

theorem blockOfBytes_bytesOfBlock (ws : WordSize) (x : BitVec ws.bits × BitVec ws.bits) :
    blockOfBytes ws (bytesOfBlock ws x) = x := by
  have h1 : (leBytes ws.bytes x.1.toNat).length = ws.bytes := by simp
  have h2 : (leBytes ws.bytes x.2.toNat).length = ws.bytes := by simp
  have e1 : (bytesOfBlock ws x).take ws.bytes = leBytes ws.bytes x.1.toNat := by
    rw [bytesOfBlock, List.take_append_of_le_length (Nat.le_of_eq h1.symm),
      List.take_of_length_le (Nat.le_of_eq h1)]
  have e2 : (bytesOfBlock ws x).drop ws.bytes = leBytes ws.bytes x.2.toNat := by
    rw [bytesOfBlock, List.drop_append, h1, List.drop_of_length_le (Nat.le_of_eq h1)]
    simp
  rw [blockOfBytes, e1, e2, List.take_of_length_le (Nat.le_of_eq h2), ofNat_leNat_leBytes,
    ofNat_leNat_leBytes]

theorem bytesOfBlock_blockOfBytes (ws : WordSize) (x : List Byte) (hx : x.length = ws.blockBytes) :
    bytesOfBlock ws (blockOfBytes ws x) = x := by
  have key (y : List Byte) (hy : y.length = ws.bytes) :
      leBytes ws.bytes (BitVec.ofNat ws.bits (leNat y)).toNat = y := by
    have h := leNat_lt y
    rw [hy, ws.two_pow_bits] at h
    rw [BitVec.toNat_ofNat, Nat.mod_eq_of_lt h]
    have e := leBytes_leNat y
    rwa [hy] at e
  simp only [WordSize.blockBytes] at hx
  have h1 : (x.take ws.bytes).length = ws.bytes := by simp; omega
  have h2 : (x.drop ws.bytes).length = ws.bytes := by simp; omega
  rw [bytesOfBlock, blockOfBytes, key _ h1, List.take_of_length_le (Nat.le_of_eq h2), key _ h2,
    List.take_append_drop]

/-- Decryption undoes encryption on a byte string of one block. -/
theorem decBytes_encBytes (ws : WordSize) (r : Nat) (S : List (BitVec ws.bits)) {x : List Byte}
    (hx : x.length = ws.blockBytes) : decBytes ws r S (encBytes ws r S x) = x := by
  have e (y : BitVec ws.bits × BitVec ws.bits) : decryptBlock S r (encryptBlock S r y) = y := by
    simp [decryptBlock, encryptBlock, decRounds_encRounds]
  rw [decBytes, encBytes, blockOfBytes_bytesOfBlock, e, bytesOfBlock_blockOfBytes ws x hx]

/-! ### The chains -/

theorem cbcEncChain_length {enc : List Byte → List Byte} {n : Nat} (henc : ∀ x, (enc x).length = n)
    (prev : List Byte) (ps : List (List Byte)) :
    (cbcEncChain enc prev ps).length = ps.length * n := by
  induction ps generalizing prev with
  | nil => simp [cbcEncChain]
  | cons p ps ih => simp [cbcEncChain, henc, ih, Nat.add_mul]; omega

theorem cbcDecChain_length {dec : List Byte → List Byte} {n : Nat} (hdec : ∀ x, (dec x).length = n)
    {prev : List Byte} (hp : prev.length = n) {cs : List (List Byte)} (hc : ∀ c ∈ cs, c.length = n) :
    (cbcDecChain dec prev cs).length = cs.length * n := by
  induction cs generalizing prev with
  | nil => simp [cbcDecChain]
  | cons c cs ih =>
    have h1 := ih (hc c (by simp)) (fun x hx => hc x (by simp [hx]))
    have h2 : (xorBytes (dec c) prev).length = n := by
      rw [xorBytes_length (by rw [hdec, hp]), hp]
    simp [cbcDecChain, h1, h2, Nat.add_mul]
    omega

/-- The chain of decryptions undoes the chain of encryptions. -/
theorem cbcDecChain_cbcEncChain {enc dec : List Byte → List Byte} {n : Nat} (hn : 0 < n)
    (henc : ∀ x, (enc x).length = n) (hinv : ∀ x, x.length = n → dec (enc x) = x)
    (prev : List Byte) (hp : prev.length = n) (ps : List (List Byte)) (hps : ∀ p ∈ ps, p.length = n) :
    cbcDecChain dec prev (chunks n (cbcEncChain enc prev ps)) = ps.flatten := by
  induction ps generalizing prev with
  | nil => simp [cbcEncChain, cbcDecChain]
  | cons p ps ih =>
    have hpl : p.length = n := hps p (by simp)
    have hx : (xorBytes p prev).length = n := by rw [xorBytes_length (by rw [hpl, hp]), hp]
    rw [cbcEncChain, chunks_append hn (henc _), cbcDecChain, hinv _ hx,
      xorBytes_cancel (by rw [hpl, hp]), ih _ (henc _) (fun q hq => hps q (by simp [hq])),
      List.flatten_cons]

/-- The envelope's length: one block for the IV, and the plaintext's. -/
theorem cbcEncrypt_length {enc : List Byte → List Byte} {n : Nat} (henc : ∀ x, (enc x).length = n)
    (pt iv : List Byte) : (cbcEncrypt enc n pt iv).length = n + pt.length / n * n := by
  simp [cbcEncrypt, henc, cbcEncChain_length henc]

/-- The first block of an envelope is the encrypted IV. -/
theorem blockAt_cbcEncrypt {enc : List Byte → List Byte} {n : Nat} (henc : ∀ x, (enc x).length = n)
    (pt iv : List Byte) : blockAt n (cbcEncrypt enc n pt iv) 0 = enc iv := by
  have h := henc iv
  rw [blockAt, cbcEncrypt, Nat.zero_mul, List.drop_zero,
    List.take_append_of_le_length (Nat.le_of_eq h.symm), List.take_of_length_le (Nat.le_of_eq h)]

/-- The plaintext CBC_DEC recovers has the envelope's length less one block. -/
theorem cbcDecrypt_length {dec : List Byte → List Byte} {n : Nat} (hdec : ∀ x, (dec x).length = n)
    (env : List Byte) : (cbcDecrypt dec n env).length = (env.length / n - 1) * n := by
  rw [cbcDecrypt, cbcDecChain_length hdec (prev := cbcRecoverIv dec n env) (hdec _)
    (fun c hc => length_of_mem_chunks (List.mem_of_mem_tail hc))]
  simp

/-! ### Padding and the IV -/

/-- The padded message has the next multiple of the block size, strictly above the message's length
(`44_cbc_pad.md` R201). -/
theorem pad_length {bs : Nat} (hbs : 0 < bs) (m : List Byte) :
    (pad bs m).length = (m.length / bs + 1) * bs := by
  have h1 := Nat.mod_lt m.length hbs
  have h2 := Nat.div_add_mod m.length bs
  rw [Nat.add_mul, Nat.one_mul, Nat.mul_comm]
  simp only [pad, List.length_append, List.length_replicate]
  omega

/-- The last byte of a padded message is the padding's length (`44_cbc_pad.md` R208). -/
theorem lastByte_pad {bs : Nat} (h1 : 0 < bs) (h2 : bs < 256) (m : List Byte) :
    lastByte (pad bs m) = bs - m.length % bs := by
  have hm := Nat.mod_lt m.length h1
  have hl : (pad bs m).length = m.length + (bs - m.length % bs) := by simp [pad]
  have hx : m.length + (bs - m.length % bs) - 1 <
      (m ++ List.replicate (bs - m.length % bs) (BitVec.ofNat 8 (bs - m.length % bs))).length := by
    simp only [List.length_append, List.length_replicate]
    omega
  rw [lastByte, byteAt, hl, pad, List.getD_eq_getElem _ _ hx,
    List.getElem_append_right (by omega), List.getElem_replicate, BitVec.toNat_ofNat]
  omega

/-- The padding the core adds passes its check (`44_cbc_pad.md` R208). -/
theorem padValid_pad {bs : Nat} (h1 : 0 < bs) (h2 : bs < 256) (m : List Byte) :
    padValid bs (pad bs m) = true := by
  have hm := Nat.mod_lt m.length h1
  have hl : (pad bs m).length = m.length + (bs - m.length % bs) := by simp [pad]
  have d1 : 1 ≤ bs - m.length % bs := by omega
  have d2 : bs - m.length % bs ≤ bs := by omega
  rw [padValid, lastByte_pad h1 h2, hl, Nat.add_sub_cancel, pad, List.drop_left]
  simp only [d1, d2, decide_true, Bool.true_and, List.all_eq_true, decide_eq_true_eq]
  intro x hx
  rw [(List.mem_replicate.1 hx).2, BitVec.toNat_ofNat]
  omega

@[simp] theorem ivBytes_length (p : LcgParams) (n : Nat) : (ivBytes p n).length = n := by
  have e (k : Nat) (x : DWord) : (lcgFrom p k x).length = k := by
    induction k generalizing x with
    | zero => rfl
    | succ k ih => simp [lcgFrom, ih]
  simp [ivBytes, lcgSeq, e]

end Sys2Proof.Machine
end

