-- ==== Sys2Proof/Laws/Registers.lean ====
section
/-! SUPPORT. Registers: reading after writing (`10_state.md` R20), and the bits of STATUS and CTRL
(`10_state.md` sections 3 and 4), and the four registers of a 16-byte string (R45, R46). -/

namespace Sys2Proof.Machine

/-- A read-write register is neither STATUS, CTRL nor CMD, nor read-only. -/
theorem writable_kind {r : Reg} (hr : storesAllBits r = true ∨ r = .keyLen) :
    r ≠ .status ∧ r ≠ .ctrl ∧ r ≠ .cmd ∧ readOnly r = false := by
  revert hr
  cases r <;> decide

/-- A write to one read-write register leaves every other register. -/
theorem readReg_writeReg_ne (s : State) (v : Word) {r r' : Reg}
    (hr : storesAllBits r = true ∨ r = .keyLen) (h : r' ≠ r) :
    readReg (writeReg s r v) r' = readReg s r' := by
  obtain ⟨h1, h2, h3, -⟩ := writable_kind hr
  clear hr
  cases r <;> simp only [writeReg, ne_eq, not_true_eq_false] at h1 h2 h3 ⊢
  all_goals
    cases r' <;>
      simp only [ne_eq, not_true_eq_false, readReg, State.statusWord, State.ctrlWord, State.busy,
        loHalf_setHi, hiHalf_setLo] at h ⊢

theorem zext_byte_toNat (x : BitVec 8) : (0#24 ++ x : Word).toNat = x.toNat := by
  have e := BitVec.toNat_append 0#24 x
  simpa using e

/-- A read-write register reads back as written, KEY_LEN in its eight bits. -/
theorem readReg_writeReg_same (s : State) (v : Word) {r : Reg}
    (hr : storesAllBits r = true ∨ r = .keyLen) :
    (readReg (writeReg s r v) r).toNat = if r = .keyLen then v.toNat % 256 else v.toNat := by
  obtain ⟨h1, h2, h3, h4⟩ := writable_kind hr
  clear hr
  have hk : (0#24 ++ v.extractLsb' 0 8 : Word).toNat = v.toNat % 256 := by
    rw [zext_byte_toNat, BitVec.extractLsb'_toNat]; simp
  cases r <;> simp [writeReg, readReg, readOnly, hk] at h1 h2 h3 h4 ⊢

theorem getLsbD_ofBool (b : Bool) (k : Nat) :
    (BitVec.ofBool b).getLsbD k = (decide (k = 0) && b) := by
  cases b <;> cases k <;> simp [BitVec.ofBool]

/-- The bits of a STATUS word (`10_state.md` section 3). -/
theorem getLsbD_packStatus (lastOp : BitVec 8) (code : BitVec 4)
    (ovr periodFound schedValid err done busy : Bool) {k : Nat} (hk : k < 32) :
    (packStatus lastOp code ovr periodFound schedValid err done busy).getLsbD k =
      (if k = 0 then busy else if k = 1 then done else if k = 2 then err
       else if k = 3 then schedValid else if k = 4 then periodFound else if k = 5 then ovr
       else if 8 ≤ k ∧ k ≤ 11 then code.getLsbD (k - 8)
       else if 16 ≤ k ∧ k ≤ 23 then lastOp.getLsbD (k - 16) else false) := by
  unfold packStatus
  simp only [BitVec.getLsbD_append, getLsbD_ofBool]
  interval_cases k <;> simp

/-- The registers do not depend on the model's own fields. -/
theorem readReg_congr_own (s : State) (draws : Nat) (script : List Event) (resp : BusResponse)
    (r : Reg) : readReg { s with draws := draws, script := script, resp := resp } r = readReg s r := by
  cases r <;> rfl

/-- Byte `j` of a word made of four bytes (`20_memory.md` R61). -/
theorem extract_wordOfBytes (b0 b1 b2 b3 : Byte) {j : Nat} (hj : j < 4) :
    BitVec.extractLsb' (8 * j) 8 (wordOfBytes b0 b1 b2 b3) = [b0, b1, b2, b3].getD j 0 := by
  have h0 := b0.isLt
  have h1 := b1.isLt
  have h2 := b2.isLt
  have h3 := b3.isLt
  apply BitVec.eq_of_toNat_eq
  rw [BitVec.extractLsb'_toNat, wordOfBytes_toNat, Nat.shiftRight_eq_div_pow]
  simp only [leNat]
  interval_cases j <;> simp <;> omega

/-- Byte `k` of the four registers is byte `k` of the string, 0 beyond its end
(`10_state.md` R45, R46). -/
theorem Quad.byte_ofBytes (bs : List Byte) {k : Nat} (hk : k < 16) :
    (Quad.ofBytes bs).byte k = byteAt bs k := by
  have hj : k % 4 < 4 := Nat.mod_lt _ (by decide)
  have e : k = 4 * (k / 4) + k % 4 := by omega
  have hq : k / 4 < 4 := by omega
  unfold Quad.byte Quad.ofBytes
  generalize k / 4 = q at e hq ⊢
  generalize k % 4 = j at e hj ⊢
  subst e
  interval_cases q <;> refine Eq.trans (extract_wordOfBytes _ _ _ _ hj) ?_ <;>
    interval_cases j <;> rfl

end Sys2Proof.Machine
end

