-- ==== Sys2Proof/Laws/Frame.lean ====
section
/-! SUPPORT. What the shared operations of the commands leave in RAM: the published key schedule
(`42_rc5_key_schedule.md` R166), a store to OUT_BUF after it, the bounds of both, the write sets
(`30_encoding.md` R96) and the pieces of the invariant. -/

namespace Sys2Proof.Machine

/-! ### Sizes of results -/

@[simp] theorem md5Digest_length (m : List Byte) : (md5Digest m).length = 16 := by simp [md5Digest]

@[simp] theorem drawBytes_length (draw n : Nat) : (drawBytes draw n).length = n := by
  simp [drawBytes]

theorem WordSize.blockBytes_pos (ws : WordSize) : 0 < ws.blockBytes := by
  rcases ws.blockBytes_cases with h | h | h <;> omega

/-- The envelope of CBC_ENC has one block for the IV and the padded input's blocks
(`44_cbc_pad.md` R205). -/
theorem envelope_length (s : State) (p : Rc5Params) : (s.envelope p).length =
    p.ws.blockBytes + (s.inLen.toNat / p.ws.blockBytes + 1) * p.ws.blockBytes := by
  have hb := p.ws.blockBytes_pos
  rw [State.envelope, cbcEncrypt_length (encBytes_length _ _ _), pad_length hb, Nat.mul_div_cancel _ hb]
  simp [State.inBytes]

/-- The envelope of an input that fits IN_BUF fits OUT_BUF (`44_cbc_pad.md` R205). -/
theorem envelope_fits {s : State} (h : s.inTooLong = false) (p : Rc5Params) :
    (s.envelope p).length ≤ s.cfg.nOut := by
  have hl := inTooLong_eq_false.1 h
  have hn := nIn_bounds s.cfg
  rw [envelope_length, nOut_eq]
  rcases p.ws.blockBytes_cases with h | h | h <;> rw [h] <;> omega

/-- The padded plaintext of CBC_DEC has the input's length less one block (`44_cbc_pad.md` R207). -/
theorem recoveredText_length {s : State} {p : Rc5Params} (h : s.inLen.toNat % p.ws.blockBytes = 0) :
    (s.recoveredText p).length = s.inLen.toNat - p.ws.blockBytes := by
  rw [State.recoveredText, cbcDecrypt_length (decBytes_length _ _ _)]
  simp only [State.inBytes, ramBytes_length, Nat.sub_mul, Nat.one_mul]
  rw [Nat.div_mul_cancel (Nat.dvd_of_mod_eq_zero h)]

/-- bs as R96 computes it from RC5_W is bs of the checked parameters. -/
theorem regBlockBytes_eq {s : State} {p : Rc5Params} (hp : s.rc5Check = some p) :
    s.regBlockBytes = p.ws.blockBytes := by
  rw [State.regBlockBytes, (rc5Check_some_iff.1 hp).1]
  rfl

/-! ### The published key schedule -/

/-- Publishing a schedule changes the S entries 0 to t-1 and no other RAM byte. -/
theorem publishSchedule_ramByte (s : State) (p : Rc5Params) (a : Nat) :
    (publishSchedule p s).ramByte a =
      if sBase ≤ a ∧ a < sBase + 8 * tableLen p.r then byteAt (tableBytes (s.table p)) (a - sBase)
      else s.ramByte a := by
  have e := ramByte_of_write (s := s) (t := publishSchedule p s) (base := sBase)
    (bs := tableBytes (s.table p)) rfl rfl a
  rwa [tableBytes_length, table_length] at e

theorem publishSchedule_entry (s : State) (p : Rc5Params) {k : Nat} (hk : k < tableLen p.r) :
    (publishSchedule p s).ramRead (sBase + 8 * k) 8 = ((s.table p).getD k 0).toNat :=
  ramRead_of_write_table (s := s) (base := sBase) (tab := s.table p) p.ws (by simp) (by simp)
    (by rw [table_length]; exact hk)

/-- A state with the schedule's registers and the table's bytes has the schedule published. -/
theorem schedulePublished_of {s t : State} {p : Rc5Params} (hp : s.rc5Check = some p)
    (hm : ∀ k, k < tableLen p.r → t.ramRead (sBase + 8 * k) 8 = ((s.table p).getD k 0).toNat)
    (hw : t.schedW = BitVec.ofNat 32 p.ws.bits) (hr : t.schedR = BitVec.ofNat 32 p.r)
    (hv : t.schedValid = true) : SchedulePublished p s t := by
  have h4 := (rc5Check_some_iff.1 hp).2.2.2.1
  refine ⟨table_length s p, hm, ?_, ?_, hv⟩
  · rw [hw]; cases p.ws <;> rfl
  · rw [hr, BitVec.toNat_ofNat]; omega

/-- A store to OUT_BUF after a published schedule: the table and the stored bytes both read back, and no
other RAM byte changes. -/
theorem out_after_schedule {s t : State} {p : Rc5Params} {out : List Byte}
    (hm : t.mem = Memory.write (publishSchedule p s).mem outBase out) (he : t.epoch = s.epoch)
    (hr : p.r ≤ 255) :
    (∀ k, k < tableLen p.r → t.ramRead (sBase + 8 * k) 8 = ((s.table p).getD k 0).toNat) ∧
    t.ramBytes outBase out.length = out ∧
    (∀ a, ¬ (sBase ≤ a ∧ a < sBase + 8 * tableLen p.r) →
      ¬ (outBase ≤ a ∧ a < outBase + out.length) → t.ramByte a = s.ramByte a) := by
  have hb := bases
  have hby := ramByte_of_write (s := publishSchedule p s) (t := t) (base := outBase) (bs := out) hm he
  refine ⟨fun k hk => ?_, ramBytes_of_write (s := publishSchedule p s) hm he, fun a h1 h2 => ?_⟩
  · rw [← publishSchedule_entry s p hk]
    refine congrArg leNat
      (ramBytes_congr (s := publishSchedule p s) (t := t) (fun j hj => ?_))
    simp only [tableLen] at hk
    rw [hby, if_neg (by omega)]
  · rw [hby, if_neg h2, publishSchedule_ramByte, if_neg h1]

/-! ### Operands and the key schedule -/

/-- The check depends on the RC5 registers and KEY_LEN alone. -/
theorem rc5Check_congr {s t : State} (h : SameKeyOperands s t) : t.rc5Check = s.rc5Check := by
  obtain ⟨h0, h1, h2, h3, -⟩ := h
  simp only [State.rc5Check, h0, h1, h2, h3]

/-- The expansion depends on the operands of the key expansion alone. -/
theorem expansion_congr {s t : State} {p : Rc5Params} (hp : s.rc5Check = some p)
    (h : SameKeyOperands s t) : t.expansion p = s.expansion p := by
  have hb := (rc5Check_eq_some.1 hp).2.2.1
  obtain ⟨-, -, h1, h2, h3⟩ := h
  have e : t.keyBytes p.b = s.keyBytes p.b := by
    unfold State.keyBytes
    apply List.map_congr_left
    intro k hk
    have hk' := List.mem_range.1 hk
    rw [h2]
    by_cases hh : k < s.keyLen.toNat
    · rw [if_pos hh, if_pos hh, h3 k (by omega)]
    · rw [if_neg hh, if_neg hh]
  unfold State.expansion
  rw [e]

/-! ### Write sets -/

theorem not_in_s_of_writesByte {s : State} {i : Instr} {p : Rc5Params} (hp : s.rc5Check = some p)
    (hi : expandsKey i = true) {a : Nat} (h : writesByte s i a = false) :
    ¬ (sBase ≤ a ∧ a < sBase + 8 * tableLen p.r) := by
  obtain ⟨-, hr, -, hr5, -⟩ := rc5Check_eq_some.1 hp
  simp only [writesByte, Bool.or_eq_false_iff, Bool.and_eq_false_iff, decide_eq_false_iff_not,
    sWriteLen, hi, if_true] at h
  have h1 := h.1.2
  simp only [tableLen]
  omega

theorem not_in_out_of_writesByte {s : State} {i : Instr} {a n : Nat} (h : writesByte s i a = false)
    (hn : n ≤ outWriteLen s i) (hc : n ≤ s.cfg.nOut) : ¬ (outBase ≤ a ∧ a < outBase + n) := by
  simp only [writesByte, Bool.or_eq_false_iff, Bool.and_eq_false_iff, decide_eq_false_iff_not] at h
  have h1 := h.2
  omega

theorem not_in_key_of_writesByte {s : State} {i : Instr} {a : Nat} (h : writesByte s i a = false) :
    ¬ (keyBase ≤ a ∧ a < keyBase + min (keyWriteLen i) 255) := by
  simp only [writesByte, Bool.or_eq_false_iff, Bool.and_eq_false_iff, decide_eq_false_iff_not] at h
  have h1 := h.1.1
  omega

/-- Nothing differs between a state and itself. -/
theorem FrameOf.refl (i : Instr) (s : State) : FrameOf i s s :=
  ⟨fun _ _ _ => rfl, fun _ _ => rfl, fun _ => rfl, fun _ => rfl, rfl, rfl, fun _ => rfl, rfl, rfl,
    rfl, rfl⟩

/-- A completion keeps a frame: it writes STATUS alone. -/
theorem FrameOf.finish {i : Instr} {s u : State} (h : FrameOf i s u) (k : ErrCode) :
    FrameOf i s (finish k u) := by
  refine ⟨fun r h1 h2 => ?_, h.ram, h.schedValid, h.periodFound, h.ovr, h.lastOp, h.keyWords, h.cfg,
    h.epoch, h.script, h.resp⟩
  rw [← h.registers r h1 h2]
  cases r <;> first | exact absurd rfl h1 | rfl

/-! ### Pieces of the invariant -/

/-- A write inside the RAMs keeps every byte written inside the RAMs. -/
theorem ramAddress_write {cfg : Config} {m : Memory} {base : Nat} {bs : List Byte}
    (h : ∀ c ∈ m, RamAddress cfg c.1)
    (hb : ∀ a, base ≤ a → a < base + bs.length → RamAddress cfg a) :
    ∀ c ∈ Memory.write m base bs, RamAddress cfg c.1 := by
  intro c hc
  rcases Memory.mem_write hc with h' | h'
  · exact h c h'
  · exact hb _ h'.1 h'.2

/-- A schedule survives a change outside S. -/
theorem State.holdsSchedule.of_same {s t : State} (h : s.holdsSchedule) (hw : t.schedW = s.schedW)
    (hr : t.schedR = s.schedR)
    (hb : ∀ a, sBase ≤ a → a < sBase + 4096 → t.ramByte a = s.ramByte a) : t.holdsSchedule := by
  obtain ⟨ws, r, key, h1, h2, h3, h4, h5⟩ := h
  refine ⟨ws, r, key, h1, h2, hw.trans h3, hr.trans h4, ?_⟩
  rw [← h5]
  apply ramBytes_congr
  intro k hk
  simp only [tableLen] at hk
  exact hb _ (by omega) (by omega)

/-- A published schedule is one. -/
theorem publishSchedule_holds (s : State) {p : Rc5Params} (hp : s.rc5Check = some p) :
    (publishSchedule p s).holdsSchedule := by
  obtain ⟨-, -, -, h4, h5, -⟩ := rc5Check_eq_some.1 hp
  refine ⟨p.ws, p.r, s.keyBytes p.b, h4, by simpa using h5, rfl, rfl, ?_⟩
  have e := ramBytes_of_write (s := s) (t := publishSchedule p s) (base := sBase)
    (bs := tableBytes (s.table p)) rfl rfl
  rw [tableBytes_length, table_length] at e
  exact e

theorem publishSchedule_keyWords_length (s : State) {p : Rc5Params} (hp : s.rc5Check = some p) :
    (publishSchedule p s).keyWords.length ≤ 128 := by
  obtain ⟨-, -, -, -, h5, -⟩ := rc5Check_eq_some.1 hp
  have e : (publishSchedule p s).keyWords.length = keyWordCount p.ws p.b := by
    simp [publishSchedule, State.expansion]
  rw [e]
  exact keyWordCount_le _ h5

end Sys2Proof.Machine
end

