-- ==== Sys2Proof/Laws/Lcg.lean ====
section
/-! SUPPORT. The LCG sequence as numbers (`40_lcg.md` R121). -/

namespace Sys2Proof.Machine

@[simp] theorem lcgFrom_length (p : LcgParams) (n : Nat) (x : DWord) :
    (lcgFrom p n x).length = n := by
  induction n generalizing x with
  | zero => rfl
  | succ n ih => simp [lcgFrom, ih]

@[simp] theorem lcgSeq_length (p : LcgParams) (n : Nat) : (lcgSeq p n).length = n := lcgFrom_length ..

/-- One step of the recurrence is exact (`00_scope.md` R6). -/
theorem succ_toNat {p : LcgParams} (hm : 0 < p.m.toNat) (x : DWord) :
    (p.succ x).toNat = (p.a.toNat * x.toNat + p.c.toNat) % p.m.toNat := by
  have h1 := Nat.mod_lt (p.a.toNat * x.toNat + p.c.toNat) hm
  have h2 := p.m.isLt
  rw [LcgParams.succ, BitVec.toNat_ofNat, Nat.mod_eq_of_lt (by omega)]

theorem lcgValue_lt {p : LcgParams} (h : ¬ LcgBad p) (i : Nat) : lcgValue p i < p.m.toNat := by
  simp only [LcgBad, not_or] at h
  cases i with
  | zero => simp only [lcgValue]; omega
  | succ i => exact Nat.mod_lt _ (by omega)

theorem lcgFrom_getElem {p : LcgParams} (h : ¬ LcgBad p) (n k : Nat) (x : DWord)
    (hx : x.toNat = lcgValue p k) (i : Nat) (hi : i < (lcgFrom p n x).length) :
    ((lcgFrom p n x)[i]).toNat = lcgValue p (k + i) := by
  induction n generalizing k x i with
  | zero => simp at hi
  | succ n ih =>
    have hm : 0 < p.m.toNat := by simp only [LcgBad] at h; omega
    cases i with
    | zero => simpa [lcgFrom] using hx
    | succ i =>
      have e : k + (i + 1) = (k + 1) + i := by omega
      simp only [lcgFrom, List.getElem_cons_succ, e]
      apply ih (k + 1)
      rw [succ_toNat hm, hx]
      rfl

/-- Value i of the sequence is X[i]. -/
theorem lcgSeq_getElem {p : LcgParams} (h : ¬ LcgBad p) (n i : Nat)
    (hi : i < (lcgSeq p n).length) : ((lcgSeq p n)[i]).toNat = lcgValue p i := by
  have e := lcgFrom_getElem h n 0 p.x0 rfl i hi
  rw [Nat.zero_add] at e
  exact e

end Sys2Proof.Machine
end

