-- ==== Sys2Proof/Laws/PerInstr.lean ====
section
/-! SUPPORT. One lemma for each constructor of Instr: the word of a command is legal by the formula of
`30_encoding.md` R93, which the decoder does not use. -/

namespace Sys2Proof.Laws

/-- The word of the command passes the three checks of R93. -/
def EncodedWellFormed.Statement (i : Instr) : Prop :=
  (CmdFields.ofWord (encode i)).wellFormed = true

theorem EncodedWellFormed.lcgGen : EncodedWellFormed.Statement .lcgGen := by
  unfold EncodedWellFormed.Statement; decide

theorem EncodedWellFormed.lcgPeriod (src : SeqSource) :
    EncodedWellFormed.Statement (.lcgPeriod src) := by
  unfold EncodedWellFormed.Statement; cases src <;> decide

theorem EncodedWellFormed.md5 (toKey : Bool) : EncodedWellFormed.Statement (.md5 toKey) := by
  unfold EncodedWellFormed.Statement; cases toKey <;> decide

theorem EncodedWellFormed.keysched : EncodedWellFormed.Statement .keysched := by
  unfold EncodedWellFormed.Statement; decide

theorem EncodedWellFormed.encBlock : EncodedWellFormed.Statement .encBlock := by
  unfold EncodedWellFormed.Statement; decide

theorem EncodedWellFormed.decBlock : EncodedWellFormed.Statement .decBlock := by
  unfold EncodedWellFormed.Statement; decide

theorem EncodedWellFormed.cbcEnc : EncodedWellFormed.Statement .cbcEnc := by
  unfold EncodedWellFormed.Statement; decide

theorem EncodedWellFormed.cbcDec : EncodedWellFormed.Statement .cbcDec := by
  unfold EncodedWellFormed.Statement; decide

end Sys2Proof.Laws
end

