-- ==== Sys2Proof/Machine/HostProgram.lean ====
section
/-! DEFINITION. The host side of the interface: the program notation of `30_encoding.md` R98, its
pseudo-instructions (R99) and a host that runs such a program against the core. The host keeps its own
program counter, outside the core (`10_state.md` R53). -/

namespace Sys2Proof.Machine

/-- A line of a host program (`30_encoding.md` R98). Labels are numbers here; `; expect val` states a
value and does nothing. -/
inductive HostLine where
  /-- `WR off, val`: a 32-bit write. -/
  | wr (off : Offset) (val : Word)
  /-- `RD off`: a 32-bit read, with the value the rules give where one is stated. -/
  | rd (off : Offset) (expect : Option Word)
  /-- `label:`. -/
  | label (name : Nat)
  /-- `BNZ reg_bit, label`: branch if the bit of the last value read is 1; a bit above 31 never is
  (log entry 20). -/
  | bnz (bit : Nat) (target : Nat)
  deriving DecidableEq, Repr

/-- `CMD mnemonic [flag]` (`30_encoding.md` R98, R99). -/
def lineCmd (i : Instr) : HostLine := .wr 0x00C#16 (encode i)

/-- `CMD RAW val` (`30_encoding.md` R98). -/
def lineRaw (val : Word) : HostLine := .wr 0x00C#16 val

/-- `WAIT`, with the label it marks its line by (`30_encoding.md` R99). -/
def linesWait (name : Nat) : List HostLine := [.label name, .rd 0x004#16 none, .bnz 0 name]

/-- `RUN m [f]` (`30_encoding.md` R99). -/
def linesRun (i : Instr) (name : Nat) : List HostLine := lineCmd i :: linesWait name

/-- `WR64 off, v` (`30_encoding.md` R99). The offset off+4 is taken modulo 2^16 (DESIGN CHOICE, log
entry 28). -/
def linesWr64 (off : Offset) (v : DWord) : List HostLine :=
  [.wr off (loHalf v), .wr (off + 4) (hiHalf v)]

/-- `WRBYTES base, X`, the bytes past the end of X taken as 0 (`30_encoding.md` R99). The offsets
base+4q are taken modulo 2^16 (DESIGN CHOICE, log entry 28). -/
def linesWrBytes (base : Offset) (x : List Byte) : List HostLine :=
  (List.range ((x.length + 3) / 4)).map (fun q =>
    .wr (base + BitVec.ofNat 16 (4 * q))
      (wordOfBytes (byteAt x (4 * q)) (byteAt x (4 * q + 1)) (byteAt x (4 * q + 2))
        (byteAt x (4 * q + 3))))

/-- `CLRST` (`30_encoding.md` R99). -/
def linesClrst : List HostLine := [.wr 0x004#16 0x00000026#32]

/-- A host: its program, its program counter (an index of a line) and the last value it read. -/
structure HostAgent where
  program : List HostLine
  pc      : Nat
  last    : Word
  deriving DecidableEq, Repr

/-- The index of a label's line: the first such line where several carry the label, the end of the
program where none does. R98 says neither; both are the model's choice (DESIGN CHOICE, log entry 20). -/
def HostAgent.find (h : HostAgent) (name : Nat) : Nat :=
  h.program.findIdx (fun l => decide (l = .label name))

/-- The access the host makes next, if its next line is one. -/
def HostAgent.nextAccess (h : HostAgent) : Option Access :=
  match h.program[h.pc]? with
  | some (.wr off val) => some (.write .bits32 off val)
  | some (.rd off _) => some (.read .bits32 off)
  | some (.label _) => none
  | some (.bnz _ _) => none
  | none => none

/-- The value last read, after a bus answer: an answer without data leaves it (log entry 20). -/
def lastAfter (last : Word) : BusResponse → Word
  | .idle => last
  | .data v => v
  | .accepted => last
  | .error => last

/-- The host after its next line, given what the bus answers to the access of that line. -/
def HostAgent.advance (h : HostAgent) (resp : BusResponse) : HostAgent :=
  match h.program[h.pc]? with
  | some (.wr _ _) => { h with pc := h.pc + 1 }
  | some (.rd _ _) => { h with pc := h.pc + 1, last := lastAfter h.last resp }
  | some (.label _) => { h with pc := h.pc + 1 }
  | some (.bnz bit target) =>
    if h.last.getLsbD bit then { h with pc := h.find target } else { h with pc := h.pc + 1 }
  | none => h

/-- A host and the core, and whose turn comes next. -/
structure System where
  core : State
  host : HostAgent
  deriving DecidableEq, Repr

/-- The host's turn: it runs its next line, the access of that line being the core's next event. -/
def System.hostTurn (y : System) : System :=
  match y.host.nextAccess with
  | none => { y with host := y.host.advance .idle }
  | some a =>
    match step { y.core with script := [.access a] } with
    | .next s => { core := s, host := y.host.advance s.resp }
    | .fault _ => y
    | .refused _ => y

/-- The engine's turn: a step of the core with no host access lined up. -/
def System.engineTurn (y : System) : System :=
  match step { y.core with script := [] } with
  | .next s => { y with core := s }
  | .fault _ => y
  | .refused _ => y

/-- The run of a system under a schedule: true for a turn of the host, false for one of the engine
(`20_memory.md` R71: the events are totally ordered, in any order). -/
def System.run : List Bool → System → System
  | [], y => y
  | true :: ts, y => System.run ts y.hostTurn
  | false :: ts, y => System.run ts y.engineTurn

end Sys2Proof.Machine
end

