-- ==== Sys2Proof/Tests/Slice0.lean ====
section
/-! SUPPORT. Tests: ill-formed words, decoding of words written out from `30_encoding.md`, one small step
or two for each command with the vectors of `95_test_vectors.md`, and the witnesses for the hypotheses of
the statements. -/

namespace Sys2Proof.Machine.Tests

open Sys2Proof Sys2Proof.Machine

-- One theorem after another: a thread for each kernel evaluation would fill the memory.
set_option Elab.async false

/-! ### Helpers -/

/-- The next state of an outcome; the state after reset where there is none (the tests below would fail
on it). -/
def nextOf : Host.Outcome State Fault Refusal → State
  | .next s => s
  | .fault _ => State.reset
  | .refused _ => State.reset

/-- The core after reset with RC5 parameters and a key in KEYBUF. -/
def keyed (w r b : Nat) (key : List Byte) : State :=
  { State.reset.store keyBase key with
    rc5W := BitVec.ofNat 32 w, rc5R := BitVec.ofNat 32 r, rc5B := BitVec.ofNat 32 b
    keyLen := BitVec.ofNat 8 key.length }

/-- A state with a message in IN_BUF and IN_LEN its length. -/
def withInput (msg : List Byte) (s : State) : State :=
  { s.store inBase msg with inLen := BitVec.ofNat 32 msg.length }

/-- Four LCG parameters as 64-bit values. -/
def params (m a c x0 : Nat) : LcgParams :=
  ⟨BitVec.ofNat 64 m, BitVec.ofNat 64 a, BitVec.ofNat 64 c, BitVec.ofNat 64 x0⟩

/-- The core after reset with the parameters of LCG_GEN. -/
def lcgReady (p : LcgParams) (n : Nat) : State :=
  { State.reset with lcg := p, lcgN := BitVec.ofNat 32 n }

/-- The bytes of a string in hexadecimal, given as one number, the first byte most significant. -/
def bytesBE (n v : Nat) : List Byte := (leBytes n v).reverse

/-- RC5-16/0/0 and no key, the parameters of CB2 and of PD1 to PD6. -/
def plain16 : State := keyed 16 0 0 []

/-- The state in which the word `v` has been accepted. -/
def inFlightOf (v : Word) (s : State) : State := accept v s

/-! ### Legality of command words (`30_encoding.md` R93) -/

/-- OP = 0x09 is unassigned: the first check refuses. -/
theorem test_ill_formed_op : (CmdFields.mk 0x09#8 0#1 0#23).opAssigned = false ∧
    (CmdFields.mk 0x09#8 0#1 0#23).wellFormed = false := by decide

/-- OP = 0x00 is unassigned: the first check refuses. -/
theorem test_ill_formed_op_zero : (CmdFields.mk 0x00#8 0#1 0#23).opAssigned = false ∧
    (CmdFields.mk 0x00#8 0#1 0#23).wellFormed = false := by decide

/-- RSV = 1: the second check refuses. -/
theorem test_ill_formed_rsv : (CmdFields.mk 0x04#8 0#1 1#23).rsvZero = false ∧
    (CmdFields.mk 0x04#8 0#1 1#23).wellFormed = false := by decide

/-- ENC_BLOCK with F = 1: the third check refuses. -/
theorem test_ill_formed_flag : (CmdFields.mk 0x05#8 1#1 0#23).flagAllowed = false ∧
    (CmdFields.mk 0x05#8 1#1 0#23).wellFormed = false := by decide

/-- MD5 with F = 1 passes all three. -/
theorem test_well_formed_flag : (CmdFields.mk 0x03#8 1#1 0#23).wellFormed = true := by decide

/-! ### Decoding (`30_encoding.md` R90, R91, R98): RSV, F and OP written out -/

theorem test_decode_lcgGen :
    decode (0b00000000000000000000000#23 ++ 0b0#1 ++ 0b00000001#8) = .ok .lcgGen := by decide

theorem test_decode_lcgPeriod :
    decode (0b00000000000000000000000#23 ++ 0b0#1 ++ 0b00000010#8) = .ok (.lcgPeriod .inBuf) := by
  decide

theorem test_decode_lcgPeriod_out :
    decode (0b00000000000000000000000#23 ++ 0b1#1 ++ 0b00000010#8) = .ok (.lcgPeriod .outBuf) := by
  decide

theorem test_decode_md5 :
    decode (0b00000000000000000000000#23 ++ 0b0#1 ++ 0b00000011#8) = .ok (.md5 false) := by decide

theorem test_decode_md5_toKey :
    decode (0b00000000000000000000000#23 ++ 0b1#1 ++ 0b00000011#8) = .ok (.md5 true) := by decide

theorem test_decode_keysched :
    decode (0b00000000000000000000000#23 ++ 0b0#1 ++ 0b00000100#8) = .ok .keysched := by decide

theorem test_decode_encBlock :
    decode (0b00000000000000000000000#23 ++ 0b0#1 ++ 0b00000101#8) = .ok .encBlock := by decide

theorem test_decode_decBlock :
    decode (0b00000000000000000000000#23 ++ 0b0#1 ++ 0b00000110#8) = .ok .decBlock := by decide

theorem test_decode_cbcEnc :
    decode (0b00000000000000000000000#23 ++ 0b0#1 ++ 0b00000111#8) = .ok .cbcEnc := by decide

theorem test_decode_cbcDec :
    decode (0b00000000000000000000000#23 ++ 0b0#1 ++ 0b00001000#8) = .ok .cbcDec := by decide

/-- The illegal words of ST3 to ST6, each refused by name. -/
theorem test_decode_illegal :
    decode 0x00000105#32 = .error .flagUndefined ∧ decode 0x00000009#32 = .error .unassignedOp ∧
    decode 0x00000204#32 = .error .reservedBits ∧ decode 0x00000000#32 = .error .unassignedOp := by
  decide

/-- No word selects two rows of the opcode map: a match of one row fails the mask of every later one. -/
theorem test_rows_disjoint :
    opcodeMap.Pairwise (fun r q => r.value &&& (r.mask &&& q.mask) ≠ q.value &&& (r.mask &&& q.mask)) := by
  decide

theorem test_decodeTableWord : decodeTableWord 32 0x103 = some (.md5 true) ∧
    decodeTableWord 8 0x103 = some (.md5 false) ∧ decodeTableWord 32 0x105 = none := by decide

/-! ### A word placed after reset runs at the very next step -/

/-- With every register at its reset value the RC5 commands and LCG_GEN raise InvalidParameter
(`70_reset_and_hazards.md` R281). -/
theorem test_first_step_errors :
    ([1, 4, 5, 6, 7, 8].map fun w => (nextOf (step (State.reset.withFetchWord 32 w))).errCode) =
      List.replicate 6 .invalidParameter := by decide +kernel

/-- LCG_PERIOD and MD5 succeed on an empty input (R281). -/
theorem test_first_step_succeeds :
    ([0x002, 0x102, 0x003, 0x103].map fun w =>
      (nextOf (step (State.reset.withFetchWord 32 w))).statusWord) =
      [0x00020002#32, 0x00020002#32, 0x00030002#32, 0x00030002#32] := by decide +kernel

/-! ### LCG Engine -/

/-- LG2. -/
theorem test_lcgGen_bytes :
    (nextOf (exec .lcgGen (lcgReady (params 16 5 3 7) 4))).ramBytes outBase 32 =
      leBytes 8 7 ++ leBytes 8 6 ++ leBytes 8 1 ++ leBytes 8 8 := by decide +kernel

/-- LG4: the product is exact. -/
theorem test_lcgGen_exact :
    (nextOf (exec .lcgGen (lcgReady (params (2 ^ 64 - 1) (2 ^ 64 - 2) (2 ^ 64 - 2) (2 ^ 64 - 2)) 4))).ramRead
      (outBase + 8) 8 = 0 := by decide +kernel

/-- LG10: the first repeat wins over the later, shorter one. -/
theorem test_lcgPeriod_first_repeat :
    (nextOf (exec (.lcgPeriod .inBuf)
      (withInput (dwordBytes [1#64, 2#64, 3#64, 1#64, 5#64, 5#64]) State.reset))).period = 3#32 := by
  decide +kernel

/-- LG15, on OUT_BUF. -/
theorem test_lcgPeriod_out :
    let t := nextOf (exec (.lcgPeriod .outBuf)
      { State.reset.store outBase (dwordBytes [0#64, 1#64, 0#64, 1#64]) with outLen := 32#32 })
    t.period = 2#32 ∧ t.periodFound = true := by decide +kernel

/-! ### MD5 Engine -/

/-- DG3. -/
theorem test_md5_abc :
    (nextOf (exec (.md5 false) (withInput [0x61#8, 0x62#8, 0x63#8] State.reset))).digest =
      ⟨0x98500190#32, 0xb04fd23c#32, 0x7d3f96d6#32, 0x727fe128#32⟩ := by decide +kernel

/-- DG12. -/
theorem test_md5_toKey :
    let t := nextOf (exec (.md5 true) (withInput [0x61#8, 0x62#8, 0x63#8] State.reset))
    t.ramBytes keyBase 16 = bytesBE 16 0x900150983cd24fb0d6963f7d28e17f72 ∧ t.keyLen = 16#8 := by
  decide +kernel

/-! ### RC5 Key Schedule and Block Core -/

/-- KS2, with its hidden L array, and ST7. -/
theorem test_keysched_empty_key :
    let t := nextOf (exec .keysched (inFlightOf 0x4#32 plain16))
    t.ramBytes sBase 16 = leBytes 8 0x7865 ++ leBytes 8 0x33f4 ∧ t.keyWords = [0x37da#64] ∧
      t.statusWord = 0x0004000a#32 := by decide +kernel

/-- KS16: all 32 bits of RC5_W are compared. -/
theorem test_keysched_width :
    (nextOf (exec .keysched (keyed 0x120 12 16 (List.replicate 16 0#8)))).errCode =
      .invalidParameter := by decide +kernel

/-- BK2. -/
theorem test_encBlock_zero_rotation :
    let t := nextOf (exec .encBlock
      { keyed 16 12 8 (bytesBE 8 0x0001020304050607) with blkA := 0x10#64, blkB := 0x10#64 })
    t.blkA = 0x497b#64 ∧ t.blkB = 0xc12b#64 := by decide +kernel

/-- BK8: bits 63:16 ignored on input, 0 afterwards. -/
theorem test_encBlock_high_bits :
    let t := nextOf (exec .encBlock
      { plain16 with blkA := 0xffffffff00000000#64, blkB := 0x123400000000#64 })
    t.blkA = 0x7865#64 ∧ t.blkB = 0x33f4#64 := by decide +kernel

/-- BK4, decrypted. -/
theorem test_decBlock_w64 :
    let t := nextOf (exec .decBlock
      { keyed 64 2 8 (bytesBE 8 0x0001020304050607) with
        blkA := 0x6c2fc5185286e66d#64, blkB := 0x173d7f117f4afc78#64 })
    t.blkA = 0x0123456789abcdef#64 ∧ t.blkB = 0xfedcba9876543210#64 := by decide +kernel

/-- BK7, decrypted. -/
theorem test_decBlock_one_round :
    let t := nextOf (exec .decBlock { keyed 16 1 0 [] with blkA := 0xf10f#64, blkB := 0xa851#64 })
    t.blkA = 0xffff#64 ∧ t.blkB = 0#64 := by decide +kernel

/-! ### CBC-PAD Cipher Mode -/

/-- CB2. -/
theorem test_cbcEnc_empty :
    let t := nextOf (exec .cbcEnc { plain16 with ivp := params 256 1 1 0 })
    t.ramBytes outBase 8 = bytesBE 8 0x6579f636697dfa3a ∧ t.outLen = 8#32 ∧
      t.iv = ⟨0x03020100#32, 0#32, 0#32, 0#32⟩ := by decide +kernel

/-- CB4. -/
theorem test_cbcEnc_key :
    (nextOf (exec .cbcEnc { withInput (bytesBE 10 0x4142434445464748494a)
        (keyed 32 12 3 (bytesBE 3 0x6b6579)) with ivp := params 256 5 1 9 })).ramBytes outBase 24 =
      bytesBE 24 0xfd20c02870999fab084eb1aa502079bf2c3fc4335788837f := by decide +kernel

/-- PD4: one byte of padding; the padding byte stays in OUT above OUT_LEN. -/
theorem test_cbcDec_unpads :
    let t := nextOf (exec .cbcDec (withInput (bytesBE 8 0x6579f6360f33c236) plain16))
    t.ramBytes outBase 4 = bytesBE 4 0xaabbcc01 ∧ t.outLen = 3#32 ∧ t.errCode = .success := by
  decide +kernel

/-- PD3: all p bytes must be p. -/
theorem test_cbcDec_padding_error :
    let t := nextOf (exec .cbcDec (withInput (bytesBE 8 0x6579f6360f7bf534) plain16))
    t.errCode = .paddingError ∧ t.outLen = 0#32 ∧ t.schedW = 16#32 ∧ t.schedValid = true ∧
      t.iv = ⟨0x03020100#32, 0#32, 0#32, 0#32⟩ := by decide +kernel

/-! ### Status and bus -/

/-- ST1, ST2. -/
theorem test_identity :
    (nextOf (step (State.reset.facing (rd 0x000#16) []))).resp = .data 0x50445331#32 ∧
    (nextOf (step (State.reset.facing (rd 0x038#16) []))).resp = .data 0x00001000#32 := by decide

/-- ST3 to ST6: STATUS after the completion of an illegal word. -/
theorem test_illegal_status :
    ([0x105, 0x009, 0x204, 0x000].map fun w =>
      (nextOf (step (State.reset.withFetchWord 32 w))).statusWord) =
      [0x00050406#32, 0x00090406#32, 0x00040406#32, 0x00000406#32] := by decide

/-- ST9, ST10: acknowledging DONE keeps ERR; clearing ERR clears ERRCODE. -/
theorem test_acknowledge :
    let s := { State.reset with lastOp := 4#8, done := true, err := true, errCode := .invalidParameter }
    (nextOf (step (s.facing (wr 0x004#16 2#32) []))).statusWord = 0x00040104#32 ∧
    (nextOf (step (s.facing (wr 0x004#16 4#32) []))).statusWord = 0x00040002#32 := by decide

/-- ST11 to ST13: accesses that get the error response. -/
theorem test_error_response :
    ([rd 0x006#16, rd 0x03C#16, rd 0x0B0#16, rd 0x900#16, rd 0x2000#16, rd 0x5000#16, rd 0x9020#16,
      .access (.read .bits16 0x000#16), .access (.write .bits8 0x010#16 0#32)].map fun e =>
      (nextOf (step (State.reset.facing e []))).resp) = List.replicate 9 .error := by decide +kernel

/-- The last words of the IN_BUF and OUT_BUF windows are accepted. -/
theorem test_window_ends :
    ([wr 0x4FFC#16 0#32, wr 0x901C#16 0#32, wr 0x08FC#16 0#32, wr 0x1FFC#16 0#32].map fun e =>
      (nextOf (step (State.reset.facing e []))).resp) = List.replicate 4 .accepted := by decide +kernel

/-- DG3 over the bus: after MD5 of "abc" an idle read of DIGEST1 answers its register value. -/
theorem test_digest_over_bus :
    let t := nextOf (exec (.md5 false) (withInput [0x61#8, 0x62#8, 0x63#8] State.reset))
    (nextOf (step (t.facing (rd 0x0A4#16) []))).resp = .data 0xb04fd23c#32 := by decide +kernel

/-- ST15. -/
theorem test_key_len_bits :
    readReg (nextOf (step (State.reset.facing (wr 0x01C#16 0x12345678#32) []))) .keyLen =
      0x00000078#32 := by decide

/-- ST16: a soft reset, also while a command is in flight. -/
theorem test_soft_reset :
    let t := nextOf (step ((inFlightOf 4#32 plain16).facing (wr 0x008#16 0xffffffff#32) []))
    t.busy = false ∧ t.ie = false ∧ t.rc5W = 0#32 ∧ t.mem = [] := by decide

/-- ST18: byte 255 of the KEYBUF window reads 0 and is not stored. -/
theorem test_keybuf_byte_255 :
    let t := nextOf (step (State.reset.facing (wr 0x8FC#16 0xffffffff#32) []))
    t.mem.length = 3 ∧
      (nextOf (step (t.facing (rd 0x8FC#16) []))).resp = .data 0x00ffffff#32 := by decide +kernel

/-- ST19, ST20. -/
theorem test_writes_while_busy :
    let s := inFlightOf 4#32 plain16
    let t := nextOf (step (s.facing (wr 0x010#16 64#32) []))
    t.rc5W = 16#32 ∧ t.ovr = true ∧
      (nextOf (step (s.facing (wr 0x008#16 1#32) []))).ie = true := by decide

/-- A host waiting on STATUS.BUSY goes back to its label while the bit is 1. -/
theorem test_host_branch :
    let h : HostAgent := ⟨linesRun .keysched 7, 3, 1#32⟩
    (h.advance .idle).pc = 1 ∧ ({ h with last := 2#32 }.advance .idle).pc = 4 ∧
      HostAgent.nextAccess ⟨linesRun .keysched 7, 0, 0#32⟩ = some (.write .bits32 0x00C#16 4#32) := by
  decide

/-- WRBYTES of three bytes is one word, the missing byte 0 (`30_encoding.md` R99). -/
theorem test_host_wrbytes :
    linesWrBytes 0x4000#16 [0x61#8, 0x62#8, 0x63#8] = [.wr 0x4000#16 0x00636261#32] := by decide

/-- One turn of the host and one of the engine. -/
theorem test_system_turns :
    let y : System := ⟨plain16, ⟨linesRun .keysched 0, 0, 0#32⟩⟩
    (System.run [true] y).core.busy = true ∧
      (System.run [true, false] y).core.statusWord = 0x0004000a#32 := by decide +kernel

/-! ### Witnesses: states and operands that meet the hypotheses of the statements

One for each statement that has hypotheses, under its name; where a statement has several clauses, one
for each clause at a boundary of its range. -/

/-- The core while KEYSCHED runs on RC5-16/0/0. -/
def busyState : State := inFlightOf 0x004#32 plain16

/-- A state in which KEYSCHED has just succeeded, with IE = 1. -/
def doneState : State := { nextOf (exec .keysched busyState) with ie := true }

theorem next_nextOf {o : Host.Outcome State Fault Refusal} (h : ∃ t, o = .next t) :
    o = .next (nextOf o) := by
  obtain ⟨t, rfl⟩ := h
  rfl

theorem exec_nextOf (i : Instr) (s : State) : exec i s = .next (nextOf (exec i s)) :=
  next_nextOf (exec_next i s)

theorem busyState_step : step busyState = .next (nextOf (step busyState)) :=
  next_nextOf (by
    obtain ⟨t, ht, -⟩ := runCommand_completes 0x004#32 busyState
    exact ⟨t, ht⟩)

theorem busyState_inv : busyState.Inv := by
  refine ⟨List.Pairwise.nil, ?_, fun _ => ⟨rfl, rfl, rfl⟩, ?_, rfl, ?_, rfl, ?_, ?_⟩
  · intro c hc; cases hc
  · intro v hv; cases hv; rfl
  · decide +kernel
  · intro h; cases h
  · decide +kernel

theorem witness_IllegalWordsReportIllegalCommand :
    (∀ v ∈ [0x000#32, 0x009#32, 0x105#32, 0x204#32], ∀ i, decode v ≠ .ok i) ∧
    State.reset.inFlight = none ∧ (inFlightOf 0x105#32 State.reset).inFlight = some 0x105#32 := by
  refine ⟨?_, rfl, rfl⟩
  intro v hv i
  simp only [List.mem_cons, List.not_mem_nil, or_false] at hv
  rcases hv with rfl | rfl | rfl | rfl <;> intro h <;> cases h

theorem witness_SoftResetIsTheHardReset :
    (0x2#32 : Word).getLsbD 1 = true ∧
      step (busyState.facing .hardReset []) = .next (nextOf (step (busyState.facing .hardReset []))) :=
  ⟨by decide +kernel, next_nextOf ⟨_, step_hardReset _ _⟩⟩

theorem witness_OnlyAcceptableAccessesAreAccepted :
    (∀ a ∈ [0x000, 0x038, 0x040, 0x0AC, 0x800, 0x8FC, 0x1000, 0x1FFC,
      0x4000, 0x4FFC, 0x8000, 0x901C], Acceptable Config.standard .bits32 (BitVec.ofNat 16 a)) ∧
    (∀ a ∈ [0x002, 0x03C, 0x0B0, 0x7FC, 0x900, 0xFFC, 0x2000, 0x3FFC,
      0x5000, 0x7FFC, 0x9020, 0xFFFC], ¬ Acceptable Config.standard .bits32 (BitVec.ofNat 16 a)) ∧
    ¬ Acceptable Config.standard .bits16 0x000#16 := by
  simp only [← accepts_iff]
  decide +kernel

theorem witness_ReadsChangeNothing : State.reset.inFlight = none := rfl

theorem witness_BufferAndTableWindows :
    State.reset.inFlight = none ∧
    (∀ a ∈ [0x4000, 0x4FFC], (BitVec.ofNat 16 a).toNat % 4 = 0 ∧ inBase ≤ (BitVec.ofNat 16 a).toNat ∧
      (BitVec.ofNat 16 a).toNat < inBase + State.reset.cfg.nIn) ∧
    (∀ a ∈ [0x8000, 0x901C], (BitVec.ofNat 16 a).toNat % 4 = 0 ∧ outBase ≤ (BitVec.ofNat 16 a).toNat ∧
      (BitVec.ofNat 16 a).toNat < outBase + State.reset.cfg.nOut) ∧
    (∀ k ∈ [0, 511], k < 512) := by
  decide +kernel

theorem witness_KeybufWindowHolds255Bytes :
    State.reset.inFlight = none ∧ ∀ q ∈ [0, 62, 63], q < 64 := by decide +kernel

theorem witness_WritableRegistersStoreWhatIsWritten :
    State.reset.inFlight = none ∧
    (∀ e ∈ [((0x010#16 : Offset), Reg.rc5W), (0x030#16, .lcgN), (0x040#16, .lcgMLo), (0x07C#16, .ivpX0Hi),
      (0x08C#16, .blkBHi)], (e.1.toNat, e.2) ∈ regMap ∧ storesAllBits e.2 = true) ∧
    ((0x01C#16 : Offset).toNat, Reg.keyLen) ∈ regMap := by decide +kernel

theorem witness_ReadOnlyLocationsIgnoreWrites :
    (∀ e ∈ [((0x000#16 : Offset), Reg.id), (0x024#16, .outLen), (0x0AC#16, .digest3)],
      (e.1.toNat, e.2) ∈ regMap ∧ readOnly e.2 = true) ∧
    (∀ a ∈ [0x1000, 0x1FFC], (BitVec.ofNat 16 a).toNat % 4 = 0 ∧ sBase ≤ (BitVec.ofNat 16 a).toNat ∧
      (BitVec.ofNat 16 a).toNat < sBase + 4096) ∧
    (∀ a ∈ [0x8000, 0x901C], (BitVec.ofNat 16 a).toNat % 4 = 0 ∧ outBase ≤ (BitVec.ofNat 16 a).toNat ∧
      (BitVec.ofNat 16 a).toNat < outBase + busyState.cfg.nOut) := by
  decide +kernel

theorem witness_StatusAndCtrlLayout : ∀ k ∈ [0, 5, 6, 8, 11, 12, 16, 23, 24, 31], k < 32 := by decide +kernel

theorem witness_StatusWriteClearsOnlyW1CBits :
    doneState.inFlight = none ∧ doneState.done = true := ⟨rfl, rfl⟩

theorem witness_CtrlWriteUpdatesIeEvenWhileBusy :
    busyState.busy = true ∧ (0x1#32 : Word).getLsbD 1 = false ∧ doneState.busy = false :=
  ⟨rfl, by decide +kernel, rfl⟩

theorem witness_CmdWriteIsAccepted : plain16.inFlight = none ∧ busyState.busy = true := ⟨rfl, rfl⟩

theorem witness_WritesWhileBusyAreDropped :
    busyState.busy = true ∧ Acceptable busyState.cfg .bits32 0x010#16 ∧ (0x010#16 : Offset) ≠ 0x008#16 ∧
    ¬ Acceptable busyState.cfg .bits32 0x03C#16 ∧ (0x1#32 : Word).getLsbD 1 = false ∧
    (0x3#32 : Word).getLsbD 1 = true := by
  unfold Acceptable ReservedOffset
  decide +kernel

theorem witness_ReadsWhileBusyAreExactOutsideTheWriteSet :
    busyState.Inv ∧ busyState.inFlight = some 0x004#32 ∧ decode 0x004#32 = .ok .keysched ∧
    writesSchedValid .keysched = true ∧ writesPeriodFound .keysched = false ∧
    (((0x010#16 : Offset).toNat, Reg.rc5W) ∈ regMap ∧ writesReg .keysched .rc5W = false) ∧
    (Acceptable busyState.cfg .bits32 0x1010#16 ∧
      ∀ k, k < 4 → writesByte busyState .keysched (0x1010 + k) = false) ∧
    (Acceptable busyState.cfg .bits32 0x08FC#16 ∧
      ∀ k, k < 4 → writesByte busyState .keysched (0x08FC + k) = false) := by
  unfold Acceptable ReservedOffset
  refine ⟨busyState_inv, rfl, rfl, rfl, rfl, ?_, ?_, ?_⟩ <;> decide +kernel

theorem witness_OperandsAreFrozenWhileBusy :
    busyState.busy = true ∧
    ∀ a ∈ [Access.read .bits32 0x004#16, .write .bits32 0x010#16 7#32, .write .bits16 0x020#16 1#32],
      ∀ width v, a ≠ .write width 0x008#16 v := by
  refine ⟨rfl, ?_⟩
  intro a ha width v h
  subst h
  simp at ha

theorem witness_EngineStepRunsTheDecodedCommand :
    decode 0x004#32 = .ok .keysched ∧ busyState.inFlight = some 0x004#32 ∧ busyState.script = [] ∧
      doneState.inFlight = none ∧ doneState.script = [] :=
  ⟨rfl, rfl, rfl, rfl, rfl⟩

theorem witness_EveryCommandCompletes :
    busyState.inFlight = some 0x004#32 ∧ busyState.script = [] ∧
      (inFlightOf 0x105#32 plain16).inFlight = some 0x105#32 := ⟨rfl, rfl, rfl⟩

/-- PD3: an envelope whose padding is wrong. -/
def badPadding : State := withInput (bytesBE 8 0x6579f6360f7bf534) plain16

/-- PD4: an envelope with one byte of padding. -/
def goodPadding : State := withInput (bytesBE 8 0x6579f6360f33c236) plain16

theorem witness_ErrorsArePrecise :
    (exec .keysched State.reset = .next (nextOf (exec .keysched State.reset)) ∧
      (nextOf (exec .keysched State.reset)).errCode = .invalidParameter) ∧
    (exec .cbcDec badPadding = .next (nextOf (exec .cbcDec badPadding)) ∧
      (nextOf (exec .cbcDec badPadding)).errCode = .paddingError) :=
  ⟨⟨exec_nextOf _ _, by decide +kernel⟩, ⟨exec_nextOf _ _, by decide +kernel⟩⟩

theorem rc5Good_plain16 : Rc5Good plain16 ⟨.w16, 0, 0⟩ := by unfold Rc5Good; decide +kernel

theorem rc5Good_largest : Rc5Good (keyed 64 255 255 (List.replicate 255 0#8)) ⟨.w64, 255, 255⟩ := by
  unfold Rc5Good; decide +kernel

theorem rc5Bad_states : Rc5Bad (keyed 26 12 16 []) ∧ Rc5Bad (keyed 32 256 16 []) ∧
    Rc5Bad (keyed 32 12 256 []) ∧ Rc5Bad (keyed 32 12 0 [1#8]) := by
  unfold Rc5Bad; decide +kernel

theorem lcgGood_small : ¬ LcgBad (params 16 5 3 7) ∧ ¬ LcgBad (params 1 0 0 0) ∧
    ¬ LcgBad (params (2 ^ 64 - 1) (2 ^ 64 - 2) (2 ^ 64 - 2) (2 ^ 64 - 2)) := by
  unfold LcgBad; decide +kernel

theorem lcgBad_params : LcgBad (params 0 0 0 0) ∧ LcgBad (params 16 16 0 0) ∧
    LcgBad (params 16 0 16 0) ∧ LcgBad (params 16 0 0 16) := by
  unfold LcgBad; decide +kernel

theorem witness_OneErrorInFixedOrder :
    (∀ i : Instr, ∃ t, exec i plain16 = .next t) ∧
    LcgBad State.reset.lcg ∧
    (¬ LcgBad (lcgReady (params 16 5 3 7) 516).lcg ∧
      8 * (lcgReady (params 16 5 3 7) 516).lcgN.toNat ≤ State.reset.cfg.nOut) ∧
    State.reset.cfg.nOut < 8 * (lcgReady (params 16 5 3 7) 517).lcgN.toNat ∧
    Rc5Bad State.reset ∧ ¬ Rc5Bad plain16 ∧
    (¬ Rc5Bad plain16 ∧ plain16.inLen.toNat ≤ plain16.cfg.nIn ∧
      ¬ LcgBad { plain16 with ivp := params 256 1 1 0 }.ivp) ∧
    (Rc5Good badPadding ⟨.w16, 0, 0⟩ ∧ badPadding.inLen.toNat ≤ badPadding.cfg.nIn) := by
  refine ⟨fun i => exec_next i plain16, ?_⟩
  unfold LcgBad Rc5Bad Rc5Good
  decide +kernel

theorem witness_InterruptHoldsUntilCleared :
    busyState.inFlight = some 0x004#32 ∧
    (doneState.facing (wr 0x004#16 2#32) []).irq = true ∧
      (nextOf (step (doneState.facing (wr 0x004#16 2#32) []))).irq = false ∧
    (nextOf (step (doneState.facing .hardReset []))).irq = false ∧
    (nextOf (step (doneState.facing (wr 0x00C#16 4#32) []))).irq = false ∧
    (nextOf (step (doneState.facing (wr 0x008#16 0#32) []))).irq = false := by
  refine ⟨rfl, ?_, ?_, ?_, ?_, ?_⟩ <;> decide +kernel

theorem witness_LcgSequenceFollowsTheRecurrence :
    ¬ LcgBad (params 1 0 0 0) ∧ ∀ i ∈ [0, 2], i < 3 := ⟨lcgGood_small.2.1, by decide +kernel⟩

theorem witness_LcgGenWritesTheSequence :
    (¬ LcgBad (lcgReady (params 16 5 3 7) 516).lcg ∧
      8 * (lcgReady (params 16 5 3 7) 516).lcgN.toNat ≤ State.reset.cfg.nOut) ∧
    State.reset.cfg.nOut < 8 * (lcgReady (params 16 5 3 7) 517).lcgN.toNat ∧
    LcgBad (lcgReady (params 16 16 0 0) 1).lcg := by
  unfold LcgBad; decide +kernel

theorem witness_PeriodIsTheFirstRepeatDistance :
    periodOf [1#64, 2#64, 3#64, 1#64, 5#64, 5#64] = some 3 ∧ periodOf [1#64, 2#64] = none ∧
      periodOf [] = none ∧ periodOf [5#64, 5#64] = some 1 := by decide +kernel

theorem witness_LcgPeriodIsTheSmallestDistance :
    ¬ LcgBad (params 10 0 7 3) ∧ periodOf (lcgSeq (params 10 0 7 3) 4) = some 1 := by
  unfold LcgBad; decide +kernel

theorem witness_LcgPeriodReportsTheFirstRepeat :
    (State.reset.inLen.toNat ≤ State.reset.cfg.nIn ∧ State.reset.inLen.toNat % 8 = 0) ∧
    { State.reset with inLen := 4096#32 }.inLen.toNat ≤ State.reset.cfg.nIn ∧
    State.reset.cfg.nIn < { State.reset with inLen := 4104#32 }.inLen.toNat ∧
    { State.reset with inLen := 12#32 }.inLen.toNat % 8 ≠ 0 ∧
    { State.reset with outLen := 4128#32 }.outLen.toNat % 8 = 0 := by decide +kernel

theorem witness_Md5ReportsTheDigest :
    { State.reset with inLen := 4096#32 }.inLen.toNat ≤ State.reset.cfg.nIn ∧
    State.reset.cfg.nIn < { State.reset with inLen := 4097#32 }.inLen.toNat := by decide +kernel

theorem witness_RotationsAndLittleEndianPacking : 0 < 17 % 16 ∧ 32 % 16 = 0 ∧ 0 % 16 = 0 ∧ 3 < 4 := by
  decide +kernel

theorem witness_KeyBytesAndWords :
    1 = max 1 ((([] : List Byte).length + WordSize.w16.bytes - 1) / WordSize.w16.bytes) ∧
    2 = max 1 (([1#8, 2#8, 3#8] : List Byte).length + WordSize.w16.bytes - 1) / WordSize.w16.bytes ∧
    (0 < 1 ∧ 1 < 2) := by decide +kernel

theorem witness_SubkeyTableShape : 0 < 2 ∧ 511 < 512 := by decide +kernel

theorem witness_KeyschedPublishesTheTable :
    Rc5Good plain16 ⟨.w16, 0, 0⟩ ∧
    Rc5Good (keyed 64 255 255 (List.replicate 255 0#8)) ⟨.w64, 255, 255⟩ ∧
    Rc5Bad (keyed 26 12 16 []) ∧ ¬ Rc5Bad plain16 :=
  ⟨rc5Good_plain16, rc5Good_largest, rc5Bad_states.1, by unfold Rc5Bad; decide +kernel⟩

/-- BK8 before ENC_BLOCK. -/
def blockState : State :=
  { plain16 with blkA := 0xffffffff00000000#64, blkB := 0x123400000000#64 }

theorem witness_EncBlockEncryptsInPlace :
    Rc5Good blockState ⟨.w16, 0, 0⟩ ∧ (0#16 : BitVec 16).toNat = blockState.blkA.toNat % 2 ^ 16 ∧
      (0#16 : BitVec 16).toNat = blockState.blkB.toNat % 2 ^ 16 ∧ Rc5Bad State.reset := by
  unfold Rc5Good Rc5Bad; decide +kernel

theorem witness_DecBlockDecryptsInPlace :
    Rc5Good blockState ⟨.w16, 0, 0⟩ ∧ (0#16 : BitVec 16).toNat = blockState.blkA.toNat % 2 ^ 16 ∧
      (0#16 : BitVec 16).toNat = blockState.blkB.toNat % 2 ^ 16 ∧ Rc5Bad State.reset := by
  unfold Rc5Good Rc5Bad; decide +kernel

theorem witness_DecBlockRestoresEncBlock :
    Rc5Good blockState ⟨.w16, 0, 0⟩ ∧
    exec .encBlock blockState = .next (nextOf (exec .encBlock blockState)) ∧
    exec .decBlock (nextOf (exec .encBlock blockState)) =
      .next (nextOf (exec .decBlock (nextOf (exec .encBlock blockState)))) := by
  refine ⟨?_, exec_nextOf _ _, exec_nextOf _ _⟩
  unfold Rc5Good; decide +kernel

theorem witness_PaddingCheckIsStrict :
    WordSize.w16.blockBytes ≤ (bytesBE 4 0xaabbcc01).length ∧
      padValid WordSize.w16.blockBytes (bytesBE 4 0xaabbcc01) = true ∧
      padValid WordSize.w16.blockBytes (bytesBE 4 0x04040404) = true ∧
      padValid WordSize.w16.blockBytes (bytesBE 4 0xaabbcc05) = false ∧
      padValid WordSize.w16.blockBytes (bytesBE 4 0xaabbcc00) = false := by decide +kernel

theorem witness_CbcDecryptInvertsCbcEncrypt :
    (bytesBE 4 0x00010203).length = WordSize.w16.blockBytes ∧
      (bytesBE 8 0x0404040404040404).length % WordSize.w16.blockBytes = 0 := by decide +kernel

theorem witness_IvIsTheLowBytesOfTheLcg :
    ¬ LcgBad (params 251 33 7 200) ∧ (0 < WordSize.w16.blockBytes ∧ 15 < WordSize.w64.blockBytes) := by
  unfold LcgBad; decide +kernel

/-- CB2 before CBC_ENC. -/
def emptyMessage : State := { plain16 with ivp := params 256 1 1 0 }

/-- CE8: a full input buffer at w = 64. -/
def fullInput : State :=
  { keyed 64 0 0 [] with ivp := params 256 1 1 0, inLen := 4096#32 }

theorem witness_CbcEncWritesTheEnvelope :
    (Rc5Good emptyMessage ⟨.w16, 0, 0⟩ ∧ emptyMessage.inLen.toNat ≤ emptyMessage.cfg.nIn ∧
      ¬ LcgBad emptyMessage.ivp) ∧
    (Rc5Good fullInput ⟨.w64, 0, 0⟩ ∧ fullInput.inLen.toNat ≤ fullInput.cfg.nIn ∧
      ¬ LcgBad fullInput.ivp) ∧
    Rc5Bad State.reset ∧ { plain16 with inLen := 4097#32 }.cfg.nIn <
      { plain16 with inLen := 4097#32 }.inLen.toNat ∧ LcgBad plain16.ivp := by
  unfold Rc5Good Rc5Bad LcgBad; decide +kernel

theorem witness_CiphertextLength :
    Rc5Good emptyMessage ⟨.w16, 0, 0⟩ ∧
    exec .cbcEnc emptyMessage = .next (nextOf (exec .cbcEnc emptyMessage)) ∧
    (nextOf (exec .cbcEnc emptyMessage)).errCode = .success := by
  refine ⟨?_, exec_nextOf _ _, ?_⟩
  · unfold Rc5Good; decide +kernel
  · decide +kernel

theorem witness_CbcDecRemovesThePadding :
    Rc5Good goodPadding ⟨.w16, 0, 0⟩ ∧ goodPadding.inLen.toNat ≤ goodPadding.cfg.nIn ∧
    goodPadding.inLen.toNat % WordSize.w16.blockBytes = 0 ∧
    2 * WordSize.w16.blockBytes ≤ goodPadding.inLen.toNat ∧
    cbcDecrypt (decBytes .w16 0 (goodPadding.table ⟨.w16, 0, 0⟩)) WordSize.w16.blockBytes
      (goodPadding.ramBytes inBase goodPadding.inLen.toNat) = bytesBE 4 0xaabbcc01 ∧
    padValid WordSize.w16.blockBytes (bytesBE 4 0xaabbcc01) = true := by
  unfold Rc5Good; decide +kernel

theorem witness_CbcDecReportsPaddingError :
    Rc5Good badPadding ⟨.w16, 0, 0⟩ ∧ badPadding.inLen.toNat ≤ badPadding.cfg.nIn ∧
    badPadding.inLen.toNat % WordSize.w16.blockBytes = 0 ∧
    2 * WordSize.w16.blockBytes ≤ badPadding.inLen.toNat ∧
    cbcDecrypt (decBytes .w16 0 (badPadding.table ⟨.w16, 0, 0⟩)) WordSize.w16.blockBytes
      (badPadding.ramBytes inBase badPadding.inLen.toNat) = bytesBE 4 0xaa030302 ∧
    padValid WordSize.w16.blockBytes (bytesBE 4 0xaa030302) = false := by
  unfold Rc5Good; decide +kernel

/-- CE1 and CE2: lengths 4 and 6 at w = 16. -/
theorem witness_CbcDecReportsDecodingError :
    (Rc5Good { plain16 with inLen := 4#32 } ⟨.w16, 0, 0⟩ ∧
      { plain16 with inLen := 4#32 }.inLen.toNat ≤ plain16.cfg.nIn ∧
      { plain16 with inLen := 4#32 }.inLen.toNat < 2 * WordSize.w16.blockBytes) ∧
    (Rc5Good { plain16 with inLen := 6#32 } ⟨.w16, 0, 0⟩ ∧
      { plain16 with inLen := 6#32 }.inLen.toNat % WordSize.w16.blockBytes ≠ 0) := by
  unfold Rc5Good; decide +kernel

/-- CB2's envelope as the input of CBC_DEC (PD5). -/
def emptyEnvelope : State := withInput (bytesBE 8 0x6579f636697dfa3a) plain16

theorem witness_CbcDecRecoversTheMessage :
    exec .cbcEnc emptyMessage = .next (nextOf (exec .cbcEnc emptyMessage)) ∧
    (nextOf (exec .cbcEnc emptyMessage)).errCode = .success ∧
    SameKeyOperands emptyMessage emptyEnvelope ∧ emptyEnvelope.cfg = emptyMessage.cfg ∧
    emptyEnvelope.inLen = (nextOf (exec .cbcEnc emptyMessage)).outLen ∧
    (nextOf (exec .cbcEnc emptyMessage)).outLen.toNat ≤ emptyEnvelope.cfg.nIn ∧
    emptyEnvelope.ramBytes inBase 8 = (nextOf (exec .cbcEnc emptyMessage)).ramBytes outBase 8 ∧
    exec .cbcDec emptyEnvelope = .next (nextOf (exec .cbcDec emptyEnvelope)) := by
  refine ⟨exec_nextOf _ _, ?_, ⟨rfl, rfl, rfl, rfl, ?_⟩, rfl, ?_, ?_, ?_, exec_nextOf _ _⟩
  · decide +kernel
  · intro k hk; exact absurd hk (by simp [emptyMessage, plain16, keyed])
  · decide +kernel
  · decide +kernel
  · decide +kernel

theorem witness_CommandsWriteOnlyTheirWriteSet :
    exec .cbcDec goodPadding = .next (nextOf (exec .cbcDec goodPadding)) ∧
    writesByte goodPadding .cbcDec (outBase + 3) = true ∧
    writesByte goodPadding .cbcDec (outBase + 4) = false ∧
    writesByte goodPadding .cbcDec (sBase + 15) = true ∧
    writesByte goodPadding .cbcDec (sBase + 16) = false := by
  refine ⟨exec_nextOf _ _, ?_, ?_, ?_, ?_⟩ <;> decide +kernel

theorem witness_CommandsReadOnlyTheirOperands :
    { goodPadding with outLen := 5#32, blkA := 1#64 }.cfg = goodPadding.cfg ∧
    SameOperands .cbcDec goodPadding { goodPadding with outLen := 5#32, blkA := 1#64 } ∧
    (nextOf (exec .cbcDec goodPadding)).errCode = .success :=
  ⟨rfl, ⟨⟨rfl, rfl, rfl, rfl, fun _ _ => rfl⟩, rfl, fun _ _ => rfl⟩, by decide +kernel⟩

theorem witness_OnlyExpansionAndResetChangeSchedValid :
    (step busyState = .next (nextOf (step busyState)) ∧
      (nextOf (step busyState)).schedValid ≠ busyState.schedValid) ∧
    ((nextOf (step (doneState.facing .hardReset []))).schedValid ≠ doneState.schedValid) ∧
    ((nextOf (step (doneState.facing (wr 0x008#16 2#32) []))).schedValid ≠ doneState.schedValid) := by
  refine ⟨⟨busyState_step, ?_⟩, ?_, ?_⟩ <;> decide +kernel

theorem witness_IdentityAndCapacityNeverChange :
    step busyState = .next (nextOf (step busyState)) := busyState_step

theorem witness_IdleReadsReturnTheRegisters :
    doneState.inFlight = none ∧ ((0x000#16 : Offset).toNat, Reg.id) ∈ regMap ∧
      ((0x0AC#16 : Offset).toNat, Reg.digest3) ∈ regMap ∧ 0 < 16 ∧ 15 < 16 := by
  decide +kernel

theorem witness_StepKeepsTheInvariant :
    busyState.Inv ∧ step busyState = .next (nextOf (step busyState)) := ⟨busyState_inv, busyState_step⟩

end Sys2Proof.Machine.Tests
end

/-! Rotations as the formula of `00_scope.md` R3 on numbers, and the bytes of the little-endian packing
(`00_scope.md` R5). -/

namespace Sys2Proof.Machine

/-! ### Rotations on numbers -/

/-- A left shift joined with a right shift, as R3 computes it: on numbers, reduced once at the end. -/
theorem toNat_shiftLeft_or_shiftRight {w : Nat} (x : BitVec w) (i j : Nat) :
    (x <<< i ||| x >>> j).toNat = ((x.toNat <<< i) ||| (x.toNat >>> j)) % 2 ^ w := by
  have hright : (x.toNat >>> j) % 2 ^ w = x.toNat >>> j := Nat.mod_eq_of_lt (x >>> j).isLt
  rw [BitVec.toNat_or, BitVec.toNat_shiftLeft, BitVec.toNat_ushiftRight, Nat.or_mod_two_pow, hright]

theorem toNat_rotl {w : Nat} (x : BitVec w) (s : Nat) (hs : 0 < s % w) :
    (rotl x s).toNat = ((x.toNat <<< (s % w)) ||| (x.toNat >>> (w - s % w))) % 2 ^ w := by
  rw [rotl, if_neg hs.ne', toNat_shiftLeft_or_shiftRight]

theorem toNat_rotr {w : Nat} (x : BitVec w) (s : Nat) (hs : 0 < s % w) :
    (rotr x s).toNat = ((x.toNat >>> (s % w)) ||| (x.toNat <<< (w - s % w))) % 2 ^ w := by
  rw [rotr, if_neg hs.ne', BitVec.or_comm, toNat_shiftLeft_or_shiftRight, Nat.or_comm]

theorem rotl_of_mod_eq_zero {w : Nat} (x : BitVec w) {s : Nat} (hs : s % w = 0) : rotl x s = x :=
  if_pos hs

theorem rotr_of_mod_eq_zero {w : Nat} (x : BitVec w) {s : Nat} (hs : s % w = 0) : rotr x s = x :=
  if_pos hs

/-- The reason R3 gives for its last sentence: the width divides 2 to the width. -/
theorem WordSize.bits_dvd_two_pow (ws : WordSize) : ws.bits ∣ 2 ^ ws.bits := by
  cases ws <;> decide

theorem rotl_toNat_add (ws : WordSize) (x a b : BitVec ws.bits) :
    rotl x (a + b).toNat = rotl x (a.toNat + b.toNat) := by
  apply rotl_congr
  rw [BitVec.toNat_add, Nat.mod_mod_of_dvd _ ws.bits_dvd_two_pow]

/-! ### The bytes of a packed number -/

@[simp] theorem byteAt_cons_zero (b : Byte) (bs : List Byte) : byteAt (b :: bs) 0 = b := rfl

@[simp] theorem byteAt_cons_succ (b : Byte) (bs : List Byte) (k : Nat) :
    byteAt (b :: bs) (k + 1) = byteAt bs k := rfl

theorem leNat_eq_sum (bs : List Byte) :
    leNat bs = ∑ k ∈ Finset.range bs.length, (byteAt bs k).toNat * 2 ^ (8 * k) := by
  induction bs with
  | nil => rfl
  | cons b bs ih =>
    have hshift : ∀ k, (byteAt bs k).toNat * 2 ^ (8 * (k + 1)) =
        256 * ((byteAt bs k).toNat * 2 ^ (8 * k)) := fun k => by ring
    rw [leNat, ih, List.length_cons, Finset.sum_range_succ', Finset.mul_sum]
    simp only [byteAt_cons_zero, byteAt_cons_succ, hshift]
    omega

theorem toNat_byteAt_leBytes {n k : Nat} (v : Nat) (hk : k < n) :
    (byteAt (leBytes n v) k).toNat = v / 2 ^ (8 * k) % 256 := by
  induction n generalizing k v with
  | zero => exact absurd hk (Nat.not_lt_zero k)
  | succ n ih =>
    cases k with
    | zero => simp [leBytes]
    | succ k =>
      have hpow : 2 ^ (8 * (k + 1)) = 256 * 2 ^ (8 * k) := by ring
      rw [leBytes, byteAt_cons_succ, ih _ (Nat.lt_of_succ_lt_succ hk), Nat.div_div_eq_div_mul, hpow]

/-- Settles O35: R3's formula and its derived last sentence, since w divides 2^w, and R5 by induction on
the byte string. -/
theorem rotationsAndLittleEndianPacking : Obligations.RotationsAndLittleEndianPacking :=
  ⟨fun _ x s hs => ⟨toNat_rotl x s hs, toNat_rotr x s hs⟩,
   fun _ x _ hs => ⟨rotl_of_mod_eq_zero x hs, rotr_of_mod_eq_zero x hs⟩,
   rotl_toNat_add, leNat_eq_sum, leBytes_leNat, fun _ v _ hk => toNat_byteAt_leBytes v hk⟩

end Sys2Proof.Machine

/-! The state (`10_state.md`): what a step can change, the invariant of the core kept by every
operation, and the registers as the host sees them. -/

namespace Sys2Proof.Machine

/-! ### What a host access can do -/

theorem regionOf_keybuf {cfg : Config} {a : Nat} (h : regionOf cfg a = .keybuf) :
    keyBase ≤ a ∧ a < keyBase + 256 := by
  by_contra hnot
  unfold regionOf at h
  rw [if_neg hnot] at h
  repeat' split at h
  all_goals cases h

theorem regionOf_inBuf {cfg : Config} {a : Nat} (h : regionOf cfg a = .inBuf) :
    inBase ≤ a ∧ a < inBase + cfg.nIn := by
  by_contra hnot
  unfold regionOf at h
  rw [if_neg hnot] at h
  repeat' split at h
  all_goals cases h

/-- An idle write writes a register, or stores bytes inside KEYBUF or IN_BUF, or is ignored
(`20_memory.md` R65, R66, R68). -/
theorem writeWord_cases (s : State) {a : Nat} (ha : a % 4 = 0) (v : Word) :
    (∃ r, (a, r) ∈ regMap ∧ writeWord a v s = writeReg s r v) ∨
    (∃ bs : List Byte, writeWord a v s = s.store a bs ∧
      (keyBase ≤ a ∧ a + bs.length ≤ keyBase + 255 ∨
        inBase ≤ a ∧ a + bs.length ≤ inBase + s.cfg.nIn)) ∨
    writeWord a v s = s := by
  unfold writeWord
  split
  next r hr => exact .inl ⟨r, mem_regMap_of_regionOf hr, rfl⟩
  next hr =>
    obtain ⟨hlo, hhi⟩ := regionOf_keybuf hr
    exact .inr (.inl ⟨_, rfl, .inl ⟨hlo, by simp only [List.length_take]; omega⟩⟩)
  next => exact .inr (.inr rfl)
  next hr =>
    obtain ⟨hlo, hhi⟩ := regionOf_inBuf hr
    have hn := nIn_bounds s.cfg
    have hb := bases
    exact .inr (.inl ⟨_, rfl, .inr ⟨hlo, by rw [wordBytes_length]; omega⟩⟩)
  next => exact .inr (.inr rfl)
  next => exact .inr (.inr rfl)

/-- A host access is refused, is a read, writes CTRL, is dropped because a command is in flight, or is
an idle write of another aligned offset (`20_memory.md` R60, R63, R64, `70_reset_and_hazards.md`
R284). -/
theorem hostAccess_cases (a : Access) (s : State) :
    hostAccess a s = { s with resp := .error } ∨
    (∃ off, a = .read .bits32 off ∧ hostAccess a s = hostRead off s) ∨
    (∃ v, a = .write .bits32 0x008#16 v ∧
      hostAccess a s = { writeCtrl v s with resp := .accepted }) ∨
    (s.busy = true ∧ hostAccess a s = { s with ovr := true, resp := .accepted }) ∨
    (∃ off v, a = .write .bits32 off v ∧ s.inFlight = none ∧ off ≠ 0x008#16 ∧ off.toNat % 4 = 0 ∧
      hostAccess a s = { writeWord off.toNat v s with resp := .accepted }) := by
  cases a with
  | read width off =>
    cases hacc : accepts s.cfg width off with
    | false => exact .inl (by simp [hostAccess, hacc])
    | true =>
      obtain ⟨rfl, -, -⟩ := accepts_iff.1 hacc
      exact .inr (.inl ⟨off, rfl, hostAccess_read hacc⟩)
  | write width off v =>
    cases hacc : accepts s.cfg width off with
    | false => exact .inl (by simp [hostAccess, hacc])
    | true =>
      obtain ⟨rfl, halign, -⟩ := accepts_iff.1 hacc
      rw [hostAccess_write hacc]
      by_cases hoff : off = 0x008#16
      · subst hoff
        exact .inr (.inr (.inl ⟨v, rfl, rfl⟩))
      · by_cases hbusy : s.busy = true
        · rw [hostWrite_busy hbusy hoff]
          exact .inr (.inr (.inr (.inl ⟨hbusy, rfl⟩)))
        · have hidle : s.inFlight = none := by simpa [State.busy] using hbusy
          rw [hostWrite_idle hidle hoff]
          exact .inr (.inr (.inr (.inr ⟨off, v, rfl, hidle, hoff, halign, rfl⟩)))

/-! ### The implementation parameter -/

theorem writeCtrl_cfg (v : Word) (s : State) : (writeCtrl v s).cfg = s.cfg := by
  unfold writeCtrl
  split <;> rfl

theorem writeReg_cfg (s : State) (r : Reg) (v : Word) : (writeReg s r v).cfg = s.cfg := by
  cases r
  case ctrl => exact writeCtrl_cfg v s
  all_goals rfl

theorem hostAccess_cfg (a : Access) (s : State) : (hostAccess a s).cfg = s.cfg := by
  rcases hostAccess_cases a s with
    e | ⟨off, -, e⟩ | ⟨v, -, e⟩ | ⟨-, e⟩ | ⟨off, v, -, -, -, halign, e⟩ <;> rw [e]
  · rfl
  · exact writeCtrl_cfg v s
  · rcases writeWord_cases s halign v with ⟨r, -, e'⟩ | ⟨bs, e', -⟩ | e' <;> rw [e']
    · exact writeReg_cfg s r v
    · rfl

theorem engineTurn_cfg {s t : State} (h : engineTurn s = .next t) : t.cfg = s.cfg := by
  rcases engineTurn_cases h with ⟨-, rfl⟩ | ⟨v, i, -, -, hexec⟩ | ⟨v, e, -, -, rfl⟩
  · rfl
  · exact (exec_completes hexec).cfg
  · rfl

/-- No event changes the implementation parameter (log entry 1). -/
theorem step_cfg {s t : State} (h : step s = .next t) : t.cfg = s.cfg := by
  rcases step_cases h with ⟨rest, -, hturn⟩ | ⟨a, rest, -, rfl⟩ | ⟨rest, -, rfl⟩
  · have hcfg := engineTurn_cfg hturn
    exact hcfg
  · exact hostAccess_cfg a _
  · rfl

theorem readReg_inCap_toNat (s : State) : (readReg s .inCap).toNat = s.cfg.nIn := by
  have hn := nIn_bounds s.cfg
  rw [readReg, BitVec.toNat_ofNat, Nat.mod_eq_of_lt (by omega)]

/-- Settles O57: ID is a constant and IN_CAP reads the parameter, which no step changes. -/
theorem identityAndCapacityNeverChange : Obligations.IdentityAndCapacityNeverChange := by
  intro s t h
  have hcfg := step_cfg h
  refine ⟨rfl, ?_, hcfg⟩
  rw [readReg_inCap_toNat, hcfg]

/-! ### SCHED_VALID (`10_state.md` R25) -/

@[simp] theorem writeDigest_schedValid (toKey : Bool) (d : List Byte) (s : State) :
    (writeDigest toKey d s).schedValid = s.schedValid := by cases toKey <;> rfl

/-- A command leaves SCHED_VALID, or expands a key and sets it. -/
theorem exec_schedValid {i : Instr} {s t : State} (h : exec i s = .next t) :
    t.schedValid = s.schedValid ∨
    (t.schedValid = true ∧ expandsKey i = true ∧
      (t.errCode = .success ∨ t.errCode = .paddingError)) := by
  cases i with
  | lcgGen => rcases execLcgGen_cases h with ⟨-, rfl⟩ | ⟨-, -, rfl⟩ <;> exact .inl rfl
  | lcgPeriod src =>
    rcases execLcgPeriod_cases h with ⟨-, rfl⟩ | ⟨-, -, ⟨d, -, rfl⟩ | ⟨-, rfl⟩⟩ <;> exact .inl rfl
  | md5 toKey => rcases execMd5_cases h with ⟨-, rfl⟩ | ⟨-, rfl⟩ <;> exact .inl (by simp)
  | keysched =>
    rcases execKeysched_cases h with ⟨-, rfl⟩ | ⟨p, -, rfl⟩
    · exact .inl rfl
    · exact .inr ⟨rfl, rfl, .inl rfl⟩
  | encBlock =>
    rcases execEncBlock_cases h with ⟨-, rfl⟩ | ⟨p, -, rfl⟩
    · exact .inl rfl
    · exact .inr ⟨rfl, rfl, .inl rfl⟩
  | decBlock =>
    rcases execDecBlock_cases h with ⟨-, rfl⟩ | ⟨p, -, rfl⟩
    · exact .inl rfl
    · exact .inr ⟨rfl, rfl, .inl rfl⟩
  | cbcEnc =>
    rcases execCbcEnc_cases h with ⟨-, rfl⟩ | ⟨p, -, -, -, rfl⟩
    · exact .inl rfl
    · exact .inr ⟨rfl, rfl, .inl rfl⟩
  | cbcDec =>
    rcases execCbcDec_cases h with ⟨-, rfl⟩ | ⟨p, -, -, ⟨-, rfl⟩ | ⟨-, -, ⟨-, rfl⟩ | ⟨-, rfl⟩⟩⟩
    · exact .inl rfl
    · exact .inl rfl
    · exact .inr ⟨rfl, rfl, .inl rfl⟩
    · exact .inr ⟨rfl, rfl, .inr rfl⟩

theorem writeReg_schedValid (s : State) {r : Reg} (hr : r ≠ .ctrl) (v : Word) :
    (writeReg s r v).schedValid = s.schedValid := by
  cases r
  case ctrl => exact absurd rfl hr
  all_goals rfl

/-- An idle write of an offset other than CTRL leaves SCHED_VALID. -/
theorem writeWord_schedValid (s : State) {off : Offset} (hoff : off ≠ 0x008#16)
    (halign : off.toNat % 4 = 0) (v : Word) :
    (writeWord off.toNat v s).schedValid = s.schedValid := by
  rcases writeWord_cases s halign v with ⟨r, hr, e⟩ | ⟨bs, e, -⟩ | e <;> rw [e]
  · refine writeReg_schedValid s (fun hctrl => hoff ?_) v
    subst hctrl
    exact regionOf_ctrl.1 (regionOf_register (cfg := s.cfg) hr)
  · rfl

/-- A host access leaves SCHED_VALID, or is the CTRL write of a soft reset. -/
theorem hostAccess_schedValid (a : Access) (s : State) :
    (hostAccess a s).schedValid = s.schedValid ∨
    ((hostAccess a s).schedValid = false ∧
      ∃ v, a = .write .bits32 0x008#16 v ∧ v.getLsbD 1 = true) := by
  rcases hostAccess_cases a s with
    e | ⟨off, -, e⟩ | ⟨v, ha, e⟩ | ⟨-, e⟩ | ⟨off, v, -, -, hoff, halign, e⟩ <;> rw [e]
  · exact .inl rfl
  · exact .inl rfl
  · cases hbit : v.getLsbD 1 with
    | false => rw [writeCtrl_ie s hbit]; exact .inl rfl
    | true => rw [writeCtrl_reset s hbit]; exact .inr ⟨rfl, v, ha, hbit⟩
  · exact .inl rfl
  · exact .inl (writeWord_schedValid s hoff halign v)

/-- Settles O56: of the events of a step only a completion, a CTRL write and a reset can change
SCHED_VALID. -/
theorem onlyExpansionAndResetChangeSchedValid :
    Obligations.OnlyExpansionAndResetChangeSchedValid := by
  intro s t h hne
  rcases step_cases h with ⟨rest, hscript, hturn⟩ | ⟨a, rest, hscript, rfl⟩ | ⟨rest, hscript, rfl⟩
  · rcases engineTurn_cases hturn with ⟨-, rfl⟩ | ⟨v, i, hflight, hdec, hexec⟩ | ⟨v, e, -, -, rfl⟩
    · exact absurd rfl hne
    · obtain hsame | ⟨hset, hexp, hcode⟩ := exec_schedValid hexec
      · exact absurd hsame hne
      · exact .inl ⟨hset, (exec_completes hexec).idle, hscript.imp And.left (fun e => ⟨rest, e⟩),
          v, i, hflight, hdec, hexp, hcode⟩
    · exact absurd rfl hne
  · obtain hsame | ⟨hclear, v, rfl, hbit⟩ := hostAccess_schedValid a { s with script := rest }
    · exact absurd hsame hne
    · exact .inr ⟨hclear, rest, .inr ⟨v, hscript, hbit⟩⟩
  · exact .inr ⟨rfl, rest, .inl hscript⟩

/-! ### The invariant: stores and results

`{ h with … }` below gives anew the clauses that an update touches; those of `h` serve for the rest. -/

/-- A store inside the RAMs and outside S keeps the invariant. -/
theorem State.Inv.store {s : State} (h : s.Inv) {base : Nat} {bs : List Byte}
    (hram : ∀ a, base ≤ a → a < base + bs.length → RamAddress s.cfg a)
    (houtside : base + bs.length ≤ sBase ∨ sBase + 4096 ≤ base) : (s.store base bs).Inv :=
  { h with
    memForm := Memory.write_wf h.memForm base bs
    memRam := ramAddress_write h.memRam hram
    schedule := fun hv => (h.schedule hv).of_same rfl rfl (fun a hlo hhi => by
      rw [ramByte_store, if_neg (by omega)]) }

theorem State.Inv.storeKeybuf {s : State} (h : s.Inv) {base : Nat} {bs : List Byte}
    (hlo : keyBase ≤ base) (hhi : base + bs.length ≤ keyBase + 255) : (s.store base bs).Inv := by
  exact h.store (fun a _ _ => .inl ⟨by omega, by omega⟩) (.inl (hhi.trans (by decide)))

theorem State.Inv.storeInBuf {s : State} (h : s.Inv) {base : Nat} {bs : List Byte}
    (hlo : inBase ≤ base) (hhi : base + bs.length ≤ inBase + s.cfg.nIn) :
    (s.store base bs).Inv := by
  exact h.store (fun a _ _ => .inr (.inr (.inl ⟨by omega, by omega⟩)))
    (.inr (le_trans (by decide) hlo))

/-- A result in OUT_BUF that fits, with an OUT_LEN that fits, keeps the invariant. -/
theorem State.Inv.writeOut {s : State} (h : s.Inv) {bs : List Byte} {n : Nat}
    (hbs : bs.length ≤ s.cfg.nOut) (hn : n ≤ s.cfg.nOut) :
    State.Inv { s.store outBase bs with outLen := BitVec.ofNat 32 n } := by
  have hb := bases
  have hstore : (s.store outBase bs).Inv :=
    h.store (fun a _ _ => .inr (.inr (.inr ⟨by omega, by omega⟩))) (.inr (by omega))
  exact { hstore with
    outLen := by rw [BitVec.toNat_ofNat]; exact (Nat.mod_le _ _).trans hn }

/-- A published schedule keeps the invariant: S holds it whole, inside its 4096 bytes. -/
theorem State.Inv.publishSchedule {s : State} (h : s.Inv) {p : Rc5Params}
    (hp : s.rc5Check = some p) : (publishSchedule p s).Inv := by
  have hr : p.r ≤ 255 := (rc5Check_some_iff.1 hp).2.2.2.1
  exact { h with
    memForm := Memory.write_wf h.memForm _ _
    memRam := ramAddress_write h.memRam (fun a hlo hhi => .inr (.inl ⟨hlo, by
      rw [tableBytes_length, table_length, tableLen] at hhi; omega⟩))
    schedule := fun _ => publishSchedule_holds s hp
    keyWords := publishSchedule_keyWords_length s hp }

theorem State.Inv.withIv {s : State} (h : s.Inv) (iv : Quad) : State.Inv { s with iv := iv } :=
  { h with }

theorem State.Inv.writeBlock {s : State} (h : s.Inv) {w : Nat} (x : BitVec w × BitVec w) :
    (writeBlock x s).Inv := { h with }

theorem State.Inv.writeDigest {s : State} (h : s.Inv) (toKey : Bool) (m : List Byte) :
    (writeDigest toKey (md5Digest m) s).Inv := by
  cases toKey with
  | false => exact { h with }
  | true => exact { h.storeKeybuf (bs := md5Digest m) le_rfl (by simp) with }

/-- A completion keeps the invariant. -/
theorem State.Inv.finish {s : State} (h : s.Inv) (k : ErrCode) : (finish k s).Inv :=
  { h with
    busyStatus := fun hbusy => by cases hbusy
    lastOp := fun _ hflight => by cases hflight
    errCode := rfl }

/-! ### The invariant: PERIOD (`10_state.md` R40) -/

/-- The scan's answer is at least 1, and at most the last index it has seen. -/
theorem periodScan_bounds {xs : List DWord} {i : Nat} {first : List (DWord × Nat)} {d : Nat}
    (hfirst : ∀ e ∈ first, e.2 < i) (h : periodScan i first xs = some d) :
    0 < d ∧ d < i + xs.length := by
  induction xs generalizing i first with
  | nil => cases h
  | cons x xs ih =>
    unfold periodScan at h
    split at h
    next j hj =>
      obtain ⟨l₁, l₂, rfl, -⟩ := List.lookup_eq_some_iff.1 hj
      have hlt : j < i := hfirst (x, j) (by simp)
      cases h
      simp only [List.length_cons]
      omega
    next =>
      have hfirst' : ∀ e ∈ (x, i) :: first, e.2 < i + 1 := by
        intro e he
        rcases List.mem_cons.1 he with rfl | he
        · exact Nat.lt_succ_self i
        · exact Nat.lt_succ_of_lt (hfirst e he)
      have := ih hfirst' h
      simp only [List.length_cons]
      omega

theorem periodOf_bounds {xs : List DWord} {d : Nat} (h : periodOf xs = some d) :
    0 < d ∧ d < xs.length := by
  simpa using periodScan_bounds (by simp) h

theorem seqValues_length_lt (s : State) (src : SeqSource) :
    (s.seqValues src).length < 2 ^ 32 := by
  have hlen : s.seqLen src < 2 ^ 32 := by cases src <;> exact BitVec.isLt _
  simp only [State.seqValues, List.length_map, List.length_range]
  omega

/-- A period that is found is not 0 as a register value: it is above 0 and does not wrap. -/
theorem ofNat_period_ne_zero {s : State} {src : SeqSource} {d : Nat}
    (h : periodOf (s.seqValues src) = some d) : BitVec.ofNat 32 d ≠ 0 := by
  obtain ⟨hpos, hlt⟩ := periodOf_bounds h
  have hlen := seqValues_length_lt s src
  intro hzero
  have e := congrArg BitVec.toNat hzero
  rw [BitVec.toNat_ofNat, Nat.mod_eq_of_lt (by omega)] at e
  exact hpos.ne' e

theorem State.Inv.withPeriod {s : State} (h : s.Inv) {v : Word} {found : Bool}
    (hfound : found = decide (v ≠ 0)) : State.Inv { s with period := v, periodFound := found } :=
  { h with period := hfound }

/-! ### The invariant: commands -/

/-- The plaintext of an input that fits IN_BUF fits OUT_BUF (`44_cbc_pad.md` R207). -/
theorem recoveredText_fits {s : State} {p : Rc5Params} (hin : s.inTooLong = false)
    (hmod : s.inLen.toNat % p.ws.blockBytes = 0) : (s.recoveredText p).length ≤ s.cfg.nOut := by
  have hle := inTooLong_eq_false.1 hin
  rw [recoveredText_length hmod, nOut_eq]
  omega

/-- Every command keeps the invariant: it completes a state in which only its results are new. -/
theorem State.Inv.exec {i : Instr} {s t : State} (h : s.Inv) (ht : exec i s = .next t) : t.Inv := by
  cases i with
  | lcgGen =>
    rcases execLcgGen_cases ht with ⟨-, rfl⟩ | ⟨-, hfits, rfl⟩
    · exact h.finish _
    · exact (h.writeOut (by simpa using hfits) hfits).finish _
  | lcgPeriod src =>
    rcases execLcgPeriod_cases ht with ⟨-, rfl⟩ | ⟨-, -, ⟨d, hd, rfl⟩ | ⟨-, rfl⟩⟩
    · exact h.finish _
    · have hne := ofNat_period_ne_zero hd
      exact (h.withPeriod (decide_eq_true hne).symm).finish _
    · exact (h.withPeriod (v := 0) rfl).finish _
  | md5 toKey =>
    rcases execMd5_cases ht with ⟨-, rfl⟩ | ⟨-, rfl⟩
    · exact h.finish _
    · exact (h.writeDigest toKey _).finish _
  | keysched =>
    rcases execKeysched_cases ht with ⟨-, rfl⟩ | ⟨p, hp, rfl⟩
    · exact h.finish _
    · exact (h.publishSchedule hp).finish _
  | encBlock =>
    rcases execEncBlock_cases ht with ⟨-, rfl⟩ | ⟨p, hp, rfl⟩
    · exact h.finish _
    · exact ((h.publishSchedule hp).writeBlock _).finish _
  | decBlock =>
    rcases execDecBlock_cases ht with ⟨-, rfl⟩ | ⟨p, hp, rfl⟩
    · exact h.finish _
    · exact ((h.publishSchedule hp).writeBlock _).finish _
  | cbcEnc =>
    rcases execCbcEnc_cases ht with ⟨-, rfl⟩ | ⟨p, hp, hin, -, rfl⟩
    · exact h.finish _
    · have hfits := envelope_fits hin p
      exact (((h.publishSchedule hp).writeOut hfits hfits).withIv _).finish _
  | cbcDec =>
    rcases execCbcDec_cases ht with
      ⟨-, rfl⟩ | ⟨p, hp, hin, ⟨-, rfl⟩ | ⟨hmod, -, ⟨-, rfl⟩ | ⟨-, rfl⟩⟩⟩
    · exact h.finish _
    · exact h.finish _
    · have hfits := recoveredText_fits hin hmod
      have hunpadded := (Nat.sub_le _ (lastByte (s.recoveredText p))).trans hfits
      exact (((h.publishSchedule hp).writeOut hfits hunpadded).withIv _).finish _
    · have hfits := recoveredText_fits hin hmod
      have hout := (h.publishSchedule hp).writeOut (n := 0)
        ((drawBytes_length s.draws _).trans_le hfits) (Nat.zero_le _)
      refine State.Inv.finish ?_ _
      exact { hout with }

theorem State.Inv.engineTurn {s t : State} (h : s.Inv) (ht : engineTurn s = .next t) : t.Inv := by
  rcases engineTurn_cases ht with ⟨-, rfl⟩ | ⟨v, i, -, -, hexec⟩ | ⟨v, e, -, -, rfl⟩
  · exact h
  · exact h.exec hexec
  · exact h.finish _

/-! ### The invariant: host accesses and resets -/

theorem State.Inv.accept {s : State} (h : s.Inv) (v : Word) : (accept v s).Inv :=
  { h with
    busyStatus := fun _ => ⟨rfl, rfl, rfl⟩
    lastOp := fun _ hflight => by cases hflight; rfl
    errCode := rfl }

/-- An acknowledgement keeps the invariant: it clears ERR and ERRCODE together. -/
theorem State.Inv.acknowledge {s : State} (h : s.Inv) (v : Word) : (acknowledge v s).Inv :=
  { h with
    busyStatus := fun hbusy => by
      obtain ⟨hdone, herr, hcode⟩ := h.busyStatus hbusy
      simp [hdone, herr, hcode]
    errCode := by
      rw [acknowledge_err, acknowledge_errCode, h.errCode]
      cases v.getLsbD 2 <;> simp }

theorem resetCore_inv (s : State) : (resetCore s).Inv where
  memForm := List.Pairwise.nil
  memRam := fun _ hc => by cases hc
  busyStatus := fun hbusy => by cases hbusy
  lastOp := fun _ hflight => by cases hflight
  errCode := rfl
  outLen := Nat.zero_le _
  period := rfl
  schedule := fun hvalid => by cases hvalid
  keyWords := Nat.zero_le _

theorem State.Inv.writeCtrl {s : State} (h : s.Inv) (v : Word) : (writeCtrl v s).Inv := by
  unfold Machine.writeCtrl
  split
  · exact resetCore_inv s
  · exact { h with }

/-- A register write keeps the invariant: besides STATUS, CTRL and CMD it reaches only registers of
which the invariant says nothing. -/
theorem State.Inv.writeReg {s : State} (h : s.Inv) (r : Reg) (v : Word) : (writeReg s r v).Inv := by
  cases r
  case status => exact h.acknowledge v
  case ctrl => exact h.writeCtrl v
  case cmd => exact h.accept v
  all_goals exact { h with }

theorem State.Inv.writeWord {s : State} (h : s.Inv) {a : Nat} (ha : a % 4 = 0) (v : Word) :
    (writeWord a v s).Inv := by
  rcases writeWord_cases s ha v with ⟨r, -, e⟩ | ⟨bs, e, ⟨hlo, hhi⟩ | ⟨hlo, hhi⟩⟩ | e <;> rw [e]
  · exact h.writeReg r v
  · exact h.storeKeybuf hlo hhi
  · exact h.storeInBuf hlo hhi
  · exact h

theorem State.Inv.hostAccess {s : State} (h : s.Inv) (a : Access) : (hostAccess a s).Inv := by
  rcases hostAccess_cases a s with
    e | ⟨off, -, e⟩ | ⟨v, -, e⟩ | ⟨-, e⟩ | ⟨off, v, -, -, -, halign, e⟩ <;> rw [e]
  · exact { h with }
  · exact { h with }
  · exact { h.writeCtrl v with }
  · exact { h with }
  · exact { h.writeWord halign v with }

/-- Settles O58: a step is a turn of the engine, a host access or a reset, and each keeps the
invariant. -/
theorem stepKeepsTheInvariant : Obligations.StepKeepsTheInvariant := by
  intro s t h hstep
  have hrest : ∀ rest, State.Inv { s with script := rest } := fun _ => { h with }
  rcases step_cases hstep with ⟨rest, -, hturn⟩ | ⟨a, rest, -, rfl⟩ | ⟨rest, -, rfl⟩
  · exact (hrest rest).engineTurn hturn
  · exact (hrest rest).hostAccess a
  · exact resetCore_inv _

/-! ### STATUS and CTRL (`10_state.md` sections 3 and 4) -/

theorem getLsbD_ctrlWord (s : State) (k : Nat) :
    s.ctrlWord.getLsbD k = if k = 0 then s.ie else false := by
  rw [State.ctrlWord, BitVec.getLsbD_append, getLsbD_ofBool]
  by_cases hk : k = 0 <;> simp [hk]

/-- Settles O15: the bits of the packed words, and the five codes by evaluation. -/
theorem statusAndCtrlLayout : Obligations.StatusAndCtrlLayout :=
  ⟨fun s k hk => ⟨getLsbD_packStatus (hk := hk) .., getLsbD_ctrlWord s k⟩,
    rfl, rfl, rfl, rfl, rfl⟩

/-- Settles O17: a CTRL write goes to `writeCtrl` in every state, and IRQ's two bits are bit 1 of
STATUS and bit 0 of CTRL. -/
theorem ctrlWriteUpdatesIeEvenWhileBusy : Obligations.CtrlWriteUpdatesIeEvenWhileBusy := by
  refine ⟨fun s v rest hbit => ?_, fun s => ?_⟩
  · rw [step_wr_ctrl, writeCtrl_ie _ hbit]
  · have hdone : (readReg s .status).getLsbD 1 = s.done :=
      getLsbD_packStatus (hk := by decide) ..
    have hie : (readReg s .ctrl).getLsbD 0 = s.ie := getLsbD_ctrlWord s 0
    rw [hdone, hie, State.irq]

/-! ### Register writes over the bus -/

/-- A write of a register other than CTRL while no command is in flight. -/
theorem step_wr_register {s : State} {off : Offset} {r : Reg} (v : Word) (rest : List Event)
    (hidle : s.inFlight = none) (hr : (off.toNat, r) ∈ regMap) (hctrl : r ≠ .ctrl) :
    step (s.facing (wr off v) rest) =
      .next { writeReg { s with script := rest } r v with resp := .accepted } := by
  have hoff : off ≠ 0x008#16 := by
    rintro rfl
    have e := (regionOf_register (cfg := s.cfg) hr).symm.trans (regionOf_ctrl.2 rfl)
    exact hctrl (Region.register.inj e)
  rw [step_wr_idle v rest hidle (accepts_register hr) hoff, writeWord,
    regionOf_register (cfg := s.cfg) hr]

/-- A write of a read-write register leaves the RAMs, the command in flight and the hidden array. -/
theorem writeReg_hidden (s : State) (v : Word) {r : Reg}
    (hr : storesAllBits r = true ∨ r = .keyLen) :
    (writeReg s r v).mem = s.mem ∧ (writeReg s r v).epoch = s.epoch ∧
      (writeReg s r v).inFlight = s.inFlight ∧ (writeReg s r v).keyWords = s.keyWords := by
  obtain ⟨hstatus, hctrl, hcmd, -⟩ := writable_kind hr
  clear hr
  cases r
  case status => exact absurd rfl hstatus
  case ctrl => exact absurd rfl hctrl
  case cmd => exact absurd rfl hcmd
  all_goals exact ⟨rfl, rfl, rfl, rfl⟩

/-- Settles O13: the write is `writeReg`, whose reading rules say what the written and every other
register hold. -/
theorem writableRegistersStoreWhatIsWritten : Obligations.WritableRegistersStoreWhatIsWritten := by
  intro s r off v rest hidle hmap hr
  obtain ⟨hmem, hepoch, hflight, hkey⟩ := writeReg_hidden { s with script := rest } v hr
  have hread : ∀ r', readReg { writeReg { s with script := rest } r v with resp := .accepted } r' =
      readReg (writeReg { s with script := rest } r v) r' := readReg_congr_own _ _ _ _
  refine ⟨_, step_wr_register v rest hidle hmap (writable_kind hr).2.1, ?_, fun r' hne => ?_, hmem,
    hepoch, hflight.trans hidle, hkey⟩
  · rw [hread]
    exact readReg_writeReg_same _ v hr
  · rw [hread, readReg_writeReg_ne _ v hr hne]
    exact readReg_congr_own s s.draws rest s.resp r'

/-- The bits of STATUS after an acknowledgement (`10_state.md` R23, R24, R27, R30). -/
theorem getLsbD_statusWord_acknowledge (s : State) (v : Word) {k : Nat} (hk : k < 32) :
    (acknowledge v s).statusWord.getLsbD k =
      if k = 1 then s.statusWord.getLsbD 1 && !v.getLsbD 1
      else if k = 2 ∨ 8 ≤ k ∧ k ≤ 11 then s.statusWord.getLsbD k && !v.getLsbD 2
      else if k = 5 then s.statusWord.getLsbD 5 && !v.getLsbD 5
      else s.statusWord.getLsbD k := by
  have hcode : (acknowledge v s).errCode.code.getLsbD (k - 8) =
      (s.errCode.code.getLsbD (k - 8) && !v.getLsbD 2) := by
    rw [acknowledge_errCode]
    cases v.getLsbD 2 <;> simp [ErrCode.code]
  simp only [State.statusWord, getLsbD_packStatus, hk, Nat.one_lt_ofNat, Nat.reduceLT, hcode]
  interval_cases k <;> simp [State.busy]

/-- Settles O16: the write is `acknowledge`, whose STATUS is known bit by bit and which leaves every
other field. -/
theorem statusWriteClearsOnlyW1CBits : Obligations.StatusWriteClearsOnlyW1CBits := by
  intro s v rest hidle
  refine ⟨_, step_wr_register (r := .status) v rest hidle (by decide) (by decide), fun k hk => ?_,
    fun r hr => ?_, rfl, rfl, hidle, rfl⟩
  · exact getLsbD_statusWord_acknowledge s v hk
  · cases r
    case status => exact absurd rfl hr
    all_goals rfl

/-! ### Register reads over the bus -/

/-- Settles O5: a reset of the reset state gives it again but for the count of resets, which no
register shows. -/
theorem resetHoldsTheTableValues : Obligations.ResetHoldsTheTableValues :=
  ⟨readReg_resetCore State.reset, rfl, rfl, rfl⟩

theorem loHalf_add_hiHalf (x : DWord) : (loHalf x).toNat + 2 ^ 32 * (hiHalf x).toNat = x.toNat := by
  rw [loHalf_toNat, hiHalf_toNat, Nat.mod_add_div]

/-- The LO and HI registers of a 64-bit field answer with its halves (`10_state.md` R20). -/
theorem answers_halves {s : State} {rest : List Event} {off : Offset} {x : DWord}
    (hlo : s.Answers rest off (loHalf x)) (hhi : s.Answers rest (off + 4#16) (hiHalf x)) :
    ∃ lo hi, s.Answers rest off lo ∧ s.Answers rest (off + 4#16) hi ∧
      lo.toNat + 2 ^ 32 * hi.toNat = x.toNat :=
  ⟨_, _, hlo, hhi, loHalf_add_hiHalf x⟩

/-- Four registers that answer with the words of a 16-byte string answer with its bytes
(`10_state.md` R45, R46). -/
theorem answers_quad_byte {s : State} {rest : List Event} {base : Nat} {q : Quad}
    (h0 : s.Answers rest (BitVec.ofNat 16 (base + 4 * 0)) q.w0)
    (h1 : s.Answers rest (BitVec.ofNat 16 (base + 4 * 1)) q.w1)
    (h2 : s.Answers rest (BitVec.ofNat 16 (base + 4 * 2)) q.w2)
    (h3 : s.Answers rest (BitVec.ofNat 16 (base + 4 * 3)) q.w3) {k : Nat} (hk : k < 16) :
    ∃ d, s.Answers rest (BitVec.ofNat 16 (base + 4 * (k / 4))) d ∧
      d.extractLsb' (8 * (k % 4)) 8 = q.byte k := by
  refine ⟨_, ?_, rfl⟩
  have hword : k / 4 < 4 := by omega
  generalize k / 4 = j at hword
  interval_cases j
  exacts [h0, h1, h2, h3]

/-- Settles O60: an idle read of a register answers with `readReg`, at each offset of the map. -/
theorem idleReadsReturnTheRegisters : Obligations.IdleReadsReturnTheRegisters := by
  intro s rest hidle
  have hreg (r : Reg) (off : Offset) (hr : (off.toNat, r) ∈ regMap) :
      s.Answers rest off (readReg s r) := answers_register rest hidle hr
  refine ⟨hreg, hreg .id _ (by decide),
    ⟨_, hreg .inCap _ (by decide), readReg_inCap_toNat s⟩,
    ⟨_, hreg .keyLen _ (by decide), zext_byte_toNat s.keyLen⟩, ?_, ?_, ?_⟩
  · simp only [List.forall_mem_cons]
    exact ⟨hreg .cmd _ (by decide), hreg .rc5W _ (by decide), hreg .rc5R _ (by decide),
      hreg .rc5B _ (by decide), hreg .inLen _ (by decide), hreg .outLen _ (by decide),
      hreg .schedW _ (by decide), hreg .schedR _ (by decide), hreg .lcgN _ (by decide),
      hreg .period _ (by decide), List.forall_mem_nil _⟩
  · simp only [List.forall_mem_cons]
    exact ⟨answers_halves (hreg .lcgMLo _ (by decide)) (hreg .lcgMHi _ (by decide)),
      answers_halves (hreg .lcgALo _ (by decide)) (hreg .lcgAHi _ (by decide)),
      answers_halves (hreg .lcgCLo _ (by decide)) (hreg .lcgCHi _ (by decide)),
      answers_halves (hreg .lcgX0Lo _ (by decide)) (hreg .lcgX0Hi _ (by decide)),
      answers_halves (hreg .ivpMLo _ (by decide)) (hreg .ivpMHi _ (by decide)),
      answers_halves (hreg .ivpALo _ (by decide)) (hreg .ivpAHi _ (by decide)),
      answers_halves (hreg .ivpCLo _ (by decide)) (hreg .ivpCHi _ (by decide)),
      answers_halves (hreg .ivpX0Lo _ (by decide)) (hreg .ivpX0Hi _ (by decide)),
      answers_halves (hreg .blkALo _ (by decide)) (hreg .blkAHi _ (by decide)),
      answers_halves (hreg .blkBLo _ (by decide)) (hreg .blkBHi _ (by decide)),
      List.forall_mem_nil _⟩
  · simp only [List.forall_mem_cons]
    exact ⟨fun _ => answers_quad_byte (hreg .iv0 _ (by decide)) (hreg .iv1 _ (by decide))
        (hreg .iv2 _ (by decide)) (hreg .iv3 _ (by decide)),
      fun _ => answers_quad_byte (hreg .digest0 _ (by decide)) (hreg .digest1 _ (by decide))
        (hreg .digest2 _ (by decide)) (hreg .digest3 _ (by decide)),
      List.forall_mem_nil _⟩

end Sys2Proof.Machine

/-! Host accesses and the RAM windows (`20_memory.md`): what a refused access, a read and a write leave,
the words the windows show, and the operands of a command in flight. -/

namespace Sys2Proof.Machine

/-! ### Refused and accepted accesses (R63, R64) -/

theorem hostAccess_read_refused {s : State} {width : Width} {off : Offset}
    (h : ¬ Acceptable s.cfg width off) :
    hostAccess (.read width off) s = { s with resp := .error } := by
  rw [hostAccess, accepts_eq_false h, if_neg Bool.false_ne_true]

theorem hostAccess_write_refused {s : State} {width : Width} {off : Offset} {v : Word}
    (h : ¬ Acceptable s.cfg width off) :
    hostAccess (.write width off v) s = { s with resp := .error } := by
  rw [hostAccess, accepts_eq_false h, if_neg Bool.false_ne_true]

/-- Settles O9: `accepts` decides `Acceptable`, and a refused access only sets the answer. -/
theorem onlyAcceptableAccessesAreAccepted : Obligations.OnlyAcceptableAccessesAreAccepted := by
  intro s width off v rest
  simp only [step_access]
  refine ⟨fun h => ⟨?_, ?_⟩, fun h => ⟨⟨_, readData { s with script := rest } off.toNat, rfl, ?_⟩,
    ⟨_, rfl, ?_⟩⟩⟩
  · rw [hostAccess_read_refused (s := { s with script := rest }) h]
  · rw [hostAccess_write_refused (s := { s with script := rest }) h]
  · rw [hostAccess_read (s := { s with script := rest }) (accepts_iff.2 h)]
    rfl
  · rw [hostAccess_write (s := { s with script := rest }) (accepts_iff.2 h)]

/-! ### Reads (R69) -/

/-- What the bus answers a read in a state (R60, R64). -/
def readAnswer (s : State) (width : Width) (off : Offset) : BusResponse :=
  if accepts s.cfg width off then .data (readData s off.toNat) else .error

/-- A read, accepted or not, sets the bus's answer and perhaps the draws, and nothing else. -/
theorem hostAccess_read_eq (s : State) (width : Width) (off : Offset) :
    ∃ draws, hostAccess (.read width off) s =
      { s with draws := draws, resp := readAnswer s width off } := by
  rw [hostAccess, readAnswer]
  split
  · exact ⟨_, rfl⟩
  · exact ⟨s.draws, rfl⟩

theorem hostAccess_read_resp (s : State) (width : Width) (off : Offset) :
    (hostAccess (.read width off) s).resp = readAnswer s width off := by
  obtain ⟨_, e⟩ := hostAccess_read_eq s width off
  rw [e]

theorem readWord_congr_own (s : State) (draws : Nat) (script : List Event) (resp : BusResponse)
    (a : Nat) : readWord { s with draws := draws, script := script, resp := resp } a = readWord s a := by
  rw [readWord, readWord]
  cases regionOf s.cfg a with
  | register r => exact readReg_congr_own s draws script resp r
  | _ => rfl

/-- With no command in flight the answer to a read does not depend on the model's own fields. -/
theorem readAnswer_congr_own {s : State} (hidle : s.inFlight = none) (draws : Nat)
    (script : List Event) (resp : BusResponse) (width : Width) (off : Offset) :
    readAnswer { s with draws := draws, script := script, resp := resp } width off =
      readAnswer s width off := by
  rw [readAnswer, readAnswer, readData_idle hidle,
    readData_idle (s := { s with draws := draws, script := script, resp := resp }) hidle,
    readWord_congr_own]

/-- Settles O10: a read sets the answer and the draws alone, and idle answers do not depend on them. -/
theorem readsChangeNothing : Obligations.ReadsChangeNothing := by
  intro s width off rest
  obtain ⟨draws, hread⟩ := hostAccess_read_eq { s with script := rest } width off
  refine ⟨_, step_access s _ rest, ?_, fun hidle => ?_⟩
  · rw [hread]
    rfl
  · refine ⟨_, step_access _ _ rest, ?_⟩
    rw [hostAccess_read_resp, hostAccess_read_resp, hread]
    exact readAnswer_congr_own (s := { s with script := rest }) hidle ..

/-! ### The RAM windows in the address map (R62) -/

theorem regionOf_eq_keybuf {cfg : Config} {a : Nat} (h : keyBase ≤ a ∧ a < keyBase + 256) :
    regionOf cfg a = .keybuf := by
  have hb := bases
  rw [regionOf_window (by omega), if_pos h]

theorem regionOf_eq_sTable {cfg : Config} {a : Nat} (h : sBase ≤ a ∧ a < sBase + 4096) :
    regionOf cfg a = .sTable := by
  have hb := bases
  rw [regionOf_window (by omega), if_neg (by omega), if_pos h]

theorem regionOf_eq_inBuf {cfg : Config} {a : Nat} (h : inBase ≤ a ∧ a < inBase + cfg.nIn) :
    regionOf cfg a = .inBuf := by
  have hb := bases
  rw [regionOf_window (by omega), if_neg (by omega), if_neg (by omega), if_pos h]

theorem regionOf_eq_outBuf {cfg : Config} {a : Nat} (h : outBase ≤ a ∧ a < outBase + cfg.nOut) :
    regionOf cfg a = .outBuf := by
  have hb := bases
  have hn := nIn_bounds cfg
  rw [regionOf_window (by omega), if_neg (by omega), if_neg (by omega), if_neg (by omega), if_pos h]

/-- The regions that are RAM windows. -/
def Region.isWindow (g : Region) : Prop :=
  g = .keybuf ∨ g = .sTable ∨ g = .inBuf ∨ g = .outBuf

theorem accepts_window {cfg : Config} {off : Offset} (halign : off.toNat % 4 = 0)
    (h : (regionOf cfg off.toNat).isWindow) : accepts cfg .bits32 off = true := by
  rcases h with h | h | h | h <;> simp [accepts, halign, h]

theorem window_ne_ctrl {cfg : Config} {off : Offset} (h : (regionOf cfg off.toNat).isWindow) :
    off ≠ 0x008#16 := by
  intro e
  rw [regionOf_ctrl.2 e] at h
  rcases h with h | h | h | h <;> cases h

theorem readWord_window {s : State} {a : Nat} (h : (regionOf s.cfg a).isWindow) :
    readWord s a = windowWord s a := by
  rcases h with h | h | h | h <;> rw [readWord, h]

/-! ### Reads of the windows (R61, R66 to R68) -/

/-- An idle read of a window is answered with its bytes little-endian, byte 255 of KEYBUF as 0. -/
theorem step_rd_window {s : State} {off : Offset} (rest : List Event) (hidle : s.inFlight = none)
    (halign : off.toNat % 4 = 0) (h : (regionOf s.cfg off.toNat).isWindow) :
    ∃ t d, step (s.facing (rd off) rest) = .next t ∧ t.resp = .data d ∧
      d.toNat = if off.toNat = keyBase + 252 then s.ramRead off.toNat 3 else s.ramRead off.toNat 4 := by
  refine ⟨_, windowWord s off.toNat, step_rd_accepted rest (accepts_window halign h), ?_,
    windowWord_toNat halign⟩
  rw [readData_idle hidle, readWord_window h]

/-- A little-endian number in RAM is the number of its first bytes and, above it, that of the others. -/
theorem ramRead_add (s : State) (base m n : Nat) :
    s.ramRead base (m + n) = s.ramRead base m + 256 ^ m * s.ramRead (base + m) n := by
  have hbytes : s.ramBytes base (m + n) = s.ramBytes base m ++ s.ramBytes (base + m) n := by
    simp [State.ramBytes, List.range_add, Function.comp_def, Nat.add_assoc]
  rw [State.ramRead, hbytes, leNat_append, ramBytes_length]
  rfl

/-! ### Writes of the windows (R66, R68) -/

theorem readReg_store (s : State) (base : Nat) (bs : List Byte) (r : Reg) :
    readReg (s.store base bs) r = readReg s r := by
  cases r <;> rfl

/-- An idle write that stores bytes at its offset stores those bytes and changes nothing else of the
core. -/
theorem step_wr_stores {s : State} {off : Offset} {v : Word} {rest : List Event} {bs : List Byte}
    (hidle : s.inFlight = none) (halign : off.toNat % 4 = 0)
    (h : (regionOf s.cfg off.toNat).isWindow)
    (hwrite : ∀ t : State, t.cfg = s.cfg → writeWord off.toNat v t = t.store off.toNat bs) :
    ∃ t, step (s.facing (wr off v) rest) = .next t ∧
      t.ramRead off.toNat bs.length = leNat bs ∧ RamKeptOutside off.toNat bs.length s t ∧
      (∀ r, readReg t r = readReg s r) ∧ t.inFlight = none ∧ t.keyWords = s.keyWords := by
  refine ⟨_, step_wr_idle v rest hidle (accepts_window halign h) (window_ne_ctrl h), ?_⟩
  rw [hwrite { s with script := rest } rfl]
  refine ⟨ramRead_of_write (s := s) rfl rfl, fun a hout => ?_, fun r => ?_, hidle, rfl⟩
  · calc
      _ = (s.store off.toNat bs).ramByte a := ramByte_congr rfl rfl a
      _ = s.ramByte a := by rw [ramByte_store, if_neg hout]
  · exact (readReg_congr_own (s.store off.toNat bs) s.draws rest .accepted r).trans
      (readReg_store s off.toNat bs r)

theorem writeWord_inBuf {s : State} {a : Nat} (h : regionOf s.cfg a = .inBuf) (v : Word) :
    writeWord a v s = s.store a (wordBytes v) := by
  rw [writeWord, h]

/-- A write to KEYBUF stores the bytes below byte 255. -/
theorem writeWord_keybuf {s : State} {a : Nat} (h : regionOf s.cfg a = .keybuf) (v : Word) :
    writeWord a v s = s.store a ((wordBytes v).take (keyBase + 255 - a)) := by
  rw [writeWord, h]

/-- Settles O11: the windows' words are their bytes little-endian, and the two words of an S entry are
its low and its high four bytes. -/
theorem bufferAndTableWindows : Obligations.BufferAndTableWindows := by
  have hb := bases
  refine ⟨fun s off v rest hidle halign => ⟨fun hwin => ?_, fun hin => ?_⟩,
    fun s k rest hidle hk => ?_⟩
  · have hregion : (regionOf s.cfg off.toNat).isWindow :=
      hwin.elim (fun h => .inr (.inr (.inl (regionOf_eq_inBuf h))))
        (fun h => .inr (.inr (.inr (regionOf_eq_outBuf h))))
    obtain ⟨t, d, hstep, hresp, hd⟩ := step_rd_window rest hidle halign hregion
    exact ⟨t, d, hstep, hresp, by rw [hd, if_neg (by omega)]⟩
  · have hregion := regionOf_eq_inBuf hin
    have hstores := step_wr_stores (v := v) (rest := rest) (bs := wordBytes v) hidle halign
      (.inr (.inr (.inl hregion))) (fun t ht => writeWord_inBuf (ht ▸ hregion) v)
    rwa [wordBytes_length, leNat_wordBytes] at hstores
  · have hword (j : Nat) (hj : j < 2) : ∃ t d,
        step (s.facing (rd (BitVec.ofNat 16 (0x1000 + 8 * k + 4 * j))) rest) = .next t ∧
          t.resp = .data d ∧ d.toNat = s.ramRead (sBase + 8 * k + 4 * j) 4 := by
      have hoff : (BitVec.ofNat 16 (0x1000 + 8 * k + 4 * j)).toNat = sBase + 8 * k + 4 * j := by
        rw [BitVec.toNat_ofNat]; omega
      have h := step_rd_window (off := BitVec.ofNat 16 (0x1000 + 8 * k + 4 * j)) rest hidle
        (by omega) (.inr (.inl (regionOf_eq_sTable (by omega))))
      rwa [hoff, if_neg (by omega)] at h
    obtain ⟨t, lo, ht, hlo, elo⟩ := hword 0 (by decide)
    obtain ⟨u, hi, hu, hhi, ehi⟩ := hword 1 (by decide)
    refine ⟨t, u, lo, hi, ht, hlo, hu, hhi, ?_⟩
    rw [elo, ehi, ramRead_add s (sBase + 8 * k) 4 4]
    rfl

theorem take_leBytes {k n : Nat} (v : Nat) (h : k ≤ n) : (leBytes n v).take k = leBytes k v := by
  induction k generalizing n v with
  | zero => rfl
  | succ k ih =>
    obtain ⟨n, rfl⟩ := Nat.exists_eq_succ_of_ne_zero (Nat.ne_zero_of_lt h)
    rw [leBytes, leBytes, List.take_succ_cons, ih _ (Nat.le_of_succ_le_succ h)]

/-- Settles O12: the last word of the window has three bytes, every other word four. -/
theorem keybufWindowHolds255Bytes : Obligations.KeybufWindowHolds255Bytes := by
  intro s q v rest hidle hq
  have hb := bases
  have hoff : (BitVec.ofNat 16 (0x800 + 4 * q)).toNat = keyBase + 4 * q := by
    rw [BitVec.toNat_ofNat]; omega
  have hregion : regionOf s.cfg (BitVec.ofNat 16 (0x800 + 4 * q)).toNat = .keybuf :=
    regionOf_eq_keybuf (by omega)
  have hread := step_rd_window rest hidle (by omega) (.inl hregion)
  have hwrite := step_wr_stores (v := v) (rest := rest) hidle (by omega) (.inl hregion)
    (fun t ht => writeWord_keybuf (ht ▸ hregion) v)
  rw [hoff] at hread hwrite
  by_cases hlast : q < 63
  · rw [if_neg (by omega)] at hread
    rw [List.take_of_length_le (by rw [wordBytes_length]; omega), wordBytes_length,
      leNat_wordBytes] at hwrite
    obtain ⟨t, hstep, hram, hkept, hregs, hflight, -⟩ := hwrite
    simp only [if_pos hlast]
    exact ⟨hread, t, hstep, ⟨hram, hkept⟩, hregs, hflight⟩
  · obtain rfl : q = 63 := by omega
    have hthree : keyBase + 255 - (keyBase + 4 * 63) = 3 := rfl
    rw [if_pos rfl] at hread
    rw [hthree, wordBytes, take_leBytes _ (by decide), leBytes_length, leNat_leBytes] at hwrite
    obtain ⟨t, hstep, hram, hkept, hregs, hflight, -⟩ := hwrite
    simp only [if_neg hlast]
    exact ⟨hread, t, hstep, ⟨hram, hkept⟩, hregs, hflight⟩

/-! ### Read-only locations (R65) -/

theorem writeReg_readOnly (s : State) {r : Reg} (hr : readOnly r = true) (v : Word) :
    writeReg s r v = s := by
  revert hr
  cases r <;> simp [readOnly, writeReg]

/-- Only CTRL stands at the offset of CTRL. -/
theorem offset_ne_ctrl {off : Offset} {r : Reg} (hmap : (off.toNat, r) ∈ regMap) (hr : r ≠ .ctrl) :
    off ≠ 0x008#16 := by
  intro e
  have hregion :=
    (regionOf_register (cfg := Config.standard) hmap).symm.trans (regionOf_ctrl.2 e)
  exact hr (Region.register.inj hregion)

/-- A write that would change nothing of an idle core sets OVR of a busy one, and nothing else. -/
theorem step_wr_ignored {s : State} {off : Offset} {v : Word} (rest : List Event)
    (hacc : accepts s.cfg .bits32 off = true) (hctrl : off ≠ 0x008#16)
    (hwrite : ∀ t : State, t.cfg = s.cfg → writeWord off.toNat v t = t) :
    step (s.facing (wr off v) rest) =
      .next { s with script := rest, resp := .accepted, ovr := s.ovr || s.busy } := by
  cases hbusy : s.busy with
  | true => rw [step_wr_busy v rest hbusy hacc hctrl, Bool.or_true]
  | false =>
    have hidle : s.inFlight = none := by simpa [State.busy] using hbusy
    rw [step_wr_idle v rest hidle hacc hctrl, hwrite { s with script := rest } rfl, Bool.or_false]

theorem writesReg_cmd (i : Instr) : writesReg i .cmd = false := by
  cases i with
  | md5 toKey => cases toKey <;> rfl
  | _ => rfl

/-- CMD reads 0, whatever is in flight (`10_state.md` R33). -/
theorem readData_cmd (s : State) : readData s 0x00C = 0 := by
  have hregion : regionOf s.cfg 0x00C = .register .cmd := regionOf_register (by decide)
  have hword : readWord s 0x00C = 0 := by rw [readWord, hregion]; rfl
  unfold readData
  split
  · exact hword
  · split
    · rw [readWordBusy, hregion]
      simp [readRegBusy, writesReg_cmd, readReg]
    · exact hword

/-- Settles O14: at a read-only location the idle write is ignored, and CMD is in no write set. -/
theorem readOnlyLocationsIgnoreWrites : Obligations.ReadOnlyLocationsIgnoreWrites := by
  intro s off v rest
  refine ⟨?_, _, step_rd_accepted rest (accepts_register (r := .cmd) (by decide)), ?_⟩
  · rintro (⟨r, hmap, hr⟩ | ⟨halign, hoff⟩)
    · refine step_wr_ignored rest (accepts_register hmap) (offset_ne_ctrl hmap ?_) (fun t _ => ?_)
      · rintro rfl
        cases hr
      · rw [writeWord, regionOf_register hmap]
        exact writeReg_readOnly t hr v
    · have hregion := hoff.imp (regionOf_eq_sTable (cfg := s.cfg)) regionOf_eq_outBuf
      have hwin : (regionOf s.cfg off.toNat).isWindow :=
        hregion.elim (fun h => .inr (.inl h)) (fun h => .inr (.inr (.inr h)))
      refine step_wr_ignored rest (accepts_window halign hwin) (window_ne_ctrl hwin) (fun t ht => ?_)
      rcases hregion with h | h <;> rw [writeWord, ht, h]
  · exact congrArg BusResponse.data (readData_cmd s)

/-! ### Accesses while a command is in flight (R74, `70_reset_and_hazards.md` R284) -/

/-- An access while a command is in flight, CTRL writes apart, changes OVR and the model's own fields
at most. -/
theorem hostAccess_busy {s : State} {a : Access} (hbusy : s.busy = true)
    (hctrl : ∀ width v, a ≠ .write width 0x008#16 v) :
    ∃ ovr draws resp, hostAccess a s = { s with ovr := ovr, draws := draws, resp := resp } := by
  rcases hostAccess_cases a s with
    e | ⟨off, -, e⟩ | ⟨v, ha, -⟩ | ⟨-, e⟩ | ⟨off, v, -, hidle, -⟩
  · exact ⟨s.ovr, s.draws, _, e⟩
  · exact ⟨s.ovr, _, _, e⟩
  · exact absurd ha (hctrl _ v)
  · exact ⟨true, s.draws, _, e⟩
  · rw [State.busy, hidle] at hbusy
    cases hbusy

theorem run_access (n : Nat) (s : State) (a : Access) (rest : List Event) :
    Host.Core.run Sys2Proof.core (n + 1) { s with script := .access a :: rest } =
      Host.Core.run Sys2Proof.core n (hostAccess a { s with script := rest }) := rfl

/-- Settles O21, by induction on the accesses: each leaves a state of the same form. -/
theorem operandsAreFrozenWhileBusy : Obligations.OperandsAreFrozenWhileBusy := by
  intro accs
  induction accs with
  | nil => exact fun s rest _ _ => ⟨s.ovr, s.draws, s.resp, rfl⟩
  | cons a accs ih =>
    intro s rest hbusy hctrl
    obtain ⟨hfirst, hothers⟩ := List.forall_mem_cons.1 hctrl
    obtain ⟨ovr, draws, resp, haccess⟩ := hostAccess_busy
      (s := { s with script := accs.map Event.access ++ rest }) hbusy hfirst
    obtain ⟨ovr', draws', resp', hrun⟩ := ih
      { s with ovr := ovr, draws := draws, resp := resp } rest hbusy hothers
    refine ⟨ovr', draws', resp', ?_⟩
    rw [List.map_cons, List.cons_append, List.length_cons, run_access, haccess]
    exact hrun

end Sys2Proof.Machine

/-! The encoding of commands (`30_encoding.md`): the decoder against the encoder, the acceptance and the
completion of a word, and what a command writes and reads. -/

namespace Sys2Proof.Machine

/-! ### The decoder and the encoder (R90, R91) -/

/-- A row that leaves F free, and a value of F, select one word: the match with F in bit 8. -/
theorem and_noFlag_and_flag_iff {v c : Word} {f : Bool} (hc : c &&& 0xFFFFFEFF#32 = c) :
    v &&& 0xFFFFFEFF#32 = c ∧ v.getLsbD 8 = f ↔ v = c ||| (if f then 0x100#32 else 0#32) := by
  constructor
  · rintro ⟨hrest, hflag⟩
    rw [← hrest, ← hflag]
    exact word_eq_or_flag v
  · rintro rfl
    have hbit : c.getLsbD 8 = false := by
      rw [← hc, BitVec.getLsbD_and]
      exact Bool.and_false _
    constructor
    · rw [and_noFlag_eq _ c hc]
      cases f <;> simp
    · rw [BitVec.getLsbD_or, hbit]
      cases f <;> rfl

/-- The word a row selects is the encoding of the command the row builds from bit 8. -/
theorem eq_encode_of_selects {v : Word} :
    ∀ r ∈ opcodeMap, r.selects v = true → v = encode (r.build (v.getLsbD 8)) := by
  have hfull {c : Word} (h : (v &&& 0xFFFFFFFF#32 == c) = true) : v = c := by
    rwa [and_allOnes_word, beq_iff_eq] at h
  have hfree {c : Word} (hc : c &&& 0xFFFFFEFF#32 = c) (h : (v &&& 0xFFFFFEFF#32 == c) = true) :
      v = c ||| (if v.getLsbD 8 then 0x100#32 else 0#32) :=
    (and_noFlag_and_flag_iff hc).1 ⟨beq_iff_eq.1 h, rfl⟩
  have hperiod (f : Bool) : encode (.lcgPeriod (SeqSource.ofFlag f)) =
      0x002#32 ||| (if f then 0x100#32 else 0#32) := by cases f <;> rfl
  have hmd5 (f : Bool) : encode (.md5 f) = 0x003#32 ||| (if f then 0x100#32 else 0#32) := by
    cases f <;> rfl
  simp only [opcodeMap, List.forall_mem_cons, OpcodeRow.selects, hperiod, hmd5]
  exact ⟨hfull, hfree (by decide), hfree (by decide), hfull, hfull, hfull, hfull, hfull,
    List.forall_mem_nil _⟩

theorem decode_encode (i : Instr) : decode (encode i) = .ok i := by
  cases i with
  | lcgPeriod src => cases src <;> rfl
  | md5 toKey => cases toKey <;> rfl
  | _ => rfl

theorem encode_of_decode {v : Word} {i : Instr} (h : decode v = .ok i) : v = encode i := by
  unfold decode at h
  split at h
  next r hr =>
    cases h
    exact eq_encode_of_selects r (List.mem_of_find?_eq_some hr)
      (List.find?_some (p := (OpcodeRow.selects · v)) hr)
  next => cases h

/-- Settles O2: a word that decodes is selected by a row, which gives back every bit of it; and each of
the ten encodings decodes by evaluation. -/
theorem decodeAgreesWithEncode : Obligations.DecodeAgreesWithEncode := by
  intro v i
  constructor
  · exact encode_of_decode
  · rintro rfl
    exact decode_encode i

/-- Settles O1: the ten words are the encodings of the ten commands. -/
theorem specCommandWordsDecode : Obligations.SpecCommandWordsDecode :=
  ⟨decode_encode .lcgGen, decode_encode (.lcgPeriod .inBuf), decode_encode (.lcgPeriod .outBuf),
    decode_encode (.md5 false), decode_encode (.md5 true), decode_encode .keysched,
    decode_encode .encBlock, decode_encode .decBlock, decode_encode .cbcEnc, decode_encode .cbcDec⟩

/-- A command without a flag has one word. -/
theorem decode_iff_and_allOnes {v c : Word} {i : Instr} (hc : encode i = c) :
    decode v = .ok i ↔ v &&& 0xFFFFFFFF#32 = c := by
  rw [decodeAgreesWithEncode, hc, and_allOnes_word]

/-- A command with a flag has the row's word with the flag in bit 8. -/
theorem decode_iff_and_noFlag {v c : Word} {i : Instr} {f : Bool} (hc : c &&& 0xFFFFFEFF#32 = c)
    (hi : encode i = c ||| (if f then 0x100#32 else 0#32)) :
    decode v = .ok i ↔ v &&& 0xFFFFFEFF#32 = c ∧ v.getLsbD 8 = f := by
  rw [decodeAgreesWithEncode, hi, and_noFlag_and_flag_iff hc]

/-- Settles O3: by the one word of each command and flag. -/
theorem opcodeMapSelectsCommands : Obligations.OpcodeMapSelectsCommands := by
  intro v
  refine ⟨decode_iff_and_allOnes rfl, decode_iff_and_noFlag (by decide) rfl,
    decode_iff_and_noFlag (by decide) rfl, fun toKey => decode_iff_and_noFlag (by decide) ?_,
    decode_iff_and_allOnes rfl, decode_iff_and_allOnes rfl, decode_iff_and_allOnes rfl,
    decode_iff_and_allOnes rfl, decode_iff_and_allOnes rfl⟩
  cases toKey <;> rfl

/-! ### Legal words (R93) -/

theorem toNat_encode (i : Instr) :
    (encode i).toNat = i.op.toNat + if i.flag then 256 else 0 := by
  cases i with
  | lcgPeriod src => cases src <;> rfl
  | md5 toKey => cases toKey <;> rfl
  | _ => rfl

theorem op_bounds (i : Instr) : 1 ≤ i.op.toNat ∧ i.op.toNat ≤ 8 := by
  cases i <;> simp [Instr.op]

/-- Only the commands with OP 2 and 3 have a flag. -/
theorem op_of_flag {i : Instr} (h : i.flag = true) : i.op.toNat = 2 ∨ i.op.toNat = 3 := by
  cases i with
  | lcgPeriod src => exact .inl rfl
  | md5 toKey => exact .inr rfl
  | _ => cases h

/-- A word is legal exactly under the arithmetic conditions of R93. -/
theorem exists_decode_iff (v : Word) :
    (∃ i, decode v = .ok i) ↔
      (1 ≤ v.toNat % 256 ∧ v.toNat % 256 ≤ 8) ∧ v.toNat / 512 = 0 ∧
        (v.toNat / 256 % 2 = 0 ∨ v.toNat % 256 = 2 ∨ v.toNat % 256 = 3) := by
  constructor
  · rintro ⟨i, hi⟩
    have hop := op_bounds i
    rw [encode_of_decode hi, toNat_encode]
    split
    next hflag =>
      have := op_of_flag hflag
      omega
    next => omega
  · rintro ⟨hop, hrsv, hflag⟩
    have hword {i : Instr} (h : v.toNat = (encode i).toNat) : ∃ i, decode v = .ok i :=
      ⟨i, (decodeAgreesWithEncode v i).2 (BitVec.eq_of_toNat_eq h)⟩
    have hten : v.toNat = 1 ∨ v.toNat = 2 ∨ v.toNat = 258 ∨ v.toNat = 3 ∨ v.toNat = 259 ∨
        v.toNat = 4 ∨ v.toNat = 5 ∨ v.toNat = 6 ∨ v.toNat = 7 ∨ v.toNat = 8 := by omega
    rcases hten with h | h | h | h | h | h | h | h | h | h
    exacts [hword (i := .lcgGen) h, hword (i := .lcgPeriod .inBuf) h,
      hword (i := .lcgPeriod .outBuf) h, hword (i := .md5 false) h, hword (i := .md5 true) h,
      hword (i := .keysched) h, hword (i := .encBlock) h, hword (i := .decBlock) h,
      hword (i := .cbcEnc) h, hword (i := .cbcDec) h]

/-! ### The engine's turn (R94, R95) -/

theorem runCommand_of_decode {v : Word} {i : Instr} (h : decode v = .ok i) (s : State) :
    runCommand v s = exec i s := by
  rw [runCommand, h]

theorem runCommand_illegal {v : Word} (h : ∀ i, decode v ≠ .ok i) (s : State) :
    runCommand v s = .next (finish .illegalCommand s) := by
  unfold runCommand
  split
  next i hi => exact absurd hi (h i)
  next => rfl

theorem engineTurn_none {s : State} (h : s.inFlight = none) : engineTurn s = .next s := by
  rw [engineTurn, h]

theorem step_of_no_script {s : State} (h : s.script = []) : step s = engineTurn s := by
  rw [step, h]

/-- A word submitted for the very next step is run on the state that has just accepted it. -/
theorem step_submitted (v : Word) (s : State) : step (submitted v s) = runCommand v (accept v s) := rfl

theorem withFetchWord_toNat (s : State) (v : Word) : s.withFetchWord 32 v.toNat = submitted v s := by
  rw [State.withFetchWord, Nat.mod_eq_of_lt v.isLt, BitVec.ofNat_toNat, BitVec.setWidth_eq]

/-- Settles O22: the engine's turn runs the latched word's command, and nothing without one. -/
theorem engineStepRunsTheDecodedCommand : Obligations.EngineStepRunsTheDecodedCommand := by
  refine ⟨fun s v i rest hdec => ⟨fun hflight => ⟨?_, fun hscript => ?_⟩, ?_⟩,
    fun s rest hidle => ⟨?_, fun hscript => ?_⟩⟩
  · rw [step_completion, engineTurn_some (s := { s with script := rest }) hflight,
      runCommand_of_decode hdec]
  · rw [step_of_no_script hscript, engineTurn_some hflight, runCommand_of_decode hdec]
  · rw [withFetchWord_toNat, step_submitted, runCommand_of_decode hdec]
  · rw [step_completion, engineTurn_none (s := { s with script := rest }) hidle]
  · rw [step_of_no_script hscript, engineTurn_none hidle]

/-- Settles O23: the turn runs the word in flight, and every word completes. -/
theorem everyCommandCompletes : Obligations.EveryCommandCompletes := by
  intro s v rest hflight
  obtain ⟨t, ht, hcomp⟩ := runCommand_completes v { s with script := rest }
  refine ⟨t, ?_, hcomp, fun hscript => ?_⟩
  · rwa [step_completion, engineTurn_some (s := { s with script := rest }) hflight]
  · rw [step_of_no_script hscript, engineTurn_some hflight]
    exact runCommand_completes v s

/-! ### Acceptance (R92, R93) -/

/-- A write of CMD while no command is in flight is the acceptance of the word. -/
theorem step_wr_cmd {s : State} (v : Word) (rest : List Event) (hidle : s.inFlight = none) :
    step (s.facing (wr 0x00C#16 v) rest) =
      .next { accept v { s with script := rest } with resp := .accepted } :=
  step_wr_register (r := .cmd) v rest hidle (by decide) (by decide)

/-- An error completion reports its code and changes nothing else (`60_exceptions.md` R242). -/
theorem onlyReports_finish {k : ErrCode} (hk : k ≠ .success) (s : State) :
    OnlyReports k s (finish k s) := by
  rw [OnlyReports, finish, decide_eq_true hk]

/-- Settles O4: the ten legal words by their numbers; an illegal one is accepted as any word is, and
its completion only reports. -/
theorem illegalWordsReportIllegalCommand : Obligations.IllegalWordsReportIllegalCommand := by
  refine ⟨exists_decode_iff, fun s v rest hillegal => ⟨fun hidle => ?_, fun hflight => ?_⟩⟩
  · exact ⟨_, step_wr_cmd v rest hidle, rfl⟩
  · refine ⟨_, ?_, onlyReports_finish (by decide) { s with script := rest }⟩
    rw [step_completion, engineTurn_some (s := { s with script := rest }) hflight,
      runCommand_illegal hillegal]

/-- Settles O18: idle, the write is `accept`; busy, it is dropped as a write of any register but CTRL
is. -/
theorem cmdWriteIsAccepted : Obligations.CmdWriteIsAccepted := by
  refine fun s v rest => ⟨fun hidle => ⟨_, step_wr_cmd v rest hidle, rfl, rfl, ?_⟩, fun hbusy => ?_⟩
  · exact BitVec.extractLsb'_toNat ..
  · exact ⟨_, step_wr_busy v rest hbusy (accepts_register (r := .cmd) (by decide)) (by decide), rfl⟩

end Sys2Proof.Machine

/-! The write sets and the operands of the commands (`30_encoding.md` R96, R97). -/

namespace Sys2Proof.Machine

/-! ### The registers an update leaves -/

theorem registersKept_outLen (s : State) (v : Word) :
    RegistersKept [.outLen] s { s with outLen := v } := by
  intro r _ hr
  cases r
  case outLen => exact absurd (by decide) hr
  all_goals rfl

theorem registersKept_keyLen (s : State) (v : BitVec 8) :
    RegistersKept [.keyLen] s { s with keyLen := v } := by
  intro r _ hr
  cases r
  case keyLen => exact absurd (by decide) hr
  all_goals rfl

theorem registersKept_iv (s : State) (q : Quad) : RegistersKept ivRegs s { s with iv := q } := by
  intro r _ hr
  cases r
  case iv0 | iv1 | iv2 | iv3 => exact absurd (by decide) hr
  all_goals rfl

theorem registersKept_digest (s : State) (q : Quad) :
    RegistersKept digestRegs s { s with digest := q } := by
  intro r _ hr
  cases r
  case digest0 | digest1 | digest2 | digest3 => exact absurd (by decide) hr
  all_goals rfl

theorem registersKept_period (s : State) (v : Word) (found : Bool) :
    RegistersKept [.period] s { s with period := v, periodFound := found } := by
  intro r hne hr
  cases r
  case period => exact absurd (by decide) hr
  case status => exact absurd rfl hne
  all_goals rfl

theorem registersKept_writeBlock {w : Nat} (x : BitVec w × BitVec w) (s : State) :
    RegistersKept blockRegs s (writeBlock x s) := by
  intro r _ hr
  cases r
  case blkALo | blkAHi | blkBLo | blkBHi => exact absurd (by decide) hr
  all_goals rfl

theorem registersKept_publishSchedule (p : Rc5Params) (s : State) :
    RegistersKept schedRegs s (publishSchedule p s) := by
  intro r hne hr
  cases r
  case schedW | schedR => exact absurd (by decide) hr
  case status => exact absurd rfl hne
  all_goals rfl

/-! ### Frames (R96)

`{ h with … }` below gives anew the clauses that an update touches; those of `h` serve for the rest. -/

/-- An update of registers of the write set keeps a frame's registers. -/
theorem FrameOf.registersKept {i : Instr} {s u u' : State} (h : FrameOf i s u) {changed : List Reg}
    (hkept : RegistersKept changed u u') (hset : ∀ r ∈ changed, writesReg i r = true) (r : Reg)
    (hne : r ≠ .status) (hr : writesReg i r = false) : readReg u' r = readReg s r := by
  have hnot : r ∉ changed := fun hmem => Bool.false_ne_true (hr.symm.trans (hset r hmem))
  exact (hkept r hne hnot).trans (h.registers r hne hr)

/-- A store inside the write set keeps a frame. -/
theorem FrameOf.store {i : Instr} {s u : State} (h : FrameOf i s u) {base : Nat} {bs : List Byte}
    (hset : ∀ a, writesByte s i a = false → ¬ (base ≤ a ∧ a < base + bs.length)) :
    FrameOf i s (u.store base bs) :=
  { h with
    registers := fun r hne hr => (readReg_store u base bs r).trans (h.registers r hne hr)
    ram := fun a ha => by rw [ramByte_store, if_neg (hset a ha), h.ram a ha] }

/-- A result in OUT_BUF, and its length in OUT_LEN, keep a frame of a command that writes both. -/
theorem FrameOf.writeOut {i : Instr} {s u : State} (h : FrameOf i s u) {bs : List Byte}
    (hset : bs.length ≤ outWriteLen s i) (hfits : bs.length ≤ s.cfg.nOut)
    (hreg : writesReg i .outLen = true) (v : Word) :
    FrameOf i s { u.store outBase bs with outLen := v } := by
  have hstore : FrameOf i s (u.store outBase bs) :=
    h.store (fun _ ha => not_in_out_of_writesByte ha hset hfits)
  exact { hstore with
    registers := hstore.registersKept (registersKept_outLen _ v) (List.forall_mem_singleton.2 hreg) }

theorem FrameOf.withIv {i : Instr} {s u : State} (h : FrameOf i s u)
    (hset : ∀ r ∈ ivRegs, writesReg i r = true) (q : Quad) : FrameOf i s { u with iv := q } :=
  { h with registers := h.registersKept (registersKept_iv u q) hset }

theorem FrameOf.withPeriod {s u : State} {src : SeqSource} (h : FrameOf (.lcgPeriod src) s u)
    (v : Word) (found : Bool) :
    FrameOf (.lcgPeriod src) s { u with period := v, periodFound := found } :=
  { h with
    registers := h.registersKept (registersKept_period u v found) (by simp [writesReg])
    periodFound := fun hnot => by cases hnot }

theorem FrameOf.writeBlock {i : Instr} {s u : State} (h : FrameOf i s u)
    (hset : ∀ r ∈ blockRegs, writesReg i r = true) {w : Nat} (x : BitVec w × BitVec w) :
    FrameOf i s (writeBlock x u) :=
  { h with registers := h.registersKept (registersKept_writeBlock x u) hset }

theorem FrameOf.withDigest {s u : State} {toKey : Bool} (h : FrameOf (.md5 toKey) s u) (q : Quad) :
    FrameOf (.md5 toKey) s { u with digest := q } :=
  { h with registers := h.registersKept (registersKept_digest u q) (by simp [writesReg, digestRegs]) }

theorem FrameOf.withKeyLen {s u : State} (h : FrameOf (.md5 true) s u) (v : BitVec 8) :
    FrameOf (.md5 true) s { u with keyLen := v } :=
  { h with registers := h.registersKept (registersKept_keyLen u v) (by decide) }

theorem FrameOf.writeDigest {s u : State} {toKey : Bool} (h : FrameOf (.md5 toKey) s u)
    (m : List Byte) : FrameOf (.md5 toKey) s (writeDigest toKey (md5Digest m) u) := by
  cases toKey with
  | false => exact h.withDigest _
  | true =>
    have hkey : FrameOf (.md5 true) s (u.store keyBase (md5Digest m)) :=
      h.store (fun a ha => by rw [md5Digest_length]; exact not_in_key_of_writesByte ha)
    exact (hkey.withDigest (Quad.ofBytes (md5Digest m))).withKeyLen 16

/-- Every expansion writes SCHED_W and SCHED_R (row KEYSCHED). -/
theorem writesReg_sched {i : Instr} (hi : expandsKey i = true) :
    ∀ r ∈ schedRegs, writesReg i r = true := by
  cases i with
  | lcgGen | lcgPeriod | md5 => cases hi
  | _ => decide

theorem FrameOf.publishSchedule {i : Instr} {s : State} {p : Rc5Params} (hp : s.rc5Check = some p)
    (hi : expandsKey i = true) : FrameOf i s (publishSchedule p s) := by
  have hstore := (FrameOf.refl i s).store (base := sBase) (bs := tableBytes (s.table p))
    (fun a ha => by
      rw [tableBytes_length, table_length]
      exact not_in_s_of_writesByte hp hi ha)
  exact { hstore with
    registers :=
      (FrameOf.refl i s).registersKept (registersKept_publishSchedule p s) (writesReg_sched hi)
    schedValid := fun hnot => absurd (hi.symm.trans hnot) Bool.true_eq_false.mp
    keyWords := fun hnot => absurd (hi.symm.trans hnot) Bool.true_eq_false.mp }

/-- The envelope of CBC_ENC is as long as R96 says. -/
theorem envelope_length_eq {s : State} {p : Rc5Params} (hp : s.rc5Check = some p) :
    (s.envelope p).length = outWriteLen s .cbcEnc := by
  have hdiv := Nat.div_add_mod' s.inLen.toNat p.ws.blockBytes
  rw [envelope_length, outWriteLen, regBlockBytes_eq hp, Nat.add_mul, Nat.one_mul]
  omega

/-- The padded plaintext of CBC_DEC is as long as R96 says. -/
theorem recoveredText_length_eq {s : State} {p : Rc5Params} (hp : s.rc5Check = some p)
    (hmod : s.inLen.toNat % p.ws.blockBytes = 0) :
    (s.recoveredText p).length = outWriteLen s .cbcDec := by
  rw [recoveredText_length hmod, outWriteLen, regBlockBytes_eq hp]

/-- Every command keeps its frame: its results lie in its write set. -/
theorem exec_frameOf {i : Instr} {s t : State} (ht : exec i s = .next t) : FrameOf i s t := by
  have hrefl := FrameOf.refl i s
  cases i with
  | lcgGen =>
    rcases execLcgGen_cases ht with ⟨-, rfl⟩ | ⟨-, hfits, rfl⟩
    · exact hrefl.finish _
    · have hlen := (dwordBytes_length (lcgSeq s.lcg s.lcgN.toNat)).trans
        (congrArg (8 * ·) (lcgSeq_length ..))
      exact (hrefl.writeOut hlen.le (hlen.trans_le hfits) rfl _).finish _
  | lcgPeriod src =>
    rcases execLcgPeriod_cases ht with ⟨-, rfl⟩ | ⟨-, -, ⟨d, -, rfl⟩ | ⟨-, rfl⟩⟩
    · exact hrefl.finish _
    · exact (hrefl.withPeriod _ _).finish _
    · exact (hrefl.withPeriod _ _).finish _
  | md5 toKey =>
    rcases execMd5_cases ht with ⟨-, rfl⟩ | ⟨-, rfl⟩
    · exact hrefl.finish _
    · exact (hrefl.writeDigest _).finish _
  | keysched =>
    rcases execKeysched_cases ht with ⟨-, rfl⟩ | ⟨p, hp, rfl⟩
    · exact hrefl.finish _
    · exact (FrameOf.publishSchedule hp rfl).finish _
  | encBlock =>
    rcases execEncBlock_cases ht with ⟨-, rfl⟩ | ⟨p, hp, rfl⟩
    · exact hrefl.finish _
    · exact ((FrameOf.publishSchedule hp rfl).writeBlock (by decide) _).finish _
  | decBlock =>
    rcases execDecBlock_cases ht with ⟨-, rfl⟩ | ⟨p, hp, rfl⟩
    · exact hrefl.finish _
    · exact ((FrameOf.publishSchedule hp rfl).writeBlock (by decide) _).finish _
  | cbcEnc =>
    rcases execCbcEnc_cases ht with ⟨-, rfl⟩ | ⟨p, hp, hin, -, rfl⟩
    · exact hrefl.finish _
    · have hout := (FrameOf.publishSchedule hp rfl).writeOut (envelope_length_eq hp).le
        (envelope_fits hin p) rfl (BitVec.ofNat 32 (s.envelope p).length)
      exact (hout.withIv (by decide) _).finish _
  | cbcDec =>
    rcases execCbcDec_cases ht with
      ⟨-, rfl⟩ | ⟨p, hp, hin, ⟨-, rfl⟩ | ⟨hmod, -, ⟨-, rfl⟩ | ⟨-, rfl⟩⟩⟩
    · exact hrefl.finish _
    · exact hrefl.finish _
    · have hout := (FrameOf.publishSchedule hp rfl).writeOut (recoveredText_length_eq hp hmod).le
        (recoveredText_fits hin hmod) rfl
        (BitVec.ofNat 32 ((s.recoveredText p).length - lastByte (s.recoveredText p)))
      exact (hout.withIv (by decide) _).finish _
    · have hlen := drawBytes_length s.draws (s.recoveredText p).length
      have hout := (FrameOf.publishSchedule hp rfl).writeOut
        (hlen.trans_le (recoveredText_length_eq hp hmod).le)
        (hlen.trans_le (recoveredText_fits hin hmod)) rfl 0
      refine FrameOf.finish ?_ _
      exact { hout.withIv (by decide) (Quad.ofBytes (s.recoveredIv p)) with }

/-! ### Errors (R95, `60_exceptions.md` R242) -/

/-- What a command that reports an error, PaddingError apart, leaves: the state it was run from,
completed with that error. -/
theorem exec_error_eq_finish {i : Instr} {s t : State} (ht : exec i s = .next t)
    (hk : t.errCode ≠ .success) (hpad : t.errCode ≠ .paddingError) : t = finish t.errCode s := by
  cases i with
  | lcgGen =>
    rcases execLcgGen_cases ht with ⟨-, rfl⟩ | ⟨-, -, rfl⟩
    · rfl
    · exact absurd rfl hk
  | lcgPeriod src =>
    rcases execLcgPeriod_cases ht with ⟨-, rfl⟩ | ⟨-, -, ⟨d, -, rfl⟩ | ⟨-, rfl⟩⟩
    · rfl
    · exact absurd rfl hk
    · exact absurd rfl hk
  | md5 toKey =>
    rcases execMd5_cases ht with ⟨-, rfl⟩ | ⟨-, rfl⟩
    · rfl
    · exact absurd rfl hk
  | keysched =>
    rcases execKeysched_cases ht with ⟨-, rfl⟩ | ⟨p, -, rfl⟩
    · rfl
    · exact absurd rfl hk
  | encBlock =>
    rcases execEncBlock_cases ht with ⟨-, rfl⟩ | ⟨p, -, rfl⟩
    · rfl
    · exact absurd rfl hk
  | decBlock =>
    rcases execDecBlock_cases ht with ⟨-, rfl⟩ | ⟨p, -, rfl⟩
    · rfl
    · exact absurd rfl hk
  | cbcEnc =>
    rcases execCbcEnc_cases ht with ⟨-, rfl⟩ | ⟨p, -, -, -, rfl⟩
    · rfl
    · exact absurd rfl hk
  | cbcDec =>
    rcases execCbcDec_cases ht with ⟨-, rfl⟩ | ⟨p, -, -, ⟨-, rfl⟩ | ⟨-, -, ⟨-, rfl⟩ | ⟨-, rfl⟩⟩⟩
    · rfl
    · rfl
    · exact absurd rfl hk
    · exact absurd rfl hpad

theorem exec_onlyReports {i : Instr} {s t : State} (ht : exec i s = .next t)
    (hk : t.errCode ≠ .success) (hpad : t.errCode ≠ .paddingError) : OnlyReports t.errCode s t := by
  have e := onlyReports_finish hk s
  rwa [← exec_error_eq_finish ht hk hpad] at e

/-- Settles O54: every command keeps its frame, and an error before the first write only reports. -/
theorem commandsWriteOnlyTheirWriteSet : Obligations.CommandsWriteOnlyTheirWriteSet :=
  ⟨fun _ _ _ ht => ⟨exec_frameOf ht, exec_onlyReports ht⟩,
    fun s _ hillegal => ⟨_, runCommand_illegal hillegal s, onlyReports_finish (by decide) s⟩⟩

end Sys2Proof.Machine

/-! What a command reads (`30_encoding.md` R97): two runs of one command on the same operands. -/

namespace Sys2Proof.Machine

/-! ### What the operands determine -/

theorem AgreeOn.ramBytes_eq {s s' : State} {base n : Nat} (h : AgreeOn s s' base n) {off m : Nat}
    (hm : off + m ≤ n) : s'.ramBytes (base + off) m = s.ramBytes (base + off) m := by
  refine ramBytes_congr (fun k hk => ?_)
  rw [Nat.add_assoc]
  exact h (off + k) (by omega)

theorem inBytes_congr {s s' : State} (h : SameInput s s') : s'.inBytes = s.inBytes := by
  obtain ⟨hlen, hbytes⟩ := h
  rw [State.inBytes, State.inBytes, hlen]
  exact hbytes.ramBytes_eq (off := 0) (Nat.zero_add _).le

theorem inTooLong_congr {s s' : State} (hcfg : s'.cfg = s.cfg) (hlen : s'.inLen = s.inLen) :
    s'.inTooLong = s.inTooLong := by
  rw [State.inTooLong, State.inTooLong, hcfg, hlen]

theorem sameOperands_lcgPeriod {s s' : State} {src : SeqSource}
    (h : SameOperands (.lcgPeriod src) s s') :
    s'.seqLen src = s.seqLen src ∧ AgreeOn s s' (seqBase src) (s.seqLen src) := by
  cases src <;> exact h.imp_left (congrArg BitVec.toNat)

theorem seqValues_congr {s s' : State} {src : SeqSource}
    (h : SameOperands (.lcgPeriod src) s s') : s'.seqValues src = s.seqValues src := by
  obtain ⟨hlen, hbytes⟩ := sameOperands_lcgPeriod h
  rw [State.seqValues, State.seqValues, hlen]
  refine List.map_congr_left (fun i hi => ?_)
  have hin := List.mem_range.1 hi
  rw [State.ramRead, State.ramRead, hbytes.ramBytes_eq (by omega)]

theorem table_congr {s s' : State} {p : Rc5Params} (hp : s.rc5Check = some p)
    (h : SameKeyOperands s s') : s'.table p = s.table p := by
  rw [State.table, State.table, expansion_congr hp h]

theorem block_congr {s s' : State} (hA : s'.blkA = s.blkA) (hB : s'.blkB = s.blkB) (w : Nat) :
    s'.block w = s.block w := by
  rw [State.block, State.block, hA, hB]

theorem envelope_congr {s s' : State} {p : Rc5Params} (hp : s.rc5Check = some p)
    (hkey : SameKeyOperands s s') (hivp : s'.ivp = s.ivp) (hin : SameInput s s') :
    s'.envelope p = s.envelope p := by
  rw [State.envelope, State.envelope, table_congr hp hkey, inBytes_congr hin, hivp]

theorem recoveredIv_congr {s s' : State} {p : Rc5Params} (hp : s.rc5Check = some p)
    (hkey : SameKeyOperands s s') (hin : SameInput s s') :
    s'.recoveredIv p = s.recoveredIv p := by
  rw [State.recoveredIv, State.recoveredIv, table_congr hp hkey, inBytes_congr hin]

theorem recoveredText_congr {s s' : State} {p : Rc5Params} (hp : s.rc5Check = some p)
    (hkey : SameKeyOperands s s') (hin : SameInput s s') :
    s'.recoveredText p = s.recoveredText p := by
  rw [State.recoveredText, State.recoveredText, table_congr hp hkey, inBytes_congr hin]

/-! ### Write sets, from inside -/

/-- A byte of a write set lies in its part of KEYBUF, of S or of OUT_BUF. -/
theorem writesByte_cases {s : State} {i : Instr} {a : Nat} (h : writesByte s i a = true) :
    (keyBase ≤ a ∧ a < keyBase + keyWriteLen i) ∨ (sBase ≤ a ∧ a < sBase + sWriteLen s i) ∨
      (outBase ≤ a ∧ a < outBase + outWriteLen s i) := by
  simp only [writesByte, Bool.or_eq_true, Bool.and_eq_true, decide_eq_true_eq] at h
  omega

theorem keyWriteLen_of_expandsKey {i : Instr} (hi : expandsKey i = true) : keyWriteLen i = 0 := by
  cases i with
  | md5 toKey => cases hi
  | _ => rfl

/-- A byte that a command without a key expansion writes lies in KEYBUF or in OUT_BUF. -/
theorem writesByte_cases_of_not_expandsKey {s : State} {i : Instr} (hi : expandsKey i = false)
    {a : Nat} (h : writesByte s i a = true) :
    (keyBase ≤ a ∧ a < keyBase + keyWriteLen i) ∨ (outBase ≤ a ∧ a < outBase + outWriteLen s i) := by
  have hcases := writesByte_cases h
  rw [sWriteLen, hi, if_neg Bool.false_ne_true] at hcases
  omega

/-- A byte that a command with a key expansion writes lies in S or in OUT_BUF. -/
theorem writesByte_cases_of_expandsKey {s : State} {i : Instr} {p : Rc5Params}
    (hp : s.rc5Check = some p) (hi : expandsKey i = true) {a : Nat} (h : writesByte s i a = true) :
    (sBase ≤ a ∧ a < sBase + 8 * tableLen p.r) ∨
      (outBase ≤ a ∧ a < outBase + outWriteLen s i) := by
  have hr : p.r = s.rc5R.toNat := (rc5Check_eq_some.1 hp).2.1
  have hcases := writesByte_cases h
  rw [keyWriteLen_of_expandsKey hi, sWriteLen, if_pos hi, ← hr] at hcases
  rw [tableLen]
  omega

/-! ### Two runs, operation by operation -/

/-- Two states with the same bytes stored agree where they are stored, and elsewhere if they did. -/
theorem ramByte_store_congr {u u' : State} {base : Nat} {bs : List Byte} {a : Nat}
    (h : ¬ (base ≤ a ∧ a < base + bs.length) → u'.ramByte a = u.ramByte a) :
    (u'.store base bs).ramByte a = (u.store base bs).ramByte a := by
  rw [ramByte_store, ramByte_store]
  split
  · rfl
  next hout => exact h hout

/-- Two published schedules of one table agree in the write set below OUT_BUF. -/
theorem ramByte_publishSchedule_congr {s s' : State} {i : Instr} {p : Rc5Params}
    (hp : s.rc5Check = some p) (hi : expandsKey i = true) (htable : s'.table p = s.table p) {a : Nat}
    (ha : writesByte s i a = true) (hout : ¬ (outBase ≤ a ∧ a < outBase + outWriteLen s i)) :
    (publishSchedule p s').ramByte a = (publishSchedule p s).ramByte a := by
  have hin := (writesByte_cases_of_expandsKey hp hi ha).resolve_right hout
  rw [publishSchedule_ramByte, publishSchedule_ramByte, if_pos hin, if_pos hin, htable]

/-- Two published schedules of one table, with one result of full length in OUT_BUF, agree in the
write set. -/
theorem ramByte_scheduleAndOut_congr {s s' : State} {i : Instr} {p : Rc5Params}
    (hp : s.rc5Check = some p) (hi : expandsKey i = true) (htable : s'.table p = s.table p)
    {out : List Byte} (hlen : out.length = outWriteLen s i) {a : Nat}
    (ha : writesByte s i a = true) :
    ((publishSchedule p s').store outBase out).ramByte a =
      ((publishSchedule p s).store outBase out).ramByte a :=
  ramByte_store_congr (fun hout =>
    ramByte_publishSchedule_congr hp hi htable ha (by rwa [hlen] at hout))

/-- What R97 says of two runs of the command `i`, from `s` to `t` and from a state with the same operands
to `t'`. -/
def SameOutcome (i : Instr) (s t t' : State) : Prop :=
  t'.errCode = t.errCode ∧ (t.errCode = .success → SameResults i s t t') ∧
    (t.errCode = .paddingError →
      (∀ r, writesReg i r = true → readReg t' r = readReg t r) ∧
      (∀ a, a < outBase → writesByte s i a = true → t'.ramByte a = t.ramByte a) ∧
      t'.schedValid = t.schedValid)

/-- STATUS is in no command's list of registers. -/
theorem writesReg_status (i : Instr) : writesReg i .status = false := by
  cases i with
  | md5 toKey => cases toKey <;> rfl
  | _ => rfl

theorem readReg_finish_of_writesReg {i : Instr} {r : Reg} (hr : writesReg i r = true) (k : ErrCode)
    (u : State) : readReg (finish k u) r = readReg u r := by
  cases r
  case status => rw [writesReg_status] at hr; cases hr
  all_goals rfl

/-- Two runs that end in one error, PaddingError apart. -/
theorem sameOutcome_error {i : Instr} {s u u' : State} {k : ErrCode} (hk : k ≠ .success)
    (hpad : k ≠ .paddingError) : SameOutcome i s (finish k u) (finish k u') :=
  ⟨rfl, fun h => absurd h hk, fun h => absurd h hpad⟩

/-- Two runs that succeed. -/
theorem SameResults.sameOutcome {i : Instr} {s u u' : State} (h : SameResults i s u u') :
    SameOutcome i s (finish .success u) (finish .success u') := by
  refine ⟨rfl, fun _ => ⟨fun r hr => ?_, h.ram, h.schedValid, h.periodFound⟩, nofun⟩
  rw [readReg_finish_of_writesReg hr, readReg_finish_of_writesReg hr]
  exact h.registers r hr

/-- Two runs that end in PaddingError: the registers and the bytes below OUT_BUF agree. -/
theorem sameOutcome_paddingError {i : Instr} {s u u' : State}
    (hregs : ∀ r, writesReg i r = true → readReg u' r = readReg u r)
    (hram : ∀ a, a < outBase → writesByte s i a = true → u'.ramByte a = u.ramByte a)
    (hsched : u'.schedValid = u.schedValid) :
    SameOutcome i s (finish .paddingError u) (finish .paddingError u') := by
  refine ⟨rfl, nofun, fun _ => ⟨fun r hr => ?_, hram, hsched⟩⟩
  rw [readReg_finish_of_writesReg hr, readReg_finish_of_writesReg hr]
  exact hregs r hr

/-! ### Two runs, command by command -/

section TwoRuns

variable {s s' t t' : State}

theorem execLcgGen_sameOutcome (hcfg : s'.cfg = s.cfg) (hops : SameOperands .lcgGen s s')
    (ht : execLcgGen s = .next t) (ht' : execLcgGen s' = .next t') : SameOutcome .lcgGen s t t' := by
  obtain ⟨hlcg, hn⟩ := hops
  unfold execLcgGen at ht ht'
  rw [hcfg, hlcg, hn] at ht'
  cases ht
  cases ht'
  split
  · exact sameOutcome_error (by decide) (by decide)
  split
  · exact sameOutcome_error (by decide) (by decide)
  refine SameResults.sameOutcome ⟨?_, fun a ha => ramByte_store_congr (fun hout => ?_), nofun, nofun⟩
  · simp [writesReg, readReg]
  · have hin := writesByte_cases_of_not_expandsKey rfl ha
    rw [dwordBytes_length, lcgSeq_length] at hout
    simp only [keyWriteLen, outWriteLen] at hin
    omega

theorem execLcgPeriod_sameOutcome {src : SeqSource} (hcfg : s'.cfg = s.cfg)
    (hops : SameOperands (.lcgPeriod src) s s') (ht : execLcgPeriod src s = .next t)
    (ht' : execLcgPeriod src s' = .next t') : SameOutcome (.lcgPeriod src) s t t' := by
  have hlong : (src = .inBuf ∧ s'.inTooLong = true) = (src = .inBuf ∧ s.inTooLong = true) := by
    cases src with
    | inBuf => rw [inTooLong_congr hcfg hops.1]
    | outBuf => simp
  have hnone {a : Nat} (ha : writesByte s (.lcgPeriod src) a = true) : False := by
    have hin := writesByte_cases_of_not_expandsKey rfl ha
    simp only [keyWriteLen, outWriteLen] at hin
    omega
  have hsame (v : Word) (found : Bool) : SameResults (.lcgPeriod src) s
      { s with period := v, periodFound := found } { s' with period := v, periodFound := found } :=
    ⟨by simp [writesReg, readReg], fun a ha => (hnone ha).elim, nofun, fun _ => rfl⟩
  unfold execLcgPeriod at ht ht'
  simp only [hlong, (sameOperands_lcgPeriod hops).1, seqValues_congr hops] at ht'
  cases ht
  cases ht'
  split
  · exact sameOutcome_error (by decide) (by decide)
  split
  · exact sameOutcome_error (by decide) (by decide)
  split
  · exact (hsame _ true).sameOutcome
  · exact (hsame 0 false).sameOutcome

theorem writeDigest_sameResults (toKey : Bool) (m : List Byte) :
    SameResults (.md5 toKey) s (writeDigest toKey (md5Digest m) s)
      (writeDigest toKey (md5Digest m) s') := by
  refine ⟨?_, fun a ha => ?_, nofun, nofun⟩
  · cases toKey <;> simp [writesReg, or_imp, forall_and, readReg, writeDigest]
  · have hin := writesByte_cases_of_not_expandsKey rfl ha
    cases toKey with
    | false =>
      simp only [keyWriteLen, outWriteLen, Bool.false_eq_true, if_false] at hin
      omega
    | true =>
      refine ramByte_store_congr (fun hout => ?_)
      rw [md5Digest_length] at hout
      simp only [keyWriteLen, outWriteLen, if_true] at hin
      omega

theorem execMd5_sameOutcome {toKey : Bool} (hcfg : s'.cfg = s.cfg)
    (hops : SameOperands (.md5 toKey) s s') (ht : execMd5 toKey s = .next t)
    (ht' : execMd5 toKey s' = .next t') : SameOutcome (.md5 toKey) s t t' := by
  unfold execMd5 at ht ht'
  rw [inTooLong_congr hcfg hops.1, inBytes_congr hops] at ht'
  cases ht
  cases ht'
  split
  · exact sameOutcome_error (by decide) (by decide)
  · exact (writeDigest_sameResults toKey s.inBytes).sameOutcome

theorem execKeysched_sameOutcome (hkey : SameKeyOperands s s') (ht : execKeysched s = .next t)
    (ht' : execKeysched s' = .next t') : SameOutcome .keysched s t t' := by
  unfold execKeysched at ht ht'
  rw [rc5Check_congr hkey] at ht'
  cases ht
  cases ht'
  split
  · exact sameOutcome_error (by decide) (by decide)
  next p hp =>
    refine SameResults.sameOutcome ⟨?_, fun a ha => ?_, fun _ => rfl, nofun⟩
    · simp [writesReg, readReg]
    · exact ramByte_publishSchedule_congr hp rfl (table_congr hp hkey) ha
        (by simp only [outWriteLen]; omega)

/-- Two runs that publish one schedule and write one block. -/
theorem writeBlock_sameResults {i : Instr} {p : Rc5Params} (hi : i = .encBlock ∨ i = .decBlock)
    (hp : s.rc5Check = some p) (htable : s'.table p = s.table p) {w : Nat} (x : BitVec w × BitVec w) :
    SameResults i s (writeBlock x (publishSchedule p s)) (writeBlock x (publishSchedule p s')) := by
  have hexp : expandsKey i = true := by rcases hi with rfl | rfl <;> rfl
  have hlen : outWriteLen s i = 0 := by rcases hi with rfl | rfl <;> rfl
  refine ⟨?_, fun a ha => ?_, fun _ => rfl, ?_⟩
  · rcases hi with rfl | rfl <;> simp [writesReg, readReg]
  · exact ramByte_publishSchedule_congr hp hexp htable ha (by omega)
  · rcases hi with rfl | rfl <;> nofun

theorem execEncBlock_sameOutcome (hops : SameOperands .encBlock s s')
    (ht : execEncBlock s = .next t) (ht' : execEncBlock s' = .next t') :
    SameOutcome .encBlock s t t' := by
  obtain ⟨hkey, hA, hB⟩ := hops
  unfold execEncBlock at ht ht'
  rw [rc5Check_congr hkey] at ht'
  cases ht
  cases ht'
  split
  · exact sameOutcome_error (by decide) (by decide)
  next p hp =>
    have htable := table_congr hp hkey
    rw [htable, block_congr hA hB]
    exact (writeBlock_sameResults (.inl rfl) hp htable _).sameOutcome

theorem execDecBlock_sameOutcome (hops : SameOperands .decBlock s s')
    (ht : execDecBlock s = .next t) (ht' : execDecBlock s' = .next t') :
    SameOutcome .decBlock s t t' := by
  obtain ⟨hkey, hA, hB⟩ := hops
  unfold execDecBlock at ht ht'
  rw [rc5Check_congr hkey] at ht'
  cases ht
  cases ht'
  split
  · exact sameOutcome_error (by decide) (by decide)
  next p hp =>
    have htable := table_congr hp hkey
    rw [htable, block_congr hA hB]
    exact (writeBlock_sameResults (.inr rfl) hp htable _).sameOutcome

theorem execCbcEnc_sameOutcome (hcfg : s'.cfg = s.cfg) (hops : SameOperands .cbcEnc s s')
    (ht : execCbcEnc s = .next t) (ht' : execCbcEnc s' = .next t') :
    SameOutcome .cbcEnc s t t' := by
  obtain ⟨hkey, hivp, hin⟩ := hops
  unfold execCbcEnc at ht ht'
  rw [rc5Check_congr hkey, inTooLong_congr hcfg hin.1, hivp] at ht'
  cases ht
  cases ht'
  split
  · exact sameOutcome_error (by decide) (by decide)
  next p hp =>
    have htable := table_congr hp hkey
    rw [envelope_congr hp hkey hivp hin]
    split
    · exact sameOutcome_error (by decide) (by decide)
    split
    · exact sameOutcome_error (by decide) (by decide)
    refine SameResults.sameOutcome ⟨?_, fun a ha => ?_, fun _ => rfl, nofun⟩
    · simp [writesReg, readReg]
    · exact ramByte_scheduleAndOut_congr hp rfl htable (envelope_length_eq hp) ha

theorem execCbcDec_sameOutcome (hcfg : s'.cfg = s.cfg) (hops : SameOperands .cbcDec s s')
    (ht : execCbcDec s = .next t) (ht' : execCbcDec s' = .next t') :
    SameOutcome .cbcDec s t t' := by
  obtain ⟨hkey, hin⟩ := hops
  unfold execCbcDec at ht ht'
  rw [rc5Check_congr hkey, inTooLong_congr hcfg hin.1, hin.1] at ht'
  cases ht
  cases ht'
  split
  · exact sameOutcome_error (by decide) (by decide)
  next p hp =>
    have htable := table_congr hp hkey
    rw [recoveredText_congr hp hkey hin, recoveredIv_congr hp hkey hin]
    split
    · exact sameOutcome_error (by decide) (by decide)
    split
    · exact sameOutcome_error (by decide) (by decide)
    next hlen =>
      split
      · have hout := recoveredText_length_eq hp (by omega)
        refine SameResults.sameOutcome ⟨?_, fun a ha => ?_, fun _ => rfl, nofun⟩
        · simp [writesReg, readReg]
        · exact ramByte_scheduleAndOut_congr hp rfl htable hout ha
      · refine sameOutcome_paddingError ?_ (fun a hlow ha => ?_) rfl
        · simp [writesReg, readReg]
        · have hout (n : Nat) : ¬ (outBase ≤ a ∧ a < outBase + n) := by omega
          calc
            _ = (publishSchedule p s').ramByte a := (ramByte_store ..).trans (if_neg (hout _))
            _ = (publishSchedule p s).ramByte a :=
              ramByte_publishSchedule_congr hp rfl htable ha (hout _)
            _ = _ := ((ramByte_store ..).trans (if_neg (hout _))).symm

end TwoRuns

/-- Two runs of a command on the same operands have the same outcome. -/
theorem exec_sameOutcome {i : Instr} {s s' t t' : State} (hcfg : s'.cfg = s.cfg)
    (hops : SameOperands i s s') (ht : exec i s = .next t) (ht' : exec i s' = .next t') :
    SameOutcome i s t t' := by
  cases i with
  | lcgGen => exact execLcgGen_sameOutcome hcfg hops ht ht'
  | lcgPeriod src => exact execLcgPeriod_sameOutcome hcfg hops ht ht'
  | md5 toKey => exact execMd5_sameOutcome hcfg hops ht ht'
  | keysched => exact execKeysched_sameOutcome hops ht ht'
  | encBlock => exact execEncBlock_sameOutcome hops ht ht'
  | decBlock => exact execDecBlock_sameOutcome hops ht ht'
  | cbcEnc => exact execCbcEnc_sameOutcome hcfg hops ht ht'
  | cbcDec => exact execCbcDec_sameOutcome hcfg hops ht ht'

/-- Settles O55: each command's checks and results are functions of its operands. -/
theorem commandsReadOnlyTheirOperands : Obligations.CommandsReadOnlyTheirOperands :=
  fun _ _ _ _ _ hcfg hops ht ht' => exec_sameOutcome hcfg hops ht ht'

end Sys2Proof.Machine

/-! The LCG Engine (`40_lcg.md`): the sequence, the period scan, and the commands LCG_GEN and LCG_PERIOD. -/

namespace Sys2Proof.Machine

/-! ### The sequence (R121) -/

/-- Settles O27: value i of the sequence is X[i], which a remainder mod m keeps below m. -/
theorem lcgSequenceFollowsTheRecurrence : Obligations.LcgSequenceFollowsTheRecurrence := by
  refine fun p n hvalid => ⟨lcgSeq_length p n, fun i hi => ?_, fun i _ => lcgValue_lt hvalid i⟩
  have hi' : i < (lcgSeq p n).length := by rwa [lcgSeq_length]
  rw [List.getD_eq_getElem _ _ hi', lcgSeq_getElem hvalid]

theorem lcgSeq_getElem?_eq_iff {p : LcgParams} (hvalid : ¬ LcgBad p) {n a b : Nat} (ha : a < n)
    (hb : b < n) : (lcgSeq p n)[a]? = (lcgSeq p n)[b]? ↔ lcgValue p a = lcgValue p b := by
  have ha' : a < (lcgSeq p n).length := by rwa [lcgSeq_length]
  have hb' : b < (lcgSeq p n).length := by rwa [lcgSeq_length]
  rw [List.getElem?_eq_getElem ha', List.getElem?_eq_getElem hb', Option.some_inj,
    ← BitVec.toNat_inj, lcgSeq_getElem hvalid, lcgSeq_getElem hvalid]

/-- A value determines all that follow. -/
theorem lcgValue_add_congr {p : LcgParams} {a b : Nat} (h : lcgValue p a = lcgValue p b) (k : Nat) :
    lcgValue p (a + k) = lcgValue p (b + k) := by
  induction k with
  | zero => exact h
  | succ k ih => rw [← Nat.add_assoc, ← Nat.add_assoc, lcgValue, lcgValue, ih]

/-- A value that returns after `d` steps returns after every multiple of `d`. -/
theorem lcgValue_add_mul {p : LcgParams} {j d : Nat} (h : lcgValue p (j + d) = lcgValue p j)
    (q : Nat) : lcgValue p (j + d * q) = lcgValue p j := by
  induction q with
  | zero => rfl
  | succ q ih =>
    calc lcgValue p (j + d * (q + 1))
        = lcgValue p (j + d + d * q) := by rw [Nat.mul_succ, Nat.add_assoc, Nat.add_comm d]
      _ = lcgValue p (j + d * q) := lcgValue_add_congr h _
      _ = lcgValue p j := ih

/-- On the cycle that starts at `j`, whatever distance brings one value back brings back X[j]: run on
from both until the first of them stands at X[j] again. -/
theorem lcgValue_add_eq_of_cycle {p : LcgParams} {j d a e : Nat} (hd : 0 < d)
    (hcycle : lcgValue p (j + d) = lcgValue p j) (hja : j ≤ a)
    (hae : lcgValue p (a + e) = lcgValue p a) : lcgValue p (j + e) = lcgValue p j := by
  have hle : a - j ≤ d * (a - j) := Nat.le_mul_of_pos_left _ hd
  have hmeet : a + (d * (a - j) - (a - j)) = j + d * (a - j) := by omega
  calc lcgValue p (j + e)
      = lcgValue p (j + d * (a - j) + e) :=
        (lcgValue_add_congr (lcgValue_add_mul hcycle (a - j)) e).symm
    _ = lcgValue p (a + e + (d * (a - j) - (a - j))) := by rw [← hmeet, Nat.add_right_comm]
    _ = lcgValue p (j + d * (a - j)) := by rw [lcgValue_add_congr hae, hmeet]
    _ = lcgValue p j := lcgValue_add_mul hcycle (a - j)

/-! ### The period scan (R123) -/

/-- Index `i` is the first whose value stands at an earlier index, and that index is `j`. -/
structure FirstRepeat (seq : List DWord) (i j : Nat) : Prop where
  lt : j < i
  lt_length : i < seq.length
  eq : seq[i]? = seq[j]?
  distinct : ∀ a b, a < b → b < i → seq[a]? ≠ seq[b]?

theorem FirstRepeat.le {seq : List DWord} {i j a b : Nat} (h : FirstRepeat seq i j) (hab : a < b)
    (he : seq[a]? = seq[b]?) : i ≤ b :=
  Nat.le_of_not_lt fun hb => h.distinct a b hab hb he

theorem FirstRepeat.unique {seq : List DWord} {i j i' j' : Nat} (h : FirstRepeat seq i j)
    (h' : FirstRepeat seq i' j') : i = i' ∧ j = j' := by
  have hi : i = i' := Nat.le_antisymm (h.le h'.lt h'.eq.symm) (h'.le h.lt h.eq.symm)
  subst hi
  have he : seq[j]? = seq[j']? := h.eq.symm.trans h'.eq
  refine ⟨rfl, ?_⟩
  rcases Nat.lt_trichotomy j j' with hlt | heq | hlt
  · exact absurd he (h.distinct j j' hlt h'.lt)
  · exact heq
  · exact absurd he.symm (h.distinct j' j hlt h.lt)

theorem FirstRepeat.not_nodup {seq : List DWord} {i j : Nat} (h : FirstRepeat seq i j) :
    ¬ seq.Nodup :=
  fun hn => List.nodup_iff_getElem?_ne_getElem?.1 hn j i h.lt h.lt_length h.eq.symm

/-- What the scan's table holds: for each value of `pre`, the values scanned so far, its index. -/
def Indexes (first : List (DWord × Nat)) (pre : List DWord) : Prop :=
  ∀ x j, first.lookup x = some j ↔ pre[j]? = some x

theorem Indexes.not_mem {first : List (DWord × Nat)} {pre : List DWord} (h : Indexes first pre)
    {x : DWord} (hx : first.lookup x = none) : x ∉ pre := by
  intro hmem
  obtain ⟨j, hj⟩ := List.mem_iff_getElem?.1 hmem
  cases hx.symm.trans ((h x j).2 hj)

theorem Indexes.concat {first : List (DWord × Nat)} {pre : List DWord} (h : Indexes first pre)
    {x : DWord} (hx : first.lookup x = none) : Indexes ((x, pre.length) :: first) (pre ++ [x]) := by
  intro y j
  by_cases hy : y = x
  · subst hy
    have hnot : pre[j]? ≠ some y := fun hj => h.not_mem hx (List.mem_of_getElem? hj)
    rw [List.lookup_cons_self, Option.some_inj]
    rcases Nat.lt_trichotomy j pre.length with hlt | rfl | hlt
    · simp [List.getElem?_append_left hlt, hnot, hlt.ne']
    · simp
    · simp [hlt.ne, List.getElem?_eq_none, Nat.succ_le_of_lt hlt]
  · have hcons : List.lookup y ((x, pre.length) :: first) = first.lookup y := by
      rw [List.lookup_cons, beq_eq_false_iff_ne.2 hy]
    rw [hcons, h y j]
    rcases Nat.lt_or_ge j pre.length with hlt | hge
    · rw [List.getElem?_append_left hlt]
    · rw [List.getElem?_append_right hge, List.getElem?_eq_none hge]
      simp [List.getElem?_singleton, Ne.symm hy]

/-- The scan from the end of `pre` on stops at the first repeat of the whole sequence; it reaches the
end only where there is none. -/
theorem periodScan_cases {pre xs : List DWord} {first : List (DWord × Nat)} (hpre : pre.Nodup)
    (hfirst : Indexes first pre) :
    (∃ i j, FirstRepeat (pre ++ xs) i j ∧ periodScan pre.length first xs = some (i - j)) ∨
    ((pre ++ xs).Nodup ∧ periodScan pre.length first xs = none) := by
  induction xs generalizing pre first with
  | nil => exact .inr ⟨by rwa [List.append_nil], rfl⟩
  | cons x xs ih =>
    unfold periodScan
    cases hx : first.lookup x with
    | some j =>
      have hj : pre[j]? = some x := (hfirst x j).1 hx
      have hlt : j < pre.length := (List.getElem?_eq_some_iff.1 hj).1
      refine .inl ⟨pre.length, j, ⟨hlt, by simp, ?_, fun a b hab hb => ?_⟩, rfl⟩
      · rw [List.getElem?_append_left hlt, hj]
        simp
      · rw [List.getElem?_append_left (hab.trans hb), List.getElem?_append_left hb]
        exact List.nodup_iff_getElem?_ne_getElem?.1 hpre a b hab hb
    | none =>
      have hpre' : (pre ++ [x]).Nodup := by
        rw [← List.concat_eq_append, List.nodup_concat]
        exact ⟨hfirst.not_mem hx, hpre⟩
      simpa using ih hpre' (hfirst.concat hx)

theorem periodOf_cases (seq : List DWord) :
    (∃ i j, FirstRepeat seq i j ∧ periodOf seq = some (i - j)) ∨
    (seq.Nodup ∧ periodOf seq = none) :=
  periodScan_cases (pre := []) List.nodup_nil fun _ _ => by simp

theorem periodOf_eq_some_iff {seq : List DWord} {d : Nat} :
    periodOf seq = some d ↔ ∃ i j, FirstRepeat seq i j ∧ d = i - j := by
  rcases periodOf_cases seq with ⟨i, j, hrep, hscan⟩ | ⟨hnodup, hscan⟩
  · rw [hscan, Option.some_inj]
    constructor
    · rintro rfl
      exact ⟨i, j, hrep, rfl⟩
    · rintro ⟨i', j', hrep', rfl⟩
      obtain ⟨rfl, rfl⟩ := hrep.unique hrep'
      rfl
  · rw [hscan]
    exact ⟨nofun, fun ⟨_, _, hrep, _⟩ => absurd hnodup hrep.not_nodup⟩

theorem periodOf_eq_none_iff {seq : List DWord} : periodOf seq = none ↔ seq.Nodup := by
  rcases periodOf_cases seq with ⟨i, j, hrep, hscan⟩ | ⟨hnodup, hscan⟩
  · rw [hscan]
    exact ⟨nofun, fun hnodup => absurd hnodup hrep.not_nodup⟩
  · exact ⟨fun _ => hnodup, fun _ => hscan⟩

/-- Settles O29: a first repeat is unique, and the scan stops at it. -/
theorem periodIsTheFirstRepeatDistance : Obligations.PeriodIsTheFirstRepeatDistance := by
  refine fun seq => ⟨fun d => periodOf_eq_some_iff.trans ⟨?_, ?_⟩,
    periodOf_eq_none_iff.trans List.nodup_iff_getElem?_ne_getElem?, fun d hd => ?_⟩
  · rintro ⟨i, j, ⟨hlt, hlen, heq, hdistinct⟩, hd⟩
    exact ⟨i, j, hlt, hlen, hd, heq, hdistinct⟩
  · rintro ⟨i, j, hlt, hlen, hd, heq, hdistinct⟩
    exact ⟨i, j, ⟨hlt, hlen, heq, hdistinct⟩, hd⟩
  · obtain ⟨hpos, hlt⟩ := periodOf_bounds hd
    exact ⟨hpos, Nat.le_sub_one_of_lt hlt⟩

/-- Settles O30: the values run in a cycle from index j of the first repeat on, so a pair of equal values
closer than the cycle's length would bring X[j] back before the first repeat. -/
theorem lcgPeriodIsTheSmallestDistance : Obligations.LcgPeriodIsTheSmallestDistance := by
  intro p n d hvalid hperiod
  obtain ⟨i, j, hrep, rfl⟩ := periodOf_eq_some_iff.1 hperiod
  have hji := hrep.lt
  have hin : i < n := by simpa using hrep.lt_length
  refine ⟨⟨i, j, hji, hin, rfl, hrep.eq⟩, fun b a hab hbn heq => Nat.le_of_not_lt fun hcloser => ?_⟩
  have hib : i ≤ b := hrep.le hab heq.symm
  have hcycle : lcgValue p (j + (i - j)) = lcgValue p j := by
    rw [Nat.add_sub_cancel' hji.le]
    exact (lcgSeq_getElem?_eq_iff hvalid hin (hji.trans hin)).1 hrep.eq
  have hpair : lcgValue p (a + (b - a)) = lcgValue p a := by
    rw [Nat.add_sub_cancel' hab.le]
    exact (lcgSeq_getElem?_eq_iff hvalid hbn (hab.trans hbn)).1 heq
  have hback : lcgValue p (j + (b - a)) = lcgValue p j :=
    lcgValue_add_eq_of_cycle (Nat.sub_pos_of_lt hji) hcycle (by omega) hpair
  exact hrep.distinct j (j + (b - a)) (by omega) (by omega)
    ((lcgSeq_getElem?_eq_iff hvalid (by omega) (by omega)).2 hback.symm)

/-! ### LCG_GEN (R122) -/

theorem execLcgGen_success {s t : State} (ht : exec .lcgGen s = .next t) (hvalid : ¬ LcgBad s.lcg)
    (hfits : 8 * s.lcgN.toNat ≤ s.cfg.nOut) :
    t.errCode = .success ∧ t.outLen = BitVec.ofNat 32 (8 * s.lcgN.toNat) ∧
    t.mem = Memory.write s.mem outBase (dwordBytes (lcgSeq s.lcg s.lcgN.toNat)) := by
  rcases execLcgGen_cases ht with ⟨hbad | hbig, -⟩ | ⟨-, -, rfl⟩
  · exact absurd (lcgValid_eq_false.1 hbad) hvalid
  · exact absurd hbig hfits.not_gt
  · exact ⟨rfl, rfl, rfl⟩

theorem execLcgGen_error {s t : State} (ht : exec .lcgGen s = .next t)
    (h : LcgBad s.lcg ∨ s.cfg.nOut < 8 * s.lcgN.toNat) : t = finish .invalidParameter s := by
  rcases execLcgGen_cases ht with ⟨-, rfl⟩ | ⟨hvalid, hfits, -⟩
  · rfl
  · exact absurd h (not_or.2 ⟨lcgValid_eq_true.1 hvalid, hfits.not_gt⟩)

/-- Settles O28: the values read back from the bytes written, and all else is the frame of LCG_GEN. -/
theorem lcgGenWritesTheSequence : Obligations.LcgGenWritesTheSequence := by
  refine ⟨decode_encode .lcgGen, fun s => ?_⟩
  obtain ⟨t, ht⟩ := exec_next .lcgGen s
  refine ⟨fun hvalid hfits => ?_, fun hbad => ?_⟩
  · have hframe := exec_frameOf ht
    obtain ⟨hcode, hlen, hmem⟩ := execLcgGen_success ht hvalid hfits
    refine ⟨t, ht, hcode ▸ exec_completes ht, ?_, fun i hi => ?_, fun a ha => ?_,
      fun r hne hr => hframe.registers r hne (decide_eq_false hr), hframe.schedValid rfl,
      hframe.periodFound rfl, hframe.keyWords rfl⟩
    · have hle := (nIn_bounds s.cfg).2.1
      rw [nOut_eq] at hfits
      rw [hlen, BitVec.toNat_ofNat, Nat.mod_eq_of_lt (by omega)]
    · have hi' : i < (lcgSeq s.lcg s.lcgN.toNat).length := by rwa [lcgSeq_length]
      rw [ramRead_of_write_dwords hmem hframe.epoch hi', lcgSeq_getElem hvalid]
    · rw [ramByte_of_write hmem hframe.epoch, dwordBytes_length, lcgSeq_length, if_neg ha]
  · obtain rfl := execLcgGen_error ht hbad
    exact ⟨_, ht, onlyReports_finish (by decide) s⟩

/-! ### LCG_PERIOD (R124) -/

/-- The length of the sequence is checked against N_IN where IN_BUF holds it. -/
theorem inTooLong_iff_seqLen {s : State} {src : SeqSource} :
    (src = .inBuf ∧ s.inTooLong = true) ↔ (src = .inBuf ∧ s.cfg.nIn < s.seqLen src) := by
  rw [inTooLong_eq_true]
  exact and_congr_right fun hsrc => by rw [hsrc, State.seqLen]

/-- PERIOD holds any distance the scan finds: no buffer is 2^32 values long. -/
theorem toNat_ofNat_period {s : State} {src : SeqSource} {d : Nat}
    (h : periodOf (s.seqValues src) = some d) : (BitVec.ofNat 32 d).toNat = d := by
  rw [BitVec.toNat_ofNat,
    Nat.mod_eq_of_lt ((periodOf_bounds h).2.trans (seqValues_length_lt s src))]

theorem execLcgPeriod_success {src : SeqSource} {s t : State} (ht : exec (.lcgPeriod src) s = .next t)
    (hfits : src = .inBuf → s.seqLen src ≤ s.cfg.nIn) (hmod : s.seqLen src % 8 = 0) :
    t.errCode = .success ∧ t.mem = s.mem ∧
    (∀ d, periodOf (s.seqValues src) = some d → t.period.toNat = d ∧ t.periodFound = true) ∧
    (periodOf (s.seqValues src) = none → t.period = 0 ∧ t.periodFound = false) := by
  rcases execLcgPeriod_cases ht with ⟨hlong | hodd, -⟩ | ⟨-, -, ⟨d, hd, rfl⟩ | ⟨hnone, rfl⟩⟩
  · obtain ⟨hsrc, hlt⟩ := inTooLong_iff_seqLen.1 hlong
    exact absurd hlt (hfits hsrc).not_gt
  · exact absurd hmod hodd
  · refine ⟨rfl, rfl, fun d' hd' => ?_, fun hnone => ?_⟩
    · cases hd.symm.trans hd'
      exact ⟨toNat_ofNat_period hd, rfl⟩
    · cases hd.symm.trans hnone
  · refine ⟨rfl, rfl, fun d hd => ?_, fun _ => ⟨rfl, rfl⟩⟩
    cases hnone.symm.trans hd

theorem execLcgPeriod_error {src : SeqSource} {s t : State} (ht : exec (.lcgPeriod src) s = .next t)
    (h : (src = .inBuf ∧ s.cfg.nIn < s.seqLen src) ∨ s.seqLen src % 8 ≠ 0) :
    t = finish .invalidParameter s := by
  rcases execLcgPeriod_cases ht with ⟨-, rfl⟩ | ⟨hfits, hmod, -⟩
  · rfl
  · exact absurd h (not_or.2 ⟨mt inTooLong_iff_seqLen.2 hfits, not_not.2 hmod⟩)

/-- Settles O31: PERIOD and PERIOD_FOUND hold the scan's answer on the sequence of the source, and all
else is the frame of LCG_PERIOD. -/
theorem lcgPeriodReportsTheFirstRepeat : Obligations.LcgPeriodReportsTheFirstRepeat := by
  refine ⟨decode_encode (.lcgPeriod .inBuf), decode_encode (.lcgPeriod .outBuf), ?_⟩
  intro src s base len hsource
  have hpair : (base, len) = (seqBase src, s.seqLen src) := by cases src <;> exact hsource
  obtain ⟨rfl, rfl⟩ := Prod.mk.inj hpair
  obtain ⟨t, ht⟩ := exec_next (.lcgPeriod src) s
  refine ⟨fun hfits hmod => ?_, fun hbad => ?_⟩
  · have hframe := exec_frameOf ht
    obtain ⟨hcode, hmem, hscan⟩ := execLcgPeriod_success ht hfits hmod
    exact ⟨t, ht, hcode ▸ exec_completes ht, hscan, hmem,
      fun r hne hr => hframe.registers r hne (decide_eq_false hr), hframe.schedValid rfl,
      hframe.keyWords rfl⟩
  · obtain rfl := execLcgPeriod_error ht hbad
    exact ⟨_, ht, onlyReports_finish (by decide) s⟩

end Sys2Proof.Machine

/-! The MD5 Engine (`41_md5.md`): the padded message, and the command MD5. -/

namespace Sys2Proof.Machine

/-! ### Padding (R141) -/

/-- The number of zero bytes in the padding of a message of `n` bytes. -/
def md5Zeros (n : Nat) : Nat := (119 - n % 64) % 64

theorem md5Pad_eq (m : List Byte) : md5Pad m = m ++ [0x80#8] ++
    List.replicate (md5Zeros m.length) 0#8 ++ leBytes 8 ((8 * m.length) % 2 ^ 64) := rfl

/-- Zeros that fill up to 56 mod 64 differ from those of the padding by whole blocks. -/
theorem md5Zeros_congr_iff (n z : Nat) : (n + 1 + z) % 64 = 56 ↔ z % 64 = md5Zeros n := by
  unfold md5Zeros
  omega

theorem md5Zeros_lt (n : Nat) : md5Zeros n < 64 := Nat.mod_lt _ (by decide)

/-- The zeros of the padding fill up to 56 mod 64, and no fewer do. -/
theorem md5Zeros_least (n : Nat) : (n + 1 + md5Zeros n) % 64 = 56 ∧
    ∀ z, z < md5Zeros n → (n + 1 + z) % 64 ≠ 56 := by
  have hlt := md5Zeros_lt n
  refine ⟨(md5Zeros_congr_iff n _).2 (Nat.mod_eq_of_lt hlt), fun z hz h => ?_⟩
  have hmod := (md5Zeros_congr_iff n z).1 h
  rw [Nat.mod_eq_of_lt (hz.trans hlt)] at hmod
  exact hz.ne hmod

/-- The padded message is whole blocks: one for each 64 bytes of message and length field, and one more
for the rest. -/
theorem md5Pad_length (m : List Byte) : (md5Pad m).length = ((m.length + 8) / 64 + 1) * 64 := by
  have hlt := md5Zeros_lt m.length
  have hfill := (md5Zeros_least m.length).1
  simp only [md5Pad_eq, List.length_append, List.length_singleton, List.length_replicate,
    leBytes_length]
  omega

/-- Settles O32: the zeros of the padding are the least that fill up to 56 mod 64, so the padded message
is whole blocks. -/
theorem md5PaddingMeetsTheRule : Obligations.Md5PaddingMeetsTheRule := by
  intro m
  obtain ⟨hfill, hleast⟩ := md5Zeros_least m.length
  have hlength := md5Pad_length m
  refine ⟨md5Zeros m.length, md5Pad_eq m, hfill, hleast, ?_, flatten_chunks (by decide) _ _ hlength⟩
  rw [chunks_length, hlength, Nat.mul_div_cancel _ (by decide)]

/-! ### MD5 (R144) -/

/-- A frame keeps the registers outside any list that holds the write set. -/
theorem FrameOf.registersKept_of_subset {i : Instr} {s t : State} (h : FrameOf i s t)
    {changed : List Reg} (hset : ∀ r, writesReg i r = true → r ∈ changed) :
    RegistersKept changed s t :=
  fun r hne hr => h.registers r hne (Bool.eq_false_iff.2 fun hw => hr (hset r hw))

theorem writesReg_md5_false {r : Reg} (h : writesReg (.md5 false) r = true) : r ∈ digestRegs := by
  simpa [writesReg, digestRegs] using h

theorem writesReg_md5_true {r : Reg} (h : writesReg (.md5 true) r = true) :
    r ∈ .keyLen :: digestRegs := by
  simpa [writesReg, digestRegs, or_comm, or_assoc] using h

theorem execMd5_success {toKey : Bool} {s t : State} (ht : exec (.md5 toKey) s = .next t)
    (hfits : s.inLen.toNat ≤ s.cfg.nIn) :
    t.errCode = .success ∧ t.digest = Quad.ofBytes (md5Digest s.inBytes) ∧
    (toKey = false → t.mem = s.mem) ∧
    (toKey = true → t.keyLen = 16 ∧ t.mem = Memory.write s.mem keyBase (md5Digest s.inBytes)) := by
  rcases execMd5_cases ht with ⟨hlong, -⟩ | ⟨-, rfl⟩
  · exact absurd (inTooLong_eq_true.1 hlong) hfits.not_gt
  · cases toKey with
    | false => exact ⟨rfl, rfl, fun _ => rfl, nofun⟩
    | true => exact ⟨rfl, rfl, nofun, fun _ => ⟨rfl, rfl⟩⟩

theorem execMd5_error {toKey : Bool} {s t : State} (ht : exec (.md5 toKey) s = .next t)
    (hlong : s.cfg.nIn < s.inLen.toNat) : t = finish .invalidParameter s := by
  rcases execMd5_cases ht with ⟨-, rfl⟩ | ⟨hfits, -⟩
  · rfl
  · exact absurd hlong (inTooLong_eq_false.1 hfits).not_gt

/-- A digest written to KEYBUF is its bytes 0 to 15, and no other RAM byte changes. -/
theorem ramByte_of_write_digest {s t : State} {m : List Byte}
    (hmem : t.mem = Memory.write s.mem keyBase (md5Digest m)) (hepoch : t.epoch = s.epoch) :
    (∀ k, k < 16 → t.ramByte (keyBase + k) = byteAt (md5Digest m) k) ∧
      RamKeptOutside keyBase 16 s t := by
  have hram := ramByte_of_write hmem hepoch
  simp only [md5Digest_length] at hram
  refine ⟨fun k hk => ?_, fun a ha => by rw [hram, if_neg ha]⟩
  rw [hram, if_pos ⟨Nat.le_add_right .., Nat.add_lt_add_left hk _⟩, Nat.add_sub_cancel_left]

/-- Settles O34: the registers read back the digest's bytes, KEYBUF those written, and all else is the
frame of MD5. -/
theorem md5ReportsTheDigest : Obligations.Md5ReportsTheDigest := by
  refine ⟨decode_encode (.md5 false), decode_encode (.md5 true), fun toKey s => ?_⟩
  obtain ⟨t, ht⟩ := exec_next (.md5 toKey) s
  refine ⟨fun hfits => ?_, fun hlong => ?_⟩
  · have hframe := exec_frameOf ht
    obtain ⟨hcode, hdigest, hkept, hkey⟩ := execMd5_success ht hfits
    refine ⟨t, ht, hcode ▸ exec_completes ht, fun k hk => ?_, hframe.schedValid rfl,
      hframe.periodFound rfl, hframe.keyWords rfl, ?_, ?_⟩
    · rw [hdigest, Quad.byte_ofBytes _ hk, State.inBytes]
    · rintro rfl
      exact ⟨hkept rfl, hframe.registersKept_of_subset fun _ => writesReg_md5_false⟩
    · rintro rfl
      obtain ⟨hkeyLen, hmem⟩ := hkey rfl
      obtain ⟨hbytes, hrest⟩ := ramByte_of_write_digest hmem hframe.epoch
      exact ⟨congrArg BitVec.toNat hkeyLen, hbytes, hrest,
        hframe.registersKept_of_subset fun _ => writesReg_md5_true⟩
  · obtain rfl := execMd5_error ht hlong
    exact ⟨_, ht, onlyReports_finish (by decide) s⟩

end Sys2Proof.Machine

/-! The RC5 key schedule (`42_rc5_key_schedule.md`): the key's bytes and words, the sub-key table, and the
command KEYSCHED. -/

namespace Sys2Proof.Machine

/-! ### The key's bytes (R162) -/

/-- R162: a key byte is KEYBUF's below KEY_LEN, and 0 from there on. -/
theorem byteAt_keyBytes (s : State) {b k : Nat} (hk : k < b) :
    byteAt (s.keyBytes b) k = if k < s.keyLen.toNat then s.ramByte (keyBase + k) else 0 := by
  simp [byteAt, State.keyBytes, hk]

/-! ### The key's words (R163) -/

/-- Zeros after a string do not show: it reads 0 beyond its end anyway. -/
theorem byteAt_append_zeros (bs : List Byte) (z k : Nat) :
    byteAt (bs ++ List.replicate z 0) k = byteAt bs k := by
  rcases Nat.lt_or_ge k bs.length with hk | hk
  · exact List.getD_append _ _ _ _ hk
  · rw [byteAt, byteAt, List.getD_append_right _ _ _ _ hk, List.getD_eq_default _ _ hk]
    exact List.getElem?_getD_replicate_default_eq ..

/-- Bytes read one by one from `off` on are the slice of the string there. -/
theorem map_byteAt_range {bs : List Byte} {off n : Nat} (h : off + n ≤ bs.length) :
    (List.range n).map (fun k => byteAt bs (off + k)) = (bs.drop off).take n := by
  apply List.ext_getElem
  · simp; omega
  · intro k hk _
    have hbs : off + k < bs.length := by simp at hk; omega
    simp [byteAt, hbs]

/-- A key of b bytes fits its c words. -/
theorem length_le_keyWordCount_mul (ws : WordSize) (b : Nat) : b ≤ keyWordCount ws b * ws.bytes := by
  have hpos := ws.bytes_pos
  have hceil : b ≤ (b + (ws.bytes - 1)) / ws.bytes * ws.bytes := by
    have hdiv := Nat.div_add_mod' (b + (ws.bytes - 1)) ws.bytes
    have hmod := Nat.mod_lt (b + (ws.bytes - 1)) hpos
    omega
  exact hceil.trans (Nat.mul_le_mul_right _ (Nat.le_max_right ..))

/-- u bytes make a number that a word holds. -/
theorem toNat_ofNat_leNat (ws : WordSize) {bs : List Byte} (h : bs.length = ws.bytes) :
    (BitVec.ofNat ws.bits (leNat bs)).toNat = leNat bs := by
  rw [BitVec.toNat_ofNat, ← ws.two_pow_bits, ← h, Nat.mod_eq_of_lt (leNat_lt bs)]

theorem toNat_packKey_getD (ws : WordSize) (key : List Byte) {j : Nat}
    (hj : j < keyWordCount ws key.length) :
    ((packKey ws key).getD j 0).toNat =
      leNat ((List.range ws.bytes).map fun k => byteAt key (j * ws.bytes + k)) := by
  rw [← toNat_ofNat_leNat ws (by simp)]
  simp [packKey, hj]

/-- The u bytes of word j are a slice of the key zero-padded to the words' bytes. -/
theorem map_byteAt_eq_slice {u c j : Nat} {key : List Byte} (hkey : key.length ≤ c * u) (hj : j < c) :
    (List.range u).map (fun k => byteAt key (j * u + k)) =
      ((key ++ List.replicate (c * u - key.length) 0).drop (j * u)).take u := by
  have hslice : j * u + u ≤ c * u := by rw [← Nat.succ_mul]; exact Nat.mul_le_mul_right u hj
  rw [← map_byteAt_range (by simp; omega)]
  simp only [byteAt_append_zeros]

theorem packKey_nil (ws : WordSize) : packKey ws [] = [0] := by
  cases ws <;> decide

/-- Settles O36: word j is packed from the bytes that the zero-padded key holds at its place. -/
theorem keyBytesAndWords : Obligations.KeyBytesAndWords := by
  refine ⟨fun s b => ⟨keyBytes_length s b, fun k hk => byteAt_keyBytes s hk⟩, ?_, packKey_nil⟩
  intro ws key c hc
  obtain rfl : c = keyWordCount ws key.length := by
    rw [hc, keyWordCount, Nat.add_sub_assoc ws.bytes_pos]
  have hkey := length_le_keyWordCount_mul ws key.length
  refine ⟨packKey_length ws key, hkey, fun j hj => ?_⟩
  rw [toNat_packKey_getD ws key hj, map_byteAt_eq_slice hkey hj]

/-! ### The sub-key table (R164) -/

/-- R164: the initial table in closed form. -/
theorem toNat_initTable_getD (ws : WordSize) {t i : Nat} (hi : i < t) :
    ((initTable ws t).getD i 0).toNat =
      ((magicP ws).toNat + i * (magicQ ws).toNat) % 2 ^ ws.bits := by
  have hi' : i < (initTable ws t).length := by rwa [initTable_length]
  rw [List.getD_eq_getElem _ _ hi']
  exact ascending_getElem _ _ _ _ hi'

/-- Settles O37: the closed form of the initial table, and a length that the mixing keeps. -/
theorem subkeyTableShape : Obligations.SubkeyTableShape :=
  ⟨fun ws t => ⟨initTable_length ws t, fun _ hi => toNat_initTable_getD ws hi⟩, subkeys_length⟩

/-! ### KEYSCHED (R167) -/

theorem writesReg_keysched {r : Reg} (h : writesReg .keysched r = true) : r ∈ schedRegs := by
  simpa [writesReg, schedRegs] using h

theorem execKeysched_success {s t : State} {p : Rc5Params} (ht : exec .keysched s = .next t)
    (hgood : Rc5Good s p) : t = finish .success (publishSchedule p s) := by
  have hp := rc5Check_some_iff.2 hgood
  rcases execKeysched_cases ht with ⟨hnone, -⟩ | ⟨q, hq, rfl⟩
  · cases hp.symm.trans hnone
  · cases hp.symm.trans hq
    rfl

theorem execKeysched_error {s t : State} (ht : exec .keysched s = .next t) (hbad : Rc5Bad s) :
    t = finish .invalidParameter s := by
  rcases execKeysched_cases ht with ⟨-, rfl⟩ | ⟨p, hp, -⟩
  · rfl
  · cases (rc5Check_none_iff.2 hbad).symm.trans hp

/-- R166: publishing a schedule changes no RAM byte outside the S entries 0 to t-1. -/
theorem ramKeptOutside_publishSchedule (p : Rc5Params) (s : State) :
    RamKeptOutside sBase (8 * tableLen p.r) s (publishSchedule p s) :=
  fun a ha => by rw [publishSchedule_ramByte, if_neg ha]

theorem schedulePublished_publishSchedule {s : State} {p : Rc5Params} (hgood : Rc5Good s p) :
    SchedulePublished p s (publishSchedule p s) :=
  schedulePublished_of (rc5Check_some_iff.2 hgood) (fun _ hk => publishSchedule_entry s p hk) rfl rfl rfl

/-- R161: the check passes or fails. -/
theorem exists_rc5Good {s : State} (h : ¬ Rc5Bad s) : ∃ p, Rc5Good s p := by
  obtain ⟨p, hp⟩ := Option.ne_none_iff_exists'.1 (mt rc5Check_none_iff.1 h)
  exact ⟨p, rc5Check_some_iff.1 hp⟩

/-- Settles O39: the schedule read back from the bytes written, and all else is the frame of
KEYSCHED. -/
theorem keyschedPublishesTheTable : Obligations.KeyschedPublishesTheTable := by
  refine ⟨decode_encode .keysched, fun s => ?_⟩
  obtain ⟨t, ht⟩ := exec_next .keysched s
  refine ⟨fun p hgood => ?_, fun hbad => ?_, exists_rc5Good⟩
  · have hframe := exec_frameOf ht
    obtain rfl := execKeysched_success ht hgood
    exact ⟨_, ht, exec_completes ht, schedulePublished_publishSchedule hgood,
      ramKeptOutside_publishSchedule p s,
      hframe.registersKept_of_subset fun _ => writesReg_keysched, hframe.periodFound rfl⟩
  · obtain rfl := execKeysched_error ht hbad
    exact ⟨_, ht, onlyReports_finish (by decide) s⟩

end Sys2Proof.Machine

/-! The RC5 block core (`43_rc5_block.md`): the block functions and the commands ENC_BLOCK and
DEC_BLOCK. -/

namespace Sys2Proof.Machine

/-! ### The block functions (R182) -/

theorem decryptBlock_encryptBlock {w : Nat} (S : List (BitVec w)) (r : Nat) (x : BitVec w × BitVec w) :
    decryptBlock S r (encryptBlock S r x) = x := by
  simp only [decryptBlock, encryptBlock, decRounds_encRounds, BitVec.add_sub_cancel]

theorem encryptBlock_decryptBlock {w : Nat} (S : List (BitVec w)) (r : Nat) (x : BitVec w × BitVec w) :
    encryptBlock S r (decryptBlock S r x) = x := by
  simp only [decryptBlock, encryptBlock, BitVec.sub_add_cancel, Prod.mk.eta,
    encRounds_decRounds]

/-- Settles O40: the rounds undo one another in the opposite order, and so do the sum and the
difference with S[0] and S[1]. -/
theorem blockDecryptionInvertsEncryption : Obligations.BlockDecryptionInvertsEncryption :=
  fun _ S r x => ⟨decryptBlock_encryptBlock S r x, encryptBlock_decryptBlock S r x⟩

/-! ### The block registers (`10_state.md` R44) -/

theorem WordSize.bits_le (ws : WordSize) : ws.bits ≤ 64 := by cases ws <;> decide

theorem toNat_zeroExtend (ws : WordSize) (x : BitVec ws.bits) : (x.setWidth 64).toNat = x.toNat :=
  BitVec.toNat_setWidth_of_le ws.bits_le

theorem setWidth_zeroExtend (ws : WordSize) (x : BitVec ws.bits) :
    (x.setWidth 64).setWidth ws.bits = x :=
  (BitVec.setWidth_setWidth_of_le x ws.bits_le).trans (BitVec.setWidth_eq x)

theorem block_eq_of_toNat {s : State} {w : Nat} {A B : BitVec w}
    (hA : A.toNat = s.blkA.toNat % 2 ^ w) (hB : B.toNat = s.blkB.toNat % 2 ^ w) :
    s.block w = (A, B) :=
  Prod.ext (BitVec.eq_of_toNat_eq ((BitVec.toNat_setWidth ..).trans hA.symm))
    (BitVec.eq_of_toNat_eq ((BitVec.toNat_setWidth ..).trans hB.symm))

/-! ### What a block command leaves (R183, R184) -/

/-- The state `s` after a block command that succeeded with the block `x`. -/
def blockDone (p : Rc5Params) (x : BitVec p.ws.bits × BitVec p.ws.bits) (s : State) : State :=
  finish .success (writeBlock x (publishSchedule p s))

/-- A block written to the registers is the block they hold. -/
theorem blockDone_block (p : Rc5Params) (x : BitVec p.ws.bits × BitVec p.ws.bits) (s : State) :
    (blockDone p x s).block p.ws.bits = x :=
  Prod.ext (setWidth_zeroExtend p.ws x.1) (setWidth_zeroExtend p.ws x.2)

/-- KEYBUF ends below S, so a block command leaves the operands of the key expansion. -/
theorem sameKeyOperands_blockDone {s : State} {p : Rc5Params} (hgood : Rc5Good s p)
    (x : BitVec p.ws.bits × BitVec p.ws.bits) : SameKeyOperands s (blockDone p x s) := by
  obtain ⟨-, -, hb, -, hb255, -⟩ := hgood
  refine ⟨rfl, rfl, rfl, rfl, fun k hk => ?_⟩
  have houtside : ¬ (sBase ≤ keyBase + k ∧ keyBase + k < sBase + 8 * tableLen p.r) := by
    simp only [sBase, keyBase]
    omega
  exact ramKeptOutside_publishSchedule p s _ houtside

/-- A function on blocks for each word size, given the table and the round count. -/
abbrev BlockFunction : Type :=
  (w : Nat) → List (BitVec w) → Nat → BitVec w × BitVec w → BitVec w × BitVec w

/-- The commands of the block core, each with its block function. -/
inductive RunsBlock : Instr → BlockFunction → Prop
  | enc : RunsBlock .encBlock @encryptBlock
  | dec : RunsBlock .decBlock @decryptBlock

section BlockCommand

variable {i : Instr} {f : BlockFunction}

theorem RunsBlock.mem_of_writesReg (h : RunsBlock i f) {r : Reg} (hr : writesReg i r = true) :
    r ∈ schedRegs ++ blockRegs := by
  cases h <;> simpa [writesReg, schedRegs, blockRegs] using hr

theorem RunsBlock.exec_cases (h : RunsBlock i f) {s t : State} (ht : exec i s = .next t) :
    (s.rc5Check = none ∧ t = finish .invalidParameter s) ∨
    (∃ p, s.rc5Check = some p ∧
      t = blockDone p (f _ (s.table p) p.r (s.block p.ws.bits)) s) := by
  cases h with
  | enc => exact execEncBlock_cases ht
  | dec => exact execDecBlock_cases ht

theorem RunsBlock.exec_success (h : RunsBlock i f) {s t : State} {p : Rc5Params}
    (ht : exec i s = .next t) (hgood : Rc5Good s p) :
    t = blockDone p (f _ (s.table p) p.r (s.block p.ws.bits)) s := by
  have hp := rc5Check_some_iff.2 hgood
  rcases h.exec_cases ht with ⟨hnone, -⟩ | ⟨q, hq, rfl⟩
  · cases hp.symm.trans hnone
  · cases hp.symm.trans hq
    rfl

theorem RunsBlock.exec_error (h : RunsBlock i f) {s t : State} (ht : exec i s = .next t)
    (hbad : Rc5Bad s) : t = finish .invalidParameter s := by
  rcases h.exec_cases ht with ⟨-, rfl⟩ | ⟨p, hp, -⟩
  · rfl
  · cases (rc5Check_none_iff.2 hbad).symm.trans hp

/-- A block command publishes the schedule, replaces the block mod 2^w by its image, and leaves all
else; with bad parameters it only reports. -/
theorem RunsBlock.inPlace (h : RunsBlock i f) (s : State) :
    (∀ p, Rc5Good s p →
      ∃ t, exec i s = .next t ∧ Completes .success s t ∧ SchedulePublished p s t ∧
        (∀ A B : BitVec p.ws.bits, A.toNat = s.blkA.toNat % 2 ^ p.ws.bits →
          B.toNat = s.blkB.toNat % 2 ^ p.ws.bits →
          t.blkA.toNat = (f _ (s.table p) p.r (A, B)).1.toNat ∧
          t.blkB.toNat = (f _ (s.table p) p.r (A, B)).2.toNat) ∧
        RamKeptOutside sBase (8 * tableLen p.r) s t ∧
        RegistersKept (schedRegs ++ blockRegs) s t ∧ t.periodFound = s.periodFound) ∧
    (Rc5Bad s → ∃ t, exec i s = .next t ∧ OnlyReports .invalidParameter s t) := by
  obtain ⟨t, ht⟩ := exec_next i s
  refine ⟨fun p hgood => ?_, fun hbad => ?_⟩
  · have hframe := exec_frameOf ht
    obtain rfl := h.exec_success ht hgood
    refine ⟨_, ht, exec_completes ht, schedulePublished_publishSchedule hgood, fun A B hA hB => ?_,
      ramKeptOutside_publishSchedule p s,
      hframe.registersKept_of_subset fun _ => h.mem_of_writesReg, rfl⟩
    rw [block_eq_of_toNat hA hB]
    exact ⟨toNat_zeroExtend p.ws _, toNat_zeroExtend p.ws _⟩
  · obtain rfl := h.exec_error ht hbad
    exact ⟨_, ht, onlyReports_finish (by decide) s⟩

end BlockCommand

/-- Settles O41: ENC_BLOCK is the block command of the encryption. -/
theorem encBlockEncryptsInPlace : Obligations.EncBlockEncryptsInPlace :=
  ⟨decode_encode .encBlock, RunsBlock.enc.inPlace⟩

/-- Settles O42: DEC_BLOCK is the block command of the decryption. -/
theorem decBlockDecryptsInPlace : Obligations.DecBlockDecryptsInPlace :=
  ⟨decode_encode .decBlock, RunsBlock.dec.inPlace⟩

/-! ### DEC_BLOCK after ENC_BLOCK (R184, corner cases) -/

/-- Settles O43: ENC_BLOCK leaves the operands of the key expansion, so DEC_BLOCK decrypts under the
same table the block that ENC_BLOCK left. -/
theorem decBlockRestoresEncBlock : Obligations.DecBlockRestoresEncBlock := by
  intro s t u p hgood ht hu
  obtain rfl := RunsBlock.enc.exec_success ht hgood
  have hp := rc5Check_some_iff.2 hgood
  have hkey := sameKeyOperands_blockDone hgood (encryptBlock (s.table p) p.r (s.block p.ws.bits))
  have hgood' := rc5Check_some_iff.1 ((rc5Check_congr hkey).trans hp)
  obtain rfl := RunsBlock.dec.exec_success hu hgood'
  rw [table_congr hp hkey, blockDone_block, decryptBlock_encryptBlock]
  exact ⟨rfl, (toNat_zeroExtend p.ws _).trans (BitVec.toNat_setWidth ..),
    (toNat_zeroExtend p.ws _).trans (BitVec.toNat_setWidth ..)⟩

end Sys2Proof.Machine

/-! The CBC-PAD cipher mode (`44_cbc_pad.md`): padding, the chains, the IV, and the commands CBC_ENC and
CBC_DEC. -/

namespace Sys2Proof.Machine

/-! ### Padding (R201, R208) -/

theorem WordSize.blockBytes_lt (ws : WordSize) : ws.blockBytes < 256 := by
  cases ws <;> decide

/-- Without the bytes its last byte counts, a padded message is as long as the message. -/
theorem pad_length_sub_lastByte {bs : Nat} (hpos : 0 < bs) (hlt : bs < 256) (m : List Byte) :
    (pad bs m).length - lastByte (pad bs m) = m.length := by
  rw [lastByte_pad hpos hlt, pad, List.length_append, List.length_replicate, Nat.add_sub_cancel]

theorem length_le_pad (bs : Nat) (m : List Byte) : m.length ≤ (pad bs m).length :=
  (Nat.le_add_right ..).trans (List.length_append ..).ge

theorem take_pad (bs : Nat) (m : List Byte) : (pad bs m).take m.length = m := List.take_left' rfl

/-- Settles O44: the padded message is one block longer than the message's whole blocks, and what is
known of its last byte serves the rest. -/
theorem paddingIsRemovedExactly : Obligations.PaddingIsRemovedExactly := by
  intro ws m
  have hpos := ws.blockBytes_pos
  have hmod := Nat.mod_lt m.length hpos
  refine ⟨rfl, Nat.sub_pos_of_lt hmod, Nat.sub_le .., ?_, ?_, padValid_pad hpos ws.blockBytes_lt m,
    lastByte_pad hpos ws.blockBytes_lt m, ?_⟩
  · rw [pad_length hpos, Nat.mul_mod_left]
  · rw [pad_length hpos]
    exact Nat.le_mul_of_pos_left _ (Nat.succ_pos _)
  · rw [pad_length_sub_lastByte hpos ws.blockBytes_lt, take_pad]

/-- The last `n` bytes of a string, counted from its end. -/
theorem forall_mem_drop_iff {bs : List Byte} {n : Nat} (hn : n ≤ bs.length) {P : Byte → Prop} :
    (∀ b ∈ bs.drop (bs.length - n), P b) ↔ ∀ k, k < n → P (byteAt bs (bs.length - 1 - k)) := by
  have hread {k : Nat} (hk : k < n) :
      (bs.drop (bs.length - n))[n - 1 - k]? = some (byteAt bs (bs.length - 1 - k)) := by
    have hin : bs.length - 1 - k < bs.length := by omega
    have hplace : bs.length - n + (n - 1 - k) = bs.length - 1 - k := by omega
    rw [List.getElem?_drop, hplace, byteAt, List.getD_eq_getElem _ _ hin, List.getElem?_eq_getElem hin]
  refine ⟨fun h k hk => h _ (List.mem_of_getElem? (hread hk)), fun h b hb => ?_⟩
  obtain ⟨j, hj, rfl⟩ := List.getElem_of_mem hb
  have hjn : j < n := by rw [List.length_drop] at hj; omega
  have hback : n - 1 - (n - 1 - j) = j := by omega
  have hget := hread (k := n - 1 - j) (by omega)
  rw [hback, List.getElem?_eq_getElem hj, Option.some_inj] at hget
  rw [hget]
  exact h _ (by omega)

/-- Settles O45: the last p bytes are those at the p places from the end. -/
theorem paddingCheckIsStrict : Obligations.PaddingCheckIsStrict := by
  intro ws pt hlen
  simp only [padValid, Bool.and_eq_true, decide_eq_true_eq, List.all_eq_true, and_assoc]
  refine and_congr_right fun _ => and_congr_right fun hle => ?_
  rw [forall_mem_drop_iff (hle.trans hlen) (P := fun b => b.toNat = lastByte pt)]
  exact forall₂_congr fun k _ => BitVec.toNat_inj

/-! ### The chains (R203, R207) -/

/-- R207, last sentence, for any block function with an inverse. -/
theorem cbcDecrypt_cbcEncrypt {enc dec : List Byte → List Byte} {n : Nat} (hn : 0 < n)
    (henc : ∀ x, (enc x).length = n) (hinv : ∀ x, x.length = n → dec (enc x) = x) {iv pt : List Byte}
    (hiv : iv.length = n) (hpt : pt.length % n = 0) :
    cbcRecoverIv dec n (cbcEncrypt enc n pt iv) = iv ∧
      cbcDecrypt dec n (cbcEncrypt enc n pt iv) = pt := by
  have hrecover : cbcRecoverIv dec n (cbcEncrypt enc n pt iv) = iv := by
    rw [cbcRecoverIv, blockAt_cbcEncrypt henc, hinv iv hiv]
  refine ⟨hrecover, ?_⟩
  rw [cbcDecrypt, hrecover, cbcEncrypt, chunks_append hn (henc iv), List.tail_cons,
    cbcDecChain_cbcEncChain hn henc hinv iv hiv _ (fun _ => length_of_mem_chunks),
    flatten_chunks hn (pt.length / n) pt (Nat.div_mul_cancel (Nat.dvd_of_mod_eq_zero hpt)).symm]

/-- Settles O46: the block functions on bytes are inverse to one another. -/
theorem cbcDecryptInvertsCbcEncrypt : Obligations.CbcDecryptInvertsCbcEncrypt :=
  fun ws r S _ _ hiv hpt => cbcDecrypt_cbcEncrypt ws.blockBytes_pos (encBytes_length ws r S)
    (fun _ => decBytes_encBytes ws r S) hiv hpt

/-! ### The IV (R202) -/

/-- Settles O47: the low byte of value k of the sequence. -/
theorem ivIsTheLowBytesOfTheLcg : Obligations.IvIsTheLowBytesOfTheLcg := by
  refine fun p ws hvalid => ⟨ivBytes_length p _, fun k hk => ?_⟩
  have hiv : k < (ivBytes p ws.blockBytes).length := by rwa [ivBytes_length]
  rw [byteAt, List.getD_eq_getElem _ _ hiv]
  simp only [ivBytes, List.getElem_map, BitVec.toNat_setWidth, lcgSeq_getElem hvalid]

/-! ### What a CBC command leaves (R204, R209) -/

/-- The state `s` after a CBC command that ended in `k` having published the schedule and written `out`
to OUT_BUF, `n` to OUT_LEN and `iv` to the IV registers. -/
def cbcDone (k : ErrCode) (p : Rc5Params) (out : List Byte) (n : Nat) (iv : List Byte) (s : State) :
    State :=
  finish k { (publishSchedule p s).store outBase out with
             outLen := BitVec.ofNat 32 n
             iv := Quad.ofBytes iv }

/-- R45: the IV registers hold the IV's bytes, and 0 beyond them. -/
theorem quad_byte_ofBytes_iv {ws : WordSize} {iv : List Byte} (hiv : iv.length = ws.blockBytes)
    {k : Nat} (hk : k < 16) :
    (Quad.ofBytes iv).byte k = if k < ws.blockBytes then byteAt iv k else 0 := by
  rw [Quad.byte_ofBytes iv hk]
  split
  · rfl
  next hout => exact List.getD_eq_default _ _ (hiv.trans_le (Nat.le_of_not_lt hout))

/-- The schedule, the output and the IV that a CBC command wrote, and the RAM bytes it left. -/
theorem cbcDone_effect {s : State} {p : Rc5Params} (hgood : Rc5Good s p) (k : ErrCode)
    (out : List Byte) (n : Nat) {iv : List Byte} (hiv : iv.length = p.ws.blockBytes) :
    SchedulePublished p s (cbcDone k p out n iv s) ∧
    (cbcDone k p out n iv s).ramBytes outBase out.length = out ∧
    (∀ j, j < 16 →
      (cbcDone k p out n iv s).iv.byte j = if j < p.ws.blockBytes then byteAt iv j else 0) ∧
    (∀ a, ¬ (sBase ≤ a ∧ a < sBase + 8 * tableLen p.r) →
      ¬ (outBase ≤ a ∧ a < outBase + out.length) →
      (cbcDone k p out n iv s).ramByte a = s.ramByte a) := by
  have hp := rc5Check_some_iff.2 hgood
  obtain ⟨-, -, -, hr, -⟩ := hgood
  obtain ⟨hsched, hout, hrest⟩ :=
    out_after_schedule (s := s) (t := cbcDone k p out n iv s) (p := p) (out := out) rfl rfl hr
  exact ⟨schedulePublished_of hp hsched rfl rfl rfl, hout, fun j hj => quad_byte_ofBytes_iv hiv hj,
    hrest⟩

/-- A length that OUT_BUF holds fits OUT_LEN. -/
theorem toNat_cbcDone_outLen {k : ErrCode} {p : Rc5Params} {out : List Byte} {n : Nat}
    {iv : List Byte} {s : State} (hn : n ≤ s.cfg.nOut) : (cbcDone k p out n iv s).outLen.toNat = n := by
  have hcap := (nIn_bounds s.cfg).2.1
  rw [nOut_eq] at hn
  exact (BitVec.toNat_ofNat ..).trans (Nat.mod_eq_of_lt (by omega))

theorem writesReg_cbc {i : Instr} (hi : i = .cbcEnc ∨ i = .cbcDec) {r : Reg}
    (h : writesReg i r = true) : r ∈ .outLen :: schedRegs ++ ivRegs := by
  rcases hi with rfl | rfl <;> revert h <;> cases r <;> decide

/-! ### CBC_ENC (R204, R205) -/

theorem execCbcEnc_success {s t : State} {p : Rc5Params} (ht : exec .cbcEnc s = .next t)
    (hgood : Rc5Good s p) (hfits : s.inLen.toNat ≤ s.cfg.nIn) (hvalid : ¬ LcgBad s.ivp) :
    t = cbcDone .success p (s.envelope p) (s.envelope p).length (ivBytes s.ivp p.ws.blockBytes) s := by
  have hp := rc5Check_some_iff.2 hgood
  rcases execCbcEnc_cases ht with ⟨hnone | hlong | hbad, -⟩ | ⟨q, hq, -, -, rfl⟩
  · cases hp.symm.trans hnone
  · exact absurd (inTooLong_eq_true.1 hlong) hfits.not_gt
  · exact absurd (lcgValid_eq_false.1 hbad) hvalid
  · cases hp.symm.trans hq
    rfl

theorem execCbcEnc_error {s t : State} (ht : exec .cbcEnc s = .next t)
    (hbad : Rc5Bad s ∨ s.cfg.nIn < s.inLen.toNat ∨ LcgBad s.ivp) : t = finish .invalidParameter s := by
  rcases execCbcEnc_cases ht with ⟨-, rfl⟩ | ⟨p, hp, hin, hvalid, -⟩
  · rfl
  · rcases hbad with hbad | hlong | hbad
    · cases (rc5Check_none_iff.2 hbad).symm.trans hp
    · exact absurd hlong (inTooLong_eq_false.1 hin).not_gt
    · exact absurd hbad (lcgValid_eq_true.1 hvalid)

/-- R205: the envelope's length fits OUT_LEN. -/
theorem toNat_outLen_envelope {s : State} (hfits : s.inLen.toNat ≤ s.cfg.nIn) (p : Rc5Params)
    (iv : List Byte) :
    (cbcDone .success p (s.envelope p) (s.envelope p).length iv s).outLen.toNat =
      (s.envelope p).length :=
  toNat_cbcDone_outLen (envelope_fits (inTooLong_eq_false.2 hfits) p)

/-- A CBC_ENC that reports success passed its checks. -/
theorem checks_of_execCbcEnc_success {s t : State} (ht : exec .cbcEnc s = .next t)
    (hcode : t.errCode = .success) :
    ¬ Rc5Bad s ∧ s.inLen.toNat ≤ s.cfg.nIn ∧ ¬ LcgBad s.ivp := by
  by_contra hfail
  have hbad : Rc5Bad s ∨ s.cfg.nIn < s.inLen.toNat ∨ LcgBad s.ivp := by
    simpa only [not_and_or, not_not, not_le] using hfail
  rw [execCbcEnc_error ht hbad] at hcode
  cases hcode

/-- Settles O48: the envelope, the schedule and the IV read back as written, and all else is the frame
of CBC_ENC. -/
theorem cbcEncWritesTheEnvelope : Obligations.CbcEncWritesTheEnvelope := by
  refine ⟨decode_encode .cbcEnc, fun s => ?_⟩
  obtain ⟨t, ht⟩ := exec_next .cbcEnc s
  refine ⟨fun p hgood hfits hvalid => ?_, fun hbad => ?_⟩
  · have hframe := exec_frameOf ht
    obtain rfl := execCbcEnc_success ht hgood hfits hvalid
    obtain ⟨hsched, hout, hiv, hrest⟩ := cbcDone_effect hgood .success (s.envelope p)
      (s.envelope p).length (ivBytes_length s.ivp p.ws.blockBytes)
    exact ⟨_, s.envelope p, _, ht, exec_completes ht, hsched, rfl, rfl,
      toNat_outLen_envelope hfits p _, hout, hiv, hrest,
      hframe.registersKept_of_subset fun _ => writesReg_cbc (.inl rfl), hframe.periodFound rfl⟩
  · obtain rfl := execCbcEnc_error ht hbad
    exact ⟨_, ht, onlyReports_finish (by decide) s⟩

/-- Settles O49: the blocks that hold IN_LEN + 1 bytes are one more than the whole blocks of IN_LEN. -/
theorem ciphertextLength : Obligations.CiphertextLength := by
  intro s t p hgood ht hcode
  obtain ⟨-, hfits, hvalid⟩ := checks_of_execCbcEnc_success ht hcode
  have hpos := p.ws.blockBytes_pos
  have hceil : s.inLen.toNat + 1 + (p.ws.blockBytes - 1) = s.inLen.toNat + p.ws.blockBytes := by omega
  obtain rfl := execCbcEnc_success ht hgood hfits hvalid
  rw [toNat_outLen_envelope hfits]
  refine ⟨?_, envelope_fits (inTooLong_eq_false.2 hfits) p⟩
  rw [envelope_length, hceil, Nat.add_div_right _ hpos, Nat.mul_add, Nat.mul_one, Nat.mul_comm]

/-! ### CBC_DEC (R206, R209) -/

/-- R206: the condition of DecodingError fails for two or more whole blocks. -/
theorem not_envelopeLength_bad {n bs : Nat} (hmod : n % bs = 0) (hmin : 2 * bs ≤ n) :
    ¬ (n % bs ≠ 0 ∨ n < 2 * bs) :=
  not_or.2 ⟨not_not.2 hmod, hmin.not_gt⟩

/-- Once the parameters and the input's length have passed, what CBC_DEC leaves turns on the envelope's
length (R206) and on the padding (R208). -/
theorem execCbcDec_checked {s t : State} {p : Rc5Params} (ht : exec .cbcDec s = .next t)
    (hgood : Rc5Good s p) (hfits : s.inLen.toNat ≤ s.cfg.nIn) :
    ((s.inLen.toNat % p.ws.blockBytes ≠ 0 ∨ s.inLen.toNat < 2 * p.ws.blockBytes) ∧
      t = finish .decodingError s) ∨
    ((s.inLen.toNat % p.ws.blockBytes = 0 ∧ 2 * p.ws.blockBytes ≤ s.inLen.toNat) ∧
      ((padValid p.ws.blockBytes (s.recoveredText p) = true ∧
          t = cbcDone .success p (s.recoveredText p)
            ((s.recoveredText p).length - lastByte (s.recoveredText p)) (s.recoveredIv p) s) ∨
        (padValid p.ws.blockBytes (s.recoveredText p) = false ∧
          t = { cbcDone .paddingError p (drawBytes s.draws (s.recoveredText p).length) 0
            (s.recoveredIv p) s with draws := s.draws + 1 }))) := by
  have hp := rc5Check_some_iff.2 hgood
  rcases execCbcDec_cases ht with ⟨hnone | hlong, -⟩ | ⟨q, hq, -, hrest⟩
  · cases hp.symm.trans hnone
  · exact absurd (inTooLong_eq_true.1 hlong) hfits.not_gt
  · cases hp.symm.trans hq
    rw [and_assoc]
    exact hrest

theorem execCbcDec_success {s t : State} {p : Rc5Params} (ht : exec .cbcDec s = .next t)
    (hgood : Rc5Good s p) (hfits : s.inLen.toNat ≤ s.cfg.nIn)
    (hmod : s.inLen.toNat % p.ws.blockBytes = 0) (hmin : 2 * p.ws.blockBytes ≤ s.inLen.toNat)
    (hpad : padValid p.ws.blockBytes (s.recoveredText p) = true) :
    t = cbcDone .success p (s.recoveredText p)
      ((s.recoveredText p).length - lastByte (s.recoveredText p)) (s.recoveredIv p) s := by
  rcases execCbcDec_checked ht hgood hfits with ⟨hlen, -⟩ | ⟨-, ⟨-, h⟩ | ⟨hinvalid, -⟩⟩
  · exact absurd hlen (not_envelopeLength_bad hmod hmin)
  · exact h
  · cases hpad.symm.trans hinvalid

theorem execCbcDec_paddingError {s t : State} {p : Rc5Params} (ht : exec .cbcDec s = .next t)
    (hgood : Rc5Good s p) (hfits : s.inLen.toNat ≤ s.cfg.nIn)
    (hmod : s.inLen.toNat % p.ws.blockBytes = 0) (hmin : 2 * p.ws.blockBytes ≤ s.inLen.toNat)
    (hpad : padValid p.ws.blockBytes (s.recoveredText p) = false) :
    t = { cbcDone .paddingError p (drawBytes s.draws (s.recoveredText p).length) 0
      (s.recoveredIv p) s with draws := s.draws + 1 } := by
  rcases execCbcDec_checked ht hgood hfits with ⟨hlen, -⟩ | ⟨-, ⟨hvalid, -⟩ | ⟨-, h⟩⟩
  · exact absurd hlen (not_envelopeLength_bad hmod hmin)
  · cases hpad.symm.trans hvalid
  · exact h

theorem recoveredIv_length (s : State) (p : Rc5Params) :
    (s.recoveredIv p).length = p.ws.blockBytes := decBytes_length ..

/-- Settles O50: the padded plaintext, the schedule and the IV read back as written, and all else is the
frame of CBC_DEC. -/
theorem cbcDecRemovesThePadding : Obligations.CbcDecRemovesThePadding := by
  rintro s p _ _ hgood hfits hmod hmin rfl rfl hpad
  obtain ⟨t, ht⟩ := exec_next .cbcDec s
  have hframe := exec_frameOf ht
  obtain rfl := execCbcDec_success ht hgood hfits hmod hmin hpad
  obtain ⟨hsched, hout, hiv, hrest⟩ := cbcDone_effect hgood .success (s.recoveredText p)
    ((s.recoveredText p).length - lastByte (s.recoveredText p)) (recoveredIv_length s p)
  exact ⟨_, ht, exec_completes ht, hsched, recoveredText_length hmod,
    toNat_cbcDone_outLen
      ((Nat.sub_le ..).trans (recoveredText_fits (inTooLong_eq_false.2 hfits) hmod)),
    hout, hiv, hrest, hframe.registersKept_of_subset fun _ => writesReg_cbc (.inr rfl),
    hframe.periodFound rfl⟩

/-- Settles O51: as on success, with drawn bytes in OUT_BUF and OUT_LEN = 0; the count of draws shows in
nothing that is said. -/
theorem cbcDecReportsPaddingError : Obligations.CbcDecReportsPaddingError := by
  rintro s p _ _ hgood hfits hmod hmin rfl rfl hpad
  obtain ⟨t, ht⟩ := exec_next .cbcDec s
  have hframe := exec_frameOf ht
  obtain rfl := execCbcDec_paddingError ht hgood hfits hmod hmin hpad
  obtain ⟨hsched, -, hiv, hrest⟩ := cbcDone_effect hgood .paddingError
    (drawBytes s.draws (s.recoveredText p).length) 0 (recoveredIv_length s p)
  rw [(drawBytes_length ..).trans (recoveredText_length hmod)] at hrest
  exact ⟨_, ht, exec_completes ht, hsched, rfl, hiv, hrest,
    hframe.registersKept_of_subset fun _ => writesReg_cbc (.inr rfl), hframe.periodFound rfl⟩

/-- Settles O52: the envelope's length is checked before any write. -/
theorem cbcDecReportsDecodingError : Obligations.CbcDecReportsDecodingError := by
  intro s p hgood hfits hlen
  obtain ⟨t, ht⟩ := exec_next .cbcDec s
  rcases execCbcDec_checked ht hgood hfits with ⟨-, rfl⟩ | ⟨⟨hmod, hmin⟩, -⟩
  · exact ⟨_, ht, onlyReports_finish (by decide) s⟩
  · exact absurd hlen (not_envelopeLength_bad hmod hmin)

/-! ### CBC_DEC after CBC_ENC (`95_test_vectors.md` SRC9) -/

/-- An envelope has a length that CBC_DEC takes (R206). -/
theorem envelope_length_bounds (s : State) (p : Rc5Params) :
    (s.envelope p).length % p.ws.blockBytes = 0 ∧ 2 * p.ws.blockBytes ≤ (s.envelope p).length := by
  rw [envelope_length, Nat.two_mul]
  exact ⟨by rw [Nat.add_mul_mod_self_right, Nat.mod_self],
    Nat.add_le_add_left (Nat.le_mul_of_pos_left _ (Nat.succ_pos _)) _⟩

/-- A core whose input is the envelope of `s`, under the same key, recovers the IV and the padded
message of `s`. -/
theorem recovered_of_envelope {s s' : State} {p : Rc5Params} (htable : s'.table p = s.table p)
    (hin : s'.inBytes = s.envelope p) :
    s'.recoveredIv p = ivBytes s.ivp p.ws.blockBytes ∧
      s'.recoveredText p = pad p.ws.blockBytes s.inBytes := by
  have hpos := p.ws.blockBytes_pos
  rw [State.recoveredIv, State.recoveredText, htable, hin]
  exact cbcDecrypt_cbcEncrypt hpos (encBytes_length p.ws p.r _) (fun _ => decBytes_encBytes p.ws p.r _)
    (ivBytes_length ..) (by rw [pad_length hpos, Nat.mul_mod_left])

@[simp] theorem inBytes_length (s : State) : s.inBytes.length = s.inLen.toNat := ramBytes_length ..

/-- CBC_DEC of the envelope of `s`, under the same key, takes the padding off the message of `s`. -/
theorem execCbcDec_envelope {s s' t' : State} {p : Rc5Params} (ht' : exec .cbcDec s' = .next t')
    (hgood' : Rc5Good s' p) (hfits' : s'.inLen.toNat ≤ s'.cfg.nIn) (htable : s'.table p = s.table p)
    (hin : s'.inBytes = s.envelope p) :
    t' = cbcDone .success p (pad p.ws.blockBytes s.inBytes) s.inLen.toNat
      (ivBytes s.ivp p.ws.blockBytes) s' := by
  obtain ⟨hmod, hmin⟩ := envelope_length_bounds s p
  obtain ⟨hiv, htext⟩ := recovered_of_envelope htable hin
  have hpos := p.ws.blockBytes_pos
  have hlt := p.ws.blockBytes_lt
  rw [← hin, inBytes_length] at hmod hmin
  rw [execCbcDec_success ht' hgood' hfits' hmod hmin (by rw [htext, padValid_pad hpos hlt]), hiv, htext,
    pad_length_sub_lastByte hpos hlt, inBytes_length]

/-- The start of a string in RAM. -/
theorem take_ramBytes (s : State) (base : Nat) {m n : Nat} (h : m ≤ n) :
    (s.ramBytes base n).take m = s.ramBytes base m :=
  ramBytes_slice s base n 0 m (by omega)

/-- A padded message in OUT_BUF starts with the message. -/
theorem ramBytes_of_pad {s : State} {base bs : Nat} {m : List Byte}
    (h : s.ramBytes base (pad bs m).length = pad bs m) : s.ramBytes base m.length = m := by
  rw [← take_ramBytes s base (length_le_pad bs m), h, take_pad]

/-- Settles O53: the second core has the table of the first and its envelope as input, so CBC_DEC leaves
the message and the IV that CBC_ENC encrypted. -/
theorem cbcDecRecoversTheMessage : Obligations.CbcDecRecoversTheMessage := by
  intro s t s' t' ht hcode hkey _ hlen hcap hbytes ht'
  obtain ⟨hparams, hfits, hvalid⟩ := checks_of_execCbcEnc_success ht hcode
  obtain ⟨p, hgood⟩ := exists_rc5Good hparams
  have hp := rc5Check_some_iff.2 hgood
  have hgood' := rc5Check_some_iff.1 ((rc5Check_congr hkey).trans hp)
  obtain rfl := execCbcEnc_success ht hgood hfits hvalid
  obtain ⟨-, hout, -, -⟩ := cbcDone_effect hgood .success (s.envelope p) (s.envelope p).length
    (ivBytes_length s.ivp p.ws.blockBytes)
  have hin : s'.inBytes = s.envelope p := by
    rw [State.inBytes, hlen, hbytes, toNat_outLen_envelope hfits, hout]
  obtain rfl := execCbcDec_envelope ht' hgood' (hlen ▸ hcap) (table_congr hp hkey) hin
  obtain ⟨-, hout', -, -⟩ := cbcDone_effect hgood' .success (pad p.ws.blockBytes s.inBytes)
    s.inLen.toNat (ivBytes_length s.ivp p.ws.blockBytes)
  have hmsg := ramBytes_of_pad hout'
  rw [inBytes_length] at hmsg
  exact ⟨rfl, (BitVec.ofNat_toNat ..).trans (BitVec.setWidth_eq _), hmsg, rfl⟩

end Sys2Proof.Machine

/-! Exceptions (`60_exceptions.md`): the error a command reports, and the interrupt output. -/

namespace Sys2Proof.Machine

/-! ### Precise errors (R242) -/

/-- Every command but CBC_DEC ends in success or in InvalidParameter. -/
theorem exec_errCode_of_ne_cbcDec {i : Instr} {s t : State} (ht : exec i s = .next t)
    (hi : i ≠ .cbcDec) : t.errCode = .success ∨ t.errCode = .invalidParameter := by
  cases i with
  | lcgGen =>
    rcases execLcgGen_cases ht with ⟨-, rfl⟩ | ⟨-, -, rfl⟩
    exacts [.inr rfl, .inl rfl]
  | lcgPeriod src =>
    rcases execLcgPeriod_cases ht with ⟨-, rfl⟩ | ⟨-, -, ⟨d, -, rfl⟩ | ⟨-, rfl⟩⟩
    exacts [.inr rfl, .inl rfl, .inl rfl]
  | md5 toKey =>
    rcases execMd5_cases ht with ⟨-, rfl⟩ | ⟨-, rfl⟩
    exacts [.inr rfl, .inl rfl]
  | keysched =>
    rcases execKeysched_cases ht with ⟨-, rfl⟩ | ⟨p, -, rfl⟩
    exacts [.inr rfl, .inl rfl]
  | encBlock =>
    rcases RunsBlock.enc.exec_cases ht with ⟨-, rfl⟩ | ⟨p, -, rfl⟩
    exacts [.inr rfl, .inl rfl]
  | decBlock =>
    rcases RunsBlock.dec.exec_cases ht with ⟨-, rfl⟩ | ⟨p, -, rfl⟩
    exacts [.inr rfl, .inl rfl]
  | cbcEnc =>
    rcases execCbcEnc_cases ht with ⟨-, rfl⟩ | ⟨p, -, -, -, rfl⟩
    exacts [.inr rfl, .inl rfl]
  | cbcDec => exact absurd rfl hi

/-- Settles O24: an error found before the first write only reports, and PaddingError is neither of
the results that the commands besides CBC_DEC have. -/
theorem errorsArePrecise : Obligations.ErrorsArePrecise := by
  refine fun i s t ht => ⟨exec_onlyReports ht, fun hpad => ?_⟩
  by_contra hi
  rcases exec_errCode_of_ne_cbcDec ht hi with h | h <;> cases hpad.symm.trans h

/-! ### The first failing check (R240, R243) -/

theorem execLcgPeriod_errCode {src : SeqSource} {s t : State}
    (ht : exec (.lcgPeriod src) s = .next t) :
    t.errCode = if (src = .inBuf ∧ s.cfg.nIn < s.seqLen src) ∨ s.seqLen src % 8 ≠ 0 then
      .invalidParameter else .success := by
  split
  next h => rw [execLcgPeriod_error ht h, finish_errCode]
  next h =>
    obtain ⟨hfits, hmod⟩ := not_or.1 h
    exact (execLcgPeriod_success ht (fun hsrc => Nat.le_of_not_lt fun hlt => hfits ⟨hsrc, hlt⟩)
      (not_not.1 hmod)).1

theorem execMd5_errCode {toKey : Bool} {s t : State} (ht : exec (.md5 toKey) s = .next t) :
    t.errCode = if s.cfg.nIn < s.inLen.toNat then .invalidParameter else .success := by
  split
  next h => rw [execMd5_error ht h, finish_errCode]
  next h => exact (execMd5_success ht (Nat.le_of_not_lt h)).1

theorem execKeysched_errCode {s t : State} (ht : exec .keysched s = .next t) :
    (Rc5Bad s → t.errCode = .invalidParameter) ∧ (¬ Rc5Bad s → t.errCode = .success) := by
  refine ⟨fun hbad => congrArg State.errCode (execKeysched_error ht hbad), fun hparams => ?_⟩
  obtain ⟨p, hgood⟩ := exists_rc5Good hparams
  exact congrArg State.errCode (execKeysched_success ht hgood)

theorem RunsBlock.errCode {i : Instr} {f : BlockFunction} (h : RunsBlock i f) {s t : State}
    (ht : exec i s = .next t) :
    (Rc5Bad s → t.errCode = .invalidParameter) ∧ (¬ Rc5Bad s → t.errCode = .success) := by
  refine ⟨fun hbad => congrArg State.errCode (h.exec_error ht hbad), fun hparams => ?_⟩
  obtain ⟨p, hgood⟩ := exists_rc5Good hparams
  exact congrArg State.errCode (h.exec_success ht hgood)

theorem execCbcDec_invalidParameter {s t : State} (ht : exec .cbcDec s = .next t)
    (hbad : Rc5Bad s ∨ s.cfg.nIn < s.inLen.toNat) : t = finish .invalidParameter s := by
  rcases execCbcDec_cases ht with ⟨-, rfl⟩ | ⟨p, hp, hin, -⟩
  · rfl
  · rcases hbad with hbad | hlong
    · cases (rc5Check_none_iff.2 hbad).symm.trans hp
    · exact absurd hlong (inTooLong_eq_false.1 hin).not_gt

/-- Past the checks for InvalidParameter, CBC_DEC checks the envelope's length, then the padding. -/
theorem execCbcDec_errCode {s t : State} {p : Rc5Params} (ht : exec .cbcDec s = .next t)
    (hgood : Rc5Good s p) (hfits : s.inLen.toNat ≤ s.cfg.nIn) :
    t.errCode =
      if s.inLen.toNat % p.ws.blockBytes ≠ 0 ∨ s.inLen.toNat < 2 * p.ws.blockBytes then
        .decodingError
      else if padValid p.ws.blockBytes (s.recoveredText p) = false then .paddingError
      else .success := by
  rcases execCbcDec_checked ht hgood hfits with
    ⟨hlen, rfl⟩ | ⟨⟨hmod, hmin⟩, ⟨hvalid, rfl⟩ | ⟨hinvalid, rfl⟩⟩
  · exact (if_pos hlen).symm
  · rw [if_neg (not_envelopeLength_bad hmod hmin), if_neg (by rw [hvalid]; decide)]
    rfl
  · rw [if_neg (not_envelopeLength_bad hmod hmin), if_pos hinvalid]
    rfl

/-- Settles O25: each command's code is read off what it leaves where a check fails and where all
pass. -/
theorem oneErrorInFixedOrder : Obligations.OneErrorInFixedOrder := by
  intro i s t ht
  refine ⟨?_, ?_, ?_, ?_, ?_, ?_, ?_⟩
  · rintro rfl
    exact ⟨fun hbad => congrArg State.errCode (execLcgGen_error ht hbad),
      fun hvalid hfits => (execLcgGen_success ht hvalid hfits).1⟩
  · rintro rfl
    simpa [State.seqLen] using execLcgPeriod_errCode ht
  · rintro rfl
    simpa [State.seqLen] using execLcgPeriod_errCode ht
  · rintro toKey rfl
    exact execMd5_errCode ht
  · rintro (rfl | rfl | rfl)
    · exact execKeysched_errCode ht
    · exact RunsBlock.enc.errCode ht
    · exact RunsBlock.dec.errCode ht
  · rintro rfl
    refine ⟨fun hbad => congrArg State.errCode (execCbcEnc_error ht hbad),
      fun hparams hfits hvalid => ?_⟩
    obtain ⟨p, hgood⟩ := exists_rc5Good hparams
    exact congrArg State.errCode (execCbcEnc_success ht hgood hfits hvalid)
  · rintro rfl
    exact ⟨fun hbad => congrArg State.errCode (execCbcDec_invalidParameter ht hbad),
      fun p hgood hfits => execCbcDec_errCode ht hgood hfits⟩

/-! ### The interrupt output (R244, R245) -/

theorem Completes.irq {k : ErrCode} {s t : State} (h : Completes k s t) : t.irq = s.ie := by
  rw [State.irq, h.done, h.ie, Bool.true_and]

/-- The engine's turn never deasserts IRQ. -/
theorem engineTurn_irq {s t : State} (h : engineTurn s = .next t) (hirq : s.irq = true) :
    t.irq = true := by
  obtain ⟨-, hie⟩ := Bool.and_eq_true_iff.1 hirq
  rcases engineTurn_cases h with ⟨-, rfl⟩ | ⟨v, i, -, -, hexec⟩ | ⟨v, e, -, -, rfl⟩
  · exact hirq
  · exact (exec_completes hexec).irq.trans hie
  · exact hie

/-- No two offsets hold the same register (`10_state.md` R20). -/
theorem regMap_offset_unique {off off' : Offset} {r : Reg} (h : (off.toNat, r) ∈ regMap)
    (h' : (off'.toNat, r) ∈ regMap) : off = off' := by
  have hunique : ∀ e ∈ regMap, ∀ e' ∈ regMap, e.2 = e'.2 → e.1 = e'.1 := by decide
  exact BitVec.eq_of_toNat_eq (hunique _ h _ h' rfl)

/-- The writes that may deassert IRQ: one of STATUS that clears DONE, any of CMD, and one of CTRL
that clears IE or performs a soft reset (R244, R245). -/
def DeassertsIrq (off : Offset) (v : Word) : Prop :=
  off = 0x004#16 ∧ v.getLsbD 1 = true ∨ off = 0x00C#16 ∨
    off = 0x008#16 ∧ (v.getLsbD 0 = false ∨ v.getLsbD 1 = true)

theorem writeReg_deassertsIrq {s : State} {off : Offset} {r : Reg} {v : Word}
    (hmap : (off.toNat, r) ∈ regMap) (hirq : s.irq = true) (hclear : (writeReg s r v).irq = false) :
    DeassertsIrq off v := by
  obtain ⟨hdone, hie⟩ := Bool.and_eq_true_iff.1 hirq
  cases r
  case status =>
    obtain rfl := regMap_offset_unique (off' := 0x004#16) hmap (by decide)
    have hack : ((s.done && !v.getLsbD 1) && s.ie) = false := hclear
    rw [hdone, hie, Bool.true_and, Bool.and_true, Bool.not_eq_false'] at hack
    exact .inl ⟨rfl, hack⟩
  case cmd => exact .inr (.inl (regMap_offset_unique hmap (by decide)))
  case ctrl =>
    obtain rfl := regMap_offset_unique (off' := 0x008#16) hmap (by decide)
    refine .inr (.inr ⟨rfl, ?_⟩)
    cases hbit : v.getLsbD 1 with
    | true => exact .inr rfl
    | false =>
      rw [writeReg, writeCtrl_ie s hbit, State.irq, hdone] at hclear
      exact .inl hclear
  all_goals cases hirq.symm.trans hclear

/-- A host access that deasserts IRQ is one of the writes of `DeassertsIrq`: no other reaches DONE
or IE. -/
theorem hostAccess_deassertsIrq {s : State} {a : Access} (hirq : s.irq = true)
    (hclear : (hostAccess a s).irq = false) :
    ∃ off v, a = .write .bits32 off v ∧ DeassertsIrq off v := by
  rcases hostAccess_cases a s with
    e | ⟨off, -, e⟩ | ⟨v, ha, e⟩ | ⟨-, e⟩ | ⟨off, v, ha, -, -, halign, e⟩ <;> rw [e] at hclear
  · cases hirq.symm.trans hclear
  · cases hirq.symm.trans hclear
  · exact ⟨_, v, ha, writeReg_deassertsIrq (r := .ctrl) (by decide) hirq hclear⟩
  · cases hirq.symm.trans hclear
  · have hword : (writeWord off.toNat v s).irq = false := hclear
    rcases writeWord_cases s halign v with ⟨r, hmap, e'⟩ | ⟨bs, e', -⟩ | e' <;> rw [e'] at hword
    · exact ⟨off, v, ha, writeReg_deassertsIrq hmap hirq hword⟩
    · cases hirq.symm.trans hword
    · cases hirq.symm.trans hword

/-- Settles O26: a completion sets DONE and keeps IE, and of the events of a step the engine's turn
keeps IRQ asserted. -/
theorem interruptHoldsUntilCleared : Obligations.InterruptHoldsUntilCleared := by
  refine ⟨fun s v rest hflight => ?_, fun s t hirq h hclear => ?_⟩
  · obtain ⟨t, ht, hcomp, -⟩ := everyCommandCompletes s v rest hflight
    exact ⟨t, ht, hcomp.irq⟩
  · rcases step_cases h with ⟨rest, -, hturn⟩ | ⟨a, rest, hscript, rfl⟩ | ⟨rest, hscript, -⟩
    · cases hclear.symm.trans (engineTurn_irq hturn hirq)
    · obtain ⟨off, v, rfl, hwrite⟩ :=
        hostAccess_deassertsIrq (s := { s with script := rest }) hirq hclear
      exact ⟨rest, .inr ⟨off, v, hscript, hwrite⟩⟩
    · exact ⟨rest, .inl hscript⟩

end Sys2Proof.Machine

/-! Resets and hazards (`70_reset_and_hazards.md`): the state a reset leaves and the commands issued
there, and the host's accesses while a command is in flight. -/

namespace Sys2Proof.Machine

/-! ### The state a reset leaves (R280, R282, R283) -/

/-- Settles O59: it is the state every reset leaves, but for the count of resets, of which the
invariant speaks only where SCHED_VALID = 1. -/
theorem resetMeetsTheInvariant : Obligations.ResetMeetsTheInvariant :=
  { resetCore_inv State.reset with schedule := nofun }

/-- Settles O6: the step is `resetCore`, and the engine's turn finds no command in flight. -/
theorem hardResetRestoresTheCore : Obligations.HardResetRestoresTheCore := by
  intro s rest
  refine ⟨_, step_hardReset s rest, readReg_resetCore { s with script := rest }, rfl, rfl,
    fun _ => rfl, ?_⟩
  rw [step_completion, engineTurn_none rfl]

/-- Settles O7: with bit 1 set the CTRL write is `resetCore` too, whatever is in flight. -/
theorem softResetIsTheHardReset : Obligations.SoftResetIsTheHardReset := by
  intro s t v rest hbit hreset
  rw [step_hardReset] at hreset
  cases hreset
  refine ⟨?_, rfl, rfl⟩
  rw [step_wr_ctrl, writeCtrl_reset _ hbit]

/-! ### Commands issued straight after a reset (R281) -/

/-- RC5_W = 0 is no word size. -/
theorem rc5Bad_resetCore (s : State) : Rc5Bad (resetCore s) := .inl (by simp)

/-- A modulus of 0 is refused. -/
theorem lcgBad_zero : LcgBad .zero := .inl rfl

/-- The commands that check a parameter whose reset value is out of range. -/
theorem exec_resetCore_error {i : Instr} {s t : State}
    (hi : i ∈ [Instr.keysched, .encBlock, .decBlock, .cbcEnc, .cbcDec, .lcgGen])
    (ht : exec i (resetCore s) = .next t) : t = finish .invalidParameter (resetCore s) := by
  have hbad := rc5Bad_resetCore s
  simp only [List.mem_cons, List.not_mem_nil, or_false] at hi
  rcases hi with rfl | rfl | rfl | rfl | rfl | rfl
  · exact execKeysched_error ht hbad
  · exact RunsBlock.enc.exec_error ht hbad
  · exact RunsBlock.dec.exec_error ht hbad
  · exact execCbcEnc_error ht (.inl hbad)
  · exact execCbcDec_invalidParameter ht (.inl hbad)
  · exact execLcgGen_error ht (.inl lcgBad_zero)

/-- DG1: the digest of the empty message. -/
theorem ofBytes_md5Digest_nil : Quad.ofBytes (md5Digest []) =
    ⟨0xd98c1dd4#32, 0x04b2008f#32, 0x980980e9#32, 0x7e42f8ec#32⟩ := by decide +kernel

/-- IN_LEN and OUT_LEN are 0 after a reset. -/
@[simp] theorem seqLen_resetCore (s : State) (src : SeqSource) : (resetCore s).seqLen src = 0 := by
  cases src <;> rfl

/-- An empty sequence has no repeat. -/
theorem periodOf_resetCore (s : State) (src : SeqSource) :
    periodOf ((resetCore s).seqValues src) = none := by
  rw [periodOf_eq_none_iff, State.seqValues, seqLen_resetCore]
  exact List.nodup_nil

/-- Settles O8: each outcome is the command's own rule with every register at its reset value. -/
theorem commandsAfterResetHaveStatedOutcomes : Obligations.CommandsAfterResetHaveStatedOutcomes := by
  rintro s z rfl
  refine ⟨readReg_resetCore s, fun i hi => ?_, fun toKey => ?_, fun src => ?_⟩
  · obtain ⟨t, ht⟩ := exec_next i (resetCore s)
    obtain rfl := exec_resetCore_error hi ht
    exact ⟨_, ht, onlyReports_finish (by decide) _⟩
  · obtain ⟨t, ht⟩ := exec_next (.md5 toKey) (resetCore s)
    obtain ⟨hcode, hdigest, -⟩ := execMd5_success ht (Nat.zero_le _)
    exact ⟨t, ht, hcode ▸ exec_completes ht, hdigest.trans ofBytes_md5Digest_nil⟩
  · obtain ⟨t, ht⟩ := exec_next (.lcgPeriod src) (resetCore s)
    obtain ⟨hcode, -, -, hnone⟩ := execLcgPeriod_success ht (by simp) (by simp)
    exact ⟨t, ht, hcode ▸ exec_completes ht, hnone (periodOf_resetCore s src)⟩

/-! ### Writes while a command is in flight (R284) -/

/-- Settles O19: a write is refused, goes to CTRL, or is dropped. -/
theorem writesWhileBusyAreDropped : Obligations.WritesWhileBusyAreDropped := by
  intro s width off v rest hbusy
  refine ⟨fun hacc hctrl => ?_, fun hacc => ?_, fun hie => ?_, fun hreset => ?_⟩
  · have haccepts := accepts_iff.2 hacc
    obtain ⟨rfl, -, -⟩ := hacc
    exact ⟨_, step_wr_busy v rest hbusy haccepts hctrl⟩
  · refine ⟨.error, ?_⟩
    rw [step_access, hostAccess_write_refused (s := { s with script := rest }) hacc]
  · exact ⟨_, ctrlWriteUpdatesIeEvenWhileBusy.1 s v rest hie⟩
  · refine ⟨.accepted, ?_⟩
    rw [step_wr_ctrl, writeCtrl_reset _ hreset]

/-! ### Reads while a command is in flight (R285) -/

theorem readData_busy {s : State} {v : Word} {i : Instr} (hflight : s.inFlight = some v)
    (hdec : decode v = .ok i) (a : Nat) : readData s a = readWordBusy s i a := by
  simp only [readData, hflight, hdec]

/-- An illegal word has no write set. -/
theorem readData_illegal {s : State} {v : Word} {e : DecodeError} (hflight : s.inFlight = some v)
    (hdec : decode v = .error e) (a : Nat) : readData s a = readWord s a := by
  simp only [readData, hflight, hdec]

/-- A read is exact where the command in flight, if the word is one, leaves it exact. -/
theorem readData_exact {s : State} {v : Word} {a : Nat} (hflight : s.inFlight = some v)
    (hexact : ∀ i, decode v = .ok i → readWordBusy s i a = readWord s a) :
    readData s a = readWord s a := by
  cases hdec : decode v with
  | ok i => rw [readData_busy hflight hdec, hexact i hdec]
  | error e => exact readData_illegal hflight hdec a

theorem readWord_register (s : State) {a : Nat} {r : Reg} (hmap : (a, r) ∈ regMap) :
    readWord s a = readReg s r := by
  rw [readWord, regionOf_register hmap]

/-- A register outside the write set, STATUS apart, reads as while idle. -/
theorem readWordBusy_register {s : State} {i : Instr} {a : Nat} {r : Reg} (hmap : (a, r) ∈ regMap)
    (hr : r ≠ .status) (hset : writesReg i r = false) : readWordBusy s i a = readWord s a := by
  rw [readWordBusy, readWord_register s hmap, regionOf_register hmap]
  simp only [readRegBusy, if_neg hr, hset, Bool.false_eq_true, if_false]

/-- A window word with no byte in the write set reads as while idle. -/
theorem readWordBusy_window {s : State} {i : Instr} {a : Nat}
    (hwin : (regionOf s.cfg a).isWindow) (hset : ∀ k, k < 4 → writesByte s i (a + k) = false) :
    readWordBusy s i a = readWord s a := by
  rw [readWord_window hwin]
  have hbyte (k : Nat) (hk : k < 4) : windowByteBusy s i a k = windowByte s (a + k) := by
    rw [windowByteBusy, hset k hk, if_neg Bool.false_ne_true]
  have hword : windowWordBusy s i a = windowWord s a := by
    rw [windowWordBusy, hbyte 0 (by decide), hbyte 1 (by decide), hbyte 2 (by decide),
      hbyte 3 (by decide)]
    rfl
  rcases hwin with h | h | h | h <;> rw [readWordBusy, h] <;> exact hword

/-- An accepted offset above the registers stands in a RAM window (`20_memory.md` R62). -/
theorem isWindow_of_acceptable {cfg : Config} {width : Width} {off : Offset}
    (hacc : Acceptable cfg width off) (hoff : 0xB0 ≤ off.toNat) :
    (regionOf cfg off.toNat).isWindow := by
  obtain ⟨-, halign, hres⟩ := hacc
  cases h : regionOf cfg off.toNat with
  | register r =>
    have hlt := (regMap_offsets _ (mem_regMap_of_regionOf h)).1
    exact absurd hlt (Nat.not_lt.2 hoff)
  | reserved => exact absurd ((regionOf_reserved halign).1 h) hres
  | keybuf => exact .inl rfl
  | sTable => exact .inr (.inl rfl)
  | inBuf => exact .inr (.inr (.inl rfl))
  | outBuf => exact .inr (.inr (.inr rfl))

/-- While the word `v` is in flight STATUS reads its fields, but for SCHED_VALID and PERIOD_FOUND of a
command that writes them. -/
theorem readData_status_busy {s : State} {v : Word} (hflight : s.inFlight = some v) :
    ∃ periodFound schedValid, readData s 0x004 =
        packStatus s.lastOp s.errCode.code s.ovr periodFound schedValid s.err s.done s.busy ∧
      ((∀ i, decode v = .ok i → writesSchedValid i = false) → schedValid = s.schedValid) ∧
      ((∀ i, decode v = .ok i → writesPeriodFound i = false) → periodFound = s.periodFound) := by
  cases hdec : decode v with
  | ok i =>
    refine ⟨_, _, readData_busy hflight hdec _, fun h => ?_, fun h => ?_⟩ <;>
      rw [h i rfl, if_neg Bool.false_ne_true]
  | error e => exact ⟨_, _, readData_illegal hflight hdec _, fun _ => rfl, fun _ => rfl⟩

/-- Settles O20: STATUS bit by bit, with the fields the invariant gives while busy; elsewhere a read
outside the write set is the idle read. -/
theorem readsWhileBusyAreExactOutsideTheWriteSet :
    Obligations.ReadsWhileBusyAreExactOutsideTheWriteSet := by
  intro s v rest hinv hflight
  refine ⟨?_, fun r off hmap hr hset => ?_, fun off hacc hoff hset => ?_⟩
  · have hbusy : s.busy = true := by rw [State.busy, hflight]; rfl
    obtain ⟨hdone, herr, hcode⟩ := hinv.busyStatus hbusy
    obtain ⟨periodFound, schedValid, hread, hsched, hperiod⟩ := readData_status_busy hflight
    rw [hbusy, hdone, herr, hcode, hinv.lastOp v hflight] at hread
    have hbit {k : Nat} (hk : k < 32) := getLsbD_packStatus (v.extractLsb' 0 8)
      ErrCode.success.code s.ovr periodFound schedValid false false true hk
    refine ⟨_, _, step_rd_accepted rest (accepts_register (r := .status) (by decide)),
      congrArg BusResponse.data hread, hbit (by decide), hbit (by decide), hbit (by decide),
      fun k hlo hhi => ?_, hbit (by decide), fun k hk => ?_,
      fun h => (hbit (by decide)).trans (hsched h), fun h => (hbit (by decide)).trans (hperiod h)⟩
    · interval_cases k <;> exact hbit (by decide)
    · have hop : (v.extractLsb' 0 8).getLsbD k = v.getLsbD k := by simp [hk]
      interval_cases k <;> exact (hbit (by decide)).trans hop
  · refine ⟨_, step_rd_accepted rest (accepts_register hmap), congrArg BusResponse.data ?_⟩
    rw [readData_exact hflight fun i hi => readWordBusy_register hmap hr (hset i hi),
      readWord_register s hmap]
  · have hwin := isWindow_of_acceptable hacc hoff
    have haccepts := accepts_iff.2 hacc
    obtain ⟨-, halign, -⟩ := hacc
    refine ⟨_, _, step_rd_accepted rest haccepts, congrArg BusResponse.data ?_,
      windowWord_toNat halign⟩
    rw [readData_exact hflight fun i hi => readWordBusy_window hwin (hset i hi),
      readWord_window hwin]

end Sys2Proof.Machine

/-! The known answers of `95_test_vectors.md` sections 2 and 3: closed values, evaluated by the kernel
one vector at a time. -/

namespace Sys2Proof.Machine

/-- Settles O33: DG1 is the digest an MD5 right after a reset gives; DG2 to DG4 compress one block, and
DG7 two, since the bit length no longer fits behind 56 bytes. -/
theorem md5KnownAnswers : Obligations.Md5KnownAnswers := by
  refine ⟨ofBytes_md5Digest_nil, ?DG2, ?DG3, ?DG4, ?DG7⟩
  case DG2 => decide +kernel
  case DG3 => decide +kernel
  case DG4 => decide +kernel
  case DG7 => decide +kernel

/-- Settles O38: four tables with no rounds to key, whose two words the mixing still passes over three
times, then two blocks encrypted under their expanded keys. -/
theorem rc5KnownAnswers : Obligations.Rc5KnownAnswers := by
  refine ⟨?KS2, ?KS6, ?KS8, ?KS9, ?V6, ?BK7⟩
  case KS2 => decide +kernel
  case KS6 => decide +kernel
  case KS8 => decide +kernel
  case KS9 => decide +kernel
  case V6 => decide +kernel
  case BK7 => decide +kernel

end Sys2Proof.Machine
